-- ==== Sys2Proof/Word.lean ====
section
/-! DEFINITION. The types of the engine's values: a byte, the 32-bit command word, and a sequence of bytes
(spec/00_scope.md R6). -/

namespace Sys2Proof

/-- A byte, an unsigned integer 0..255 (R6). -/
abbrev Byte := BitVec 8

/-- A 32-bit command word, or a 32-bit value of the host window (R41, R45). -/
abbrev Word := BitVec 32

/-- A sequence: a finite list of bytes, byte 0 first (R6). -/
abbrev Bytes := List Byte

end Sys2Proof
end

