-- ==== Sys2Proof/Config.lean ====
section
/-! DEFINITION. What is fixed for the machine: the constants of R3, the capacities of R5 at the defaults the spec
shows (DESIGN CHOICE, log entry 3), and the two FREE values: what the random source answers (R24, log entry 2) and
what `MEM` holds after a hard reset (R23, R29, log entry 1). -/

namespace Sys2Proof.Config

/-- `NROUNDS = 4`: a schedule is exactly four round keys (R3). -/
abbrev nrounds : Nat := 4

/-- `KS_STEP = 7`: round key `i` is the key rotated right by `7*i` bits (R3, R80). -/
abbrev ksStep : Nat := 7

/-- `RF_DROT = 9`: the round function rotates the data half left by 9 (R3, R90). -/
abbrev rfDrot : Nat := 9

/-- `RF_KROT = 11`: the round function rotates the round key right by 11 (R3, R90). -/
abbrev rfKrot : Nat := 11

/-- `KMAX = 62`, the largest legal key length (R5). -/
abbrev kmax : Nat := 62

/-- `VMAX = 255`, the largest length of a sequence register (R5). -/
abbrev vmax : Nat := 255

/-- `NVREG = 16`, the number of sequence registers (R5). -/
abbrev nvreg : Nat := 16

/-- `MSIZE = 4096`, the bytes of the message memory (R5). -/
abbrev msize : Nat := 4096

/-- FREE VALUE (log entry 2): byte `i` of everything the random source ever answers, in the order it is drawn.
R24 gives the source no law; nothing in Lean can evaluate it. -/
opaque randByte : Nat → Byte

/-- FREE VALUE (log entry 1): what `MEM[a]` holds after hard reset number `n`, until something writes it.
R29: "unspecified, any values"; nothing in Lean can evaluate it. -/
opaque powerOnByte : Nat → Nat → Byte

end Sys2Proof.Config
end

