-- ==== Sys2Proof/Syntax.lean ====
section
/-! DEFINITION. The 26 commands of spec/opcode_table.json, one constructor each, and the enumerations their fields
name (R51). Immediates are natural numbers; WellFormed.lean says which values the encoding admits. -/

namespace Sys2Proof

/-- Shift direction, `sdir` (R51): Left is toward byte 0, the most significant end (R34, R62). -/
inductive ShiftDir where
  | left
  | right
deriving DecidableEq, Repr

/-- Cipher direction, `cdir` (R51). -/
inductive CipherDir where
  | encrypt
  | decrypt
deriving DecidableEq, Repr

/-- Schedule order, `ord` (R51, R81). -/
inductive SchedOrd where
  | forward
  | reverse
deriving DecidableEq, Repr

/-- FeistelType, `ftype` (R51, R14). -/
inductive FType where
  | classic
  | variant1
deriving DecidableEq, Repr

/-- CipherMode as `CFG.MODE` stores it: code 3 is never stored (R14). -/
inductive Mode where
  | none
  | cbc
  | cfb
deriving DecidableEq, Repr

/-- The 2-bit `mode` field of a construction command: code 3 is the unrecognised one (R51). -/
inductive ModeField where
  | none
  | cbc
  | cfb
  | unrecognised
deriving DecidableEq, Repr

/-- IV select, `sel` (R51, R120). -/
inductive IvSel where
  | iv0
  | ivr
deriving DecidableEq, Repr

/-- The number of a sequence register, `V0`..`V15`; all sixteen codes are legal (R52). -/
abbrev VReg := Fin Config.nvreg

/-- One constructor per row of the opcode table. Fields stand in the order of the assembler syntax (R57). -/
inductive Instr where
  /-- `NOP` (R133) -/
  | nop
  /-- `CLRERR` (R135) -/
  | clrerr
  /-- `SRST` (R136) -/
  | srst
  /-- `MOV Vd, Va` (R130) -/
  | mov (vd va : VReg)
  /-- `LDV Vd, addr, len` (R131) -/
  | ldv (vr : VReg) (addr len : Nat)
  /-- `STV Vr, addr` (R132) -/
  | stv (vr : VReg) (addr : Nat)
  /-- `SETMLEN n` (R134) -/
  | setmlen (n : Nat)
  /-- `GETBIT Va, pos, idx` (R60) -/
  | getbit (va : VReg) (pos idx : Nat)
  /-- `SETBIT Vd, pos, idx, b` (R61) -/
  | setbit (vd : VReg) (pos idx : Nat) (b : Bool)
  /-- `LSH Vd, Va, sdir` (R63) -/
  | lsh (vd va : VReg) (sdir : ShiftDir)
  /-- `ROT Vd, Va, sdir, count` (R65) -/
  | rot (vd va : VReg) (sdir : ShiftDir) (count : Nat)
  /-- `XOR Vd, Va, Vb` (R71) -/
  | xor (vd va vb : VReg)
  /-- `INV Vd, Va` (R73) -/
  | inv (vd va : VReg)
  /-- `MADD Vd, Va, Vb, nbits` (R75) -/
  | madd (vd va vb : VReg) (nbits : Nat)
  /-- `INITR klen, ftype, mode` (R83) -/
  | initr (klen : Nat) (ftype : FType) (mode : ModeField)
  /-- `INITK Va, ftype, mode` (R84) -/
  | initk (va : VReg) (ftype : FType) (mode : ModeField)
  /-- `RKEY Vd, ord, i` (R88) -/
  | rkey (vd : VReg) (ord : SchedOrd) (i : Fin Config.nrounds)
  /-- `RF Vd, Va, Vb, nbits` (R91) -/
  | rf (vd va vb : VReg) (nbits : Nat)
  /-- `CRND Vd, Va, Vb, last` (R97) -/
  | crnd (vd va vb : VReg) (last : Bool)
  /-- `VRND Vd, Va, Vb, cdir` (R100) -/
  | vrnd (vd va vb : VReg) (cdir : CipherDir)
  /-- `NET Vd, Va, cdir, ord` (R102) -/
  | net (vd va : VReg) (cdir : CipherDir) (ord : SchedOrd)
  /-- `IVSET Va` (R119) -/
  | ivset (va : VReg)
  /-- `IVGET Vd, sel` (R120) -/
  | ivget (vd : VReg) (sel : IvSel)
  /-- `MSTART` (R121) -/
  | mstart
  /-- `BLK Vd, Va, cdir` (R122) -/
  | blk (vd va : VReg) (cdir : CipherDir)
  /-- `MSG cdir` (R123) -/
  | msg (cdir : CipherDir)
deriving DecidableEq, Repr

end Sys2Proof
end

