-- ==== Sys2Proof/WellFormed.lean ====
section
/-! DEFINITION. Which terms of `Instr` an encoding exists for: every immediate fits its field (R46 to R50, R52).
Register numbers, the round-key index and the enumerations fit by their types. -/

namespace Sys2Proof

/-- Every immediate of the command fits the field that encodes it. -/
def wellFormed : Instr → Bool
  | .nop | .clrerr | .srst | .mov _ _ => true
  | .ldv _ addr len => decide (addr < 4096) && decide (len < 256)
  | .stv _ addr => decide (addr < 4096)
  | .setmlen n => decide (n < 8192)
  | .getbit _ pos idx => decide (pos < 256) && decide (idx < 16)
  | .setbit _ pos idx _ => decide (pos < 256) && decide (idx < 16)
  | .lsh _ _ _ => true
  | .rot _ _ _ count => decide (count < 32768)
  | .xor _ _ _ | .inv _ _ => true
  | .madd _ _ _ nbits => decide (nbits < 4096)
  | .initr klen _ _ => decide (klen < 256)
  | .initk _ _ _ | .rkey _ _ _ => true
  | .rf _ _ _ nbits => decide (nbits < 4096)
  | .crnd _ _ _ _ | .vrnd _ _ _ _ | .net _ _ _ _ => true
  | .ivset _ | .ivget _ _ | .mstart | .blk _ _ _ | .msg _ => true

end Sys2Proof
end

