-- ==== Sys2Proof/Decode.lean ====
section
/-! DEFINITION. The binary encoding of commands (spec/30_encoding.md): fields of a word, the codes of the enumerations,
the decoder (total: an illegal word decodes to nothing, R54), the encoder, and the rows of spec/opcode_table.json. -/

namespace Sys2Proof

/-- The field of bits `hi` down to `lo` of a word, as an unsigned integer (R6). -/
def field (w : Word) (hi lo : Nat) : Nat := w.toNat / 2 ^ lo % 2 ^ (hi + 1 - lo)

/-- A 4-bit register field selects `V[0]..V[15]` (R52). -/
def regOf (n : Nat) : VReg := Fin.ofNat 16 n

/-! The codes of the enumerations, both ways (R51). -/

def ShiftDir.code : ShiftDir → Nat
  | .left => 0
  | .right => 1

def shiftDirOf : Nat → ShiftDir
  | 0 => .left
  | _ => .right

def CipherDir.code : CipherDir → Nat
  | .encrypt => 0
  | .decrypt => 1

def cipherDirOf : Nat → CipherDir
  | 0 => .encrypt
  | _ => .decrypt

def SchedOrd.code : SchedOrd → Nat
  | .forward => 0
  | .reverse => 1

def schedOrdOf : Nat → SchedOrd
  | 0 => .forward
  | _ => .reverse

def FType.code : FType → Nat
  | .classic => 0
  | .variant1 => 1

def ftypeOf : Nat → FType
  | 0 => .classic
  | _ => .variant1

def Mode.code : Mode → Nat
  | .none => 0
  | .cbc => 1
  | .cfb => 2

def ModeField.code : ModeField → Nat
  | .none => 0
  | .cbc => 1
  | .cfb => 2
  | .unrecognised => 3

def modeFieldOf : Nat → ModeField
  | 0 => .none
  | 1 => .cbc
  | 2 => .cfb
  | _ => .unrecognised

def IvSel.code : IvSel → Nat
  | .iv0 => 0
  | .ivr => 1

def ivSelOf : Nat → IvSel
  | 0 => .iv0
  | _ => .ivr

/-- The code of a one-bit field that is a truth value: `b` of `SETBIT`, `last` of `CRND` (R51, R52). -/
def flagCode (b : Bool) : Nat := if b then 1 else 0

def flagOf (n : Nat) : Bool := n == 1

/-! The fields of the five formats (R46 to R50). -/

def opField (w : Word) : Nat := field w 31 24
def vdField (w : Word) : Nat := field w 23 20
def vaField (w : Word) : Nat := field w 19 16
def vbField (w : Word) : Nat := field w 15 12
def imm12Field (w : Word) : Nat := field w 11 0
def imm16Field (w : Word) : Nat := field w 15 0
def sdirField (w : Word) : Nat := field w 15 15
def countField (w : Word) : Nat := field w 14 0
def posField (w : Word) : Nat := field w 15 8
def idxField (w : Word) : Nat := field w 7 4
def zeroField (w : Word) : Nat := field w 3 1
def bField (w : Word) : Nat := field w 0 0
def lenField (w : Word) : Nat := field w 19 12
def addrField (w : Word) : Nat := field w 11 0

/-- The instruction `i`, if every must-be-zero field of its word is zero; else the word is illegal (R54). -/
def whenZero (mustBeZero : List Nat) (i : Instr) : Option Instr :=
  if mustBeZero.all (fun f => f == 0) then some i else none

/-- The command a word is a well-formed instance of, if any: opcode and must-be-zero fields of R52. -/
def decode (w : Word) : Option Instr :=
  let vd := regOf (vdField w)
  let va := regOf (vaField w)
  let vb := regOf (vbField w)
  match opField w with
  | 0x00 => whenZero [vdField w, vaField w, imm16Field w] .nop
  | 0x01 => whenZero [vdField w, vaField w, imm16Field w] .clrerr
  | 0x02 => whenZero [vdField w, vaField w, imm16Field w] .srst
  | 0x08 => whenZero [imm16Field w] (.mov vd va)
  | 0x09 => some (.ldv vd (addrField w) (lenField w))
  | 0x0A => whenZero [lenField w] (.stv vd (addrField w))
  | 0x0B => whenZero [vdField w, vaField w, field w 15 13] (.setmlen (field w 12 0))
  | 0x10 => whenZero [vdField w, zeroField w, bField w] (.getbit va (posField w) (idxField w))
  | 0x11 => whenZero [vaField w, zeroField w] (.setbit vd (posField w) (idxField w) (flagOf (bField w)))
  | 0x12 => whenZero [countField w] (.lsh vd va (shiftDirOf (sdirField w)))
  | 0x13 => some (.rot vd va (shiftDirOf (sdirField w)) (countField w))
  | 0x18 => whenZero [imm12Field w] (.xor vd va vb)
  | 0x19 => whenZero [vbField w, imm12Field w] (.inv vd va)
  | 0x1A => some (.madd vd va vb (imm12Field w))
  | 0x20 =>
    whenZero [vdField w, vaField w, field w 7 3]
      (.initr (field w 15 8) (ftypeOf (field w 2 2)) (modeFieldOf (field w 1 0)))
  | 0x21 =>
    whenZero [vdField w, field w 15 3] (.initk va (ftypeOf (field w 2 2)) (modeFieldOf (field w 1 0)))
  | 0x22 =>
    whenZero [vaField w, field w 15 3] (.rkey vd (schedOrdOf (field w 2 2)) (Fin.ofNat 4 (field w 1 0)))
  | 0x28 => some (.rf vd va vb (imm12Field w))
  | 0x30 => whenZero [field w 11 1] (.crnd vd va vb (flagOf (field w 0 0)))
  | 0x31 => whenZero [field w 11 1] (.vrnd vd va vb (cipherDirOf (field w 0 0)))
  | 0x32 => whenZero [field w 15 2] (.net vd va (cipherDirOf (field w 0 0)) (schedOrdOf (field w 1 1)))
  | 0x38 => whenZero [vdField w, imm16Field w] (.ivset va)
  | 0x39 => whenZero [vaField w, field w 15 1] (.ivget vd (ivSelOf (field w 0 0)))
  | 0x3A => whenZero [vdField w, vaField w, imm16Field w] .mstart
  | 0x3B => whenZero [field w 15 1] (.blk vd va (cipherDirOf (field w 0 0)))
  | 0x3C => whenZero [vdField w, vaField w, field w 15 1] (.msg (cipherDirOf (field w 0 0)))
  | _ => none

/-! The five formats as words: the fields shifted to their positions (R46 to R50, R59). -/

def formatR (op vd va vb imm12 : Nat) : Word :=
  BitVec.ofNat 32 (op * 2 ^ 24 + vd * 2 ^ 20 + va * 2 ^ 16 + vb * 2 ^ 12 + imm12)

def formatS (op vd va sdir count : Nat) : Word :=
  BitVec.ofNat 32 (op * 2 ^ 24 + vd * 2 ^ 20 + va * 2 ^ 16 + sdir * 2 ^ 15 + count)

def formatB (op vd va pos idx b : Nat) : Word :=
  BitVec.ofNat 32 (op * 2 ^ 24 + vd * 2 ^ 20 + va * 2 ^ 16 + pos * 2 ^ 8 + idx * 2 ^ 4 + b)

def formatM (op vr len addr : Nat) : Word :=
  BitVec.ofNat 32 (op * 2 ^ 24 + vr * 2 ^ 20 + len * 2 ^ 12 + addr)

def formatI (op vd va imm16 : Nat) : Word :=
  BitVec.ofNat 32 (op * 2 ^ 24 + vd * 2 ^ 20 + va * 2 ^ 16 + imm16)

/-- The word of a command, all must-be-zero fields zero (R52, R59). -/
def encode : Instr → Word
  | .nop => formatI 0x00 0 0 0
  | .clrerr => formatI 0x01 0 0 0
  | .srst => formatI 0x02 0 0 0
  | .mov vd va => formatI 0x08 vd.val va.val 0
  | .ldv vr addr len => formatM 0x09 vr.val len addr
  | .stv vr addr => formatM 0x0A vr.val 0 addr
  | .setmlen n => formatI 0x0B 0 0 n
  | .getbit va pos idx => formatB 0x10 0 va.val pos idx 0
  | .setbit vd pos idx b => formatB 0x11 vd.val 0 pos idx (flagCode b)
  | .lsh vd va sdir => formatS 0x12 vd.val va.val sdir.code 0
  | .rot vd va sdir count => formatS 0x13 vd.val va.val sdir.code count
  | .xor vd va vb => formatR 0x18 vd.val va.val vb.val 0
  | .inv vd va => formatR 0x19 vd.val va.val 0 0
  | .madd vd va vb nbits => formatR 0x1A vd.val va.val vb.val nbits
  | .initr klen ftype mode => formatI 0x20 0 0 (klen * 2 ^ 8 + ftype.code * 2 ^ 2 + mode.code)
  | .initk va ftype mode => formatI 0x21 0 va.val (ftype.code * 2 ^ 2 + mode.code)
  | .rkey vd ord i => formatI 0x22 vd.val 0 (ord.code * 2 ^ 2 + i.val)
  | .rf vd va vb nbits => formatR 0x28 vd.val va.val vb.val nbits
  | .crnd vd va vb last => formatR 0x30 vd.val va.val vb.val (flagCode last)
  | .vrnd vd va vb cdir => formatR 0x31 vd.val va.val vb.val cdir.code
  | .net vd va cdir ord => formatI 0x32 vd.val va.val (ord.code * 2 + cdir.code)
  | .ivset va => formatI 0x38 0 va.val 0
  | .ivget vd sel => formatI 0x39 vd.val 0 sel.code
  | .mstart => formatI 0x3A 0 0 0
  | .blk vd va cdir => formatI 0x3B vd.val va.val cdir.code
  | .msg cdir => formatI 0x3C 0 0 cdir.code

/-- A row of spec/opcode_table.json: a word is a well-formed instance of the command if and only if
`cw & mask == match` (R53). -/
structure TableRow where
  mnemonic : String
  fixed : Word
  mask : Word
deriving DecidableEq, Repr

/-- The row of a command, transcribed from spec/opcode_table.json (R53). -/
def tableRow : Instr → TableRow
  | .nop => ⟨"NOP", 0x00000000, 0xFFFFFFFF⟩
  | .clrerr => ⟨"CLRERR", 0x01000000, 0xFFFFFFFF⟩
  | .srst => ⟨"SRST", 0x02000000, 0xFFFFFFFF⟩
  | .mov _ _ => ⟨"MOV", 0x08000000, 0xFF00FFFF⟩
  | .ldv _ _ _ => ⟨"LDV", 0x09000000, 0xFF000000⟩
  | .stv _ _ => ⟨"STV", 0x0A000000, 0xFF0FF000⟩
  | .setmlen _ => ⟨"SETMLEN", 0x0B000000, 0xFFFFE000⟩
  | .getbit _ _ _ => ⟨"GETBIT", 0x10000000, 0xFFF0000F⟩
  | .setbit _ _ _ _ => ⟨"SETBIT", 0x11000000, 0xFF0F000E⟩
  | .lsh _ _ _ => ⟨"LSH", 0x12000000, 0xFF007FFF⟩
  | .rot _ _ _ _ => ⟨"ROT", 0x13000000, 0xFF000000⟩
  | .xor _ _ _ => ⟨"XOR", 0x18000000, 0xFF000FFF⟩
  | .inv _ _ => ⟨"INV", 0x19000000, 0xFF00FFFF⟩
  | .madd _ _ _ _ => ⟨"MADD", 0x1A000000, 0xFF000000⟩
  | .initr _ _ _ => ⟨"INITR", 0x20000000, 0xFFFF00F8⟩
  | .initk _ _ _ => ⟨"INITK", 0x21000000, 0xFFF0FFF8⟩
  | .rkey _ _ _ => ⟨"RKEY", 0x22000000, 0xFF0FFFF8⟩
  | .rf _ _ _ _ => ⟨"RF", 0x28000000, 0xFF000000⟩
  | .crnd _ _ _ _ => ⟨"CRND", 0x30000000, 0xFF000FFE⟩
  | .vrnd _ _ _ _ => ⟨"VRND", 0x31000000, 0xFF000FFE⟩
  | .net _ _ _ _ => ⟨"NET", 0x32000000, 0xFF00FFFC⟩
  | .ivset _ => ⟨"IVSET", 0x38000000, 0xFFF0FFFF⟩
  | .ivget _ _ => ⟨"IVGET", 0x39000000, 0xFF0FFFFE⟩
  | .mstart => ⟨"MSTART", 0x3A000000, 0xFFFFFFFF⟩
  | .blk _ _ _ => ⟨"BLK", 0x3B000000, 0xFF00FFFE⟩
  | .msg _ => ⟨"MSG", 0x3C000000, 0xFFFFFFFE⟩

/-! One command of every constructor, in the table's order, by the groups of R53. -/

def systemCommands : List Instr := [.nop, .clrerr, .srst]

def dataCommands : List Instr := [.mov 0 0, .ldv 0 0 0, .stv 0 0, .setmlen 0]

def bitCommands : List Instr := [.getbit 0 0 0, .setbit 0 0 0 false, .lsh 0 0 .left, .rot 0 0 .left 0]

def arithmeticCommands : List Instr := [.xor 0 0 0, .inv 0 0, .madd 0 0 0 0]

def keyCommands : List Instr := [.initr 0 .classic .none, .initk 0 .classic .none, .rkey 0 .forward 0]

def roundCommands : List Instr :=
  [.rf 0 0 0 0, .crnd 0 0 0 false, .vrnd 0 0 0 .encrypt, .net 0 0 .encrypt .forward]

def modeCommands : List Instr := [.ivset 0, .ivget 0 .iv0, .mstart, .blk 0 0 .encrypt, .msg .encrypt]

/-- One command of every constructor, in the table's order. -/
def representatives : List Instr :=
  systemCommands ++ dataCommands ++ bitCommands ++ arithmeticCommands ++ keyCommands ++ roundCommands ++ modeCommands

/-- The 26 rows of spec/opcode_table.json. -/
def opcodeTable : List TableRow := representatives.map tableRow

/-- The instruction the decoder reads from a word numbered as the opcode table numbers it, bits above `nbits` zero. -/
def decodeTableWord (nbits w : Nat) : Option Instr := decode (BitVec.ofNat 32 (w % 2 ^ nbits))

end Sys2Proof
end

