-- ==== Sys2Proof/Machine/State.lean ====
section
/-! DEFINITION. The state of one engine (spec/10_state.md R10 to R23) and, beside it, the host's events and answers
(R13, R41, R173) and the two counters that index the free values (R24, R29); the reasons a step can stop; reset. -/

namespace Sys2Proof.Machine

/-- Why the machine stops with a fault: never. Every error of this engine is latched in `ERR` and the machine goes
on (R141, R145); no rule of the spec describes a machine that stops. -/
inductive Fault where
deriving DecidableEq, Repr

/-- Why a step has no meaning. -/
inductive Refusal where
  /-- Raised by an arm of `exec` for an instruction without a meaning yet. Safe. No arm uses it. -/
  | notModelled (mnemonic : String)
  /-- Raised by a host access whose width is not the one the window table lists for its offset (R41: "the spec defines
  no narrower access"); spec/93_implementation_defined.md U11 says such accesses are refused. Safe. -/
  | hostAccessWidth
deriving DecidableEq, Repr

/-- The error kinds of R140, in the order of their codes 1 to 7. -/
inductive ErrKind where
  | invalidKey
  | invalidConfiguration
  | indexOutOfRange
  | invalidArgument
  | illegalCommand
  | badState
  | memRange
deriving DecidableEq, Repr

/-- The configuration register (R14). -/
structure Cfg where
  ready : Bool
  ftype : FType
  mode : Mode
  klen : BitVec 8
deriving DecidableEq, Repr

/-- What the host does to the engine, each between two commands (R40, R41, R172). Offsets are those of the 8 KiB
window. The widths are the two that R41 lists. -/
inductive HostEvent where
  /-- A hard reset: power-on or the reset input (R160). -/
  | hardReset
  /-- A 32-bit write; at offset 0 it issues a command word (R41). -/
  | write32 (offset : BitVec 13) (data : Word)
  /-- A 32-bit read (R41). -/
  | read32 (offset : BitVec 13)
  /-- An 8-bit write (R41). -/
  | write8 (offset : BitVec 13) (data : Byte)
  /-- An 8-bit read (R41). -/
  | read8 (offset : BitVec 13)
deriving DecidableEq, Repr

/-- The bytes of `MEM` that something has written since the last hard reset, by address. An address that is not
listed holds the free value `Config.powerOnByte` (log entry 1). -/
abbrev Memory := List Host.Cell

/-- The canonical form: addresses strictly rising and inside `MEM` (R23, R30). At this level an unlisted address
reads as no byte, so no entry can equal what an unlisted address reads as (log entry 1). -/
abbrev Memory.wf (m : Memory) : Prop :=
  m.Pairwise (fun x y => x.1 < y.1) ∧ ∀ c ∈ m, c.1 < Config.msize

/-- The state: the engine's registers and memory (R10), then the host's side, then the free values' counters. -/
structure State where
  /-- `V[0..15]` (R11) -/
  v : Vector Bytes Config.nvreg
  /-- `T` (R12) -/
  t : Bool
  /-- `CFG` (R14) -/
  cfg : Cfg
  /-- `KEY` (R16) -/
  key : Bytes
  /-- `RK[0..3]` (R17) -/
  rk : Vector Bytes Config.nrounds
  /-- `IV0` (R18) -/
  iv0 : Bytes
  /-- `IVR` (R19) -/
  ivr : Bytes
  /-- `ERR`: no error, or the kind latched (R20) -/
  err : Option ErrKind
  /-- `ECW` (R21) -/
  ecw : Word
  /-- `MLEN` (R22) -/
  mlen : BitVec 13
  /-- `MEM` (R23) -/
  mem : Memory
  /-- The host's events not yet performed, oldest first; the host's, not the engine's (R13, R173). -/
  pending : List HostEvent
  /-- What the host's reads have returned, newest first; the host's, not the engine's (R41). -/
  answers : List Word
  /-- Hard resets since the launch; selects the free power-on image (log entry 1). -/
  launch : Nat
  /-- Bytes drawn so far from the random source; the next index of the free stream (log entry 2). -/
  draws : Nat
deriving DecidableEq, Repr

/-- The unconstructed configuration: every field 0 (R14, R29). -/
def Cfg.reset : Cfg := { ready := false, ftype := .classic, mode := .none, klen := 0 }

/-- The machine right after a hard reset (R29), with no event pending. -/
def State.reset : State where
  v := Vector.replicate Config.nvreg []
  t := false
  cfg := Cfg.reset
  key := []
  rk := Vector.replicate Config.nrounds []
  iv0 := []
  ivr := []
  err := none
  ecw := 0
  mlen := 0
  mem := []
  pending := []
  answers := []
  launch := 0
  draws := 0

end Sys2Proof.Machine
end

