-- ==== Sys2Proof/Machine/Ops.lean ====
section
/-! DEFINITION. The shared operations over memory and registers, the random source, taking an error (R141) and
returning from one (R135). -/

namespace Sys2Proof.Machine

/-- What executing a command or a host event answers. -/
abbrev Result := Host.Outcome State Fault Refusal

/-! Memory (20_memory.md). -/

/-- The byte written at `a` since the last hard reset, if any. -/
def Memory.read : Memory → Nat → Option Byte
  | [], _ => none
  | (k, b) :: m, a => if a = k then some b else Memory.read m a

/-- Write one byte, keeping the addresses strictly rising. -/
def Memory.write : Memory → Nat → Byte → Memory
  | [], a, b => [(a, b)]
  | (k, c) :: m, a, b =>
    if a < k then (a, b) :: (k, c) :: m
    else if a = k then (a, b) :: m
    else (k, c) :: Memory.write m a b

/-- Write a run of bytes, in ascending address order (R33, R36). -/
def Memory.writeBytes : Memory → Nat → Bytes → Memory
  | m, _, [] => m
  | m, a, b :: s => Memory.writeBytes (m.write a b) (a + 1) s

/-- `MEM[a]`: the byte written there, or what the hard reset left, any value (R23, R29; log entry 1). -/
def memByte (s : State) (a : Nat) : Byte :=
  match s.mem.read a with
  | some b => b
  | none => Config.powerOnByte s.launch a

/-- `MemRead(addr, n)` (R32). The command rules test `addr + n ≤ MSIZE` before they call it. -/
def memRead (s : State) (addr n : Nat) : Bytes := (List.range n).map (fun j => memByte s (addr + j))

/-- `MemWrite(addr, n, bytes)` with `n = len(bytes)` (R33). Tested before like `memRead`. -/
def memWrite (s : State) (addr : Nat) (bytes : Bytes) : State :=
  { s with mem := s.mem.writeBytes addr bytes }

/-! Registers (10_state.md). -/

/-- `V[i]` (R7, R11). -/
def readV (s : State) (i : VReg) : Bytes := s.v[i.val]

/-- `V[i] <- x` (R7, R11). -/
def writeV (s : State) (i : VReg) (x : Bytes) : State := { s with v := s.v.set i.val x }

/-- `B`, the block size in bytes (R4, R15). -/
def blockBytes (cfg : Cfg) : Nat :=
  match cfg.ftype with
  | .classic => 2 * cfg.klen.toNat
  | .variant1 => 4 * cfg.klen.toNat

/-- `BBITS`, the block size in bits (R15, R93). -/
def blockBits (cfg : Cfg) : Nat := 8 * blockBytes cfg

/-! The random source (R24). -/

/-- The `n` bytes a draw gives when `start` bytes have been drawn before: free values (log entry 2). -/
def randBytes (start n : Nat) : Bytes := (List.range n).map (fun j => Config.randByte (start + j))

/-- `Rand(n)`: the bytes, and the state in which they have been drawn (R24, R85). -/
def rand (s : State) (n : Nat) : Bytes × State := (randBytes s.draws n, { s with draws := s.draws + n })

/-! Errors (60_exceptions.md). -/

/-- `raise K` during the command word `cw`: `ERR` and `ECW` are written and nothing else (R141). A meaning gives as `cw`
the word its command encodes to (DEDUCED, log entry 7). -/
def raise (k : ErrKind) (cw : Word) (s : State) : Result := .next { s with err := some k, ecw := cw }

/-- The return from an error: `ERR <- 0`, `ECW <- 0` and nothing else (R135, R147). -/
def clearError (s : State) : State := { s with err := none, ecw := 0 }

/-- Step 3 of R55 for a command that needs `CFG.READY = 1`. -/
def whenReady (cw : Word) (s : State) (k : Result) : Result :=
  if s.cfg.ready then k else raise .badState cw s

/-- Step 3 of R55 for a command that needs `CFG.READY = 0`. -/
def whenUnready (cw : Word) (s : State) (k : Result) : Result :=
  if s.cfg.ready then raise .badState cw s else k

/-- The engine's registers as after reset, `MEM` as it is (R29, column "after `SRST`"; R136). The host's side and the
counters of the free values are not the engine's and stay. -/
def resetRegisters (s : State) : State :=
  { State.reset with
    mem := s.mem, pending := s.pending, answers := s.answers, launch := s.launch, draws := s.draws }

/-- A hard reset: the registers as after reset and `MEM` unspecified, a new free image (R29, R160). The host's side
stays (DESIGN CHOICE, log entry 9). -/
def hardReset (s : State) : State := { resetRegisters s with mem := [], launch := s.launch + 1 }

end Sys2Proof.Machine
end

