-- ==== Sys2Proof/Machine/Operands.lean ====
section
/-! DEFINITION. The operand forms: a sequence as an integer and as a bit string (R6), sub-sequences (R6), the parts of
a block (R35), the schedule in either order (R81), an IV register by its select (R120), the mode field (R51). -/

namespace Sys2Proof.Machine

/-- `Int(s)`: the sequence as one unsigned big-endian integer, byte 0 the most significant (R6; PRESUMED by the
spec itself, G2, log entry 12). -/
def intOf : Bytes → Nat
  | [] => 0
  | b :: s => b.toNat * 256 ^ s.length + intOf s

/-- `Seq(v, n)`: the `n`-byte sequence with `Int = v` (R6). -/
def seqOf (v : Nat) : Nat → Bytes
  | 0 => []
  | n + 1 => BitVec.ofNat 8 (v / 256 ^ n) :: seqOf v n

/-- The bits of a byte, most significant first (R6). -/
def bitsOfByte (b : Byte) : List Bool := (List.range 8).map (fun t => b.getLsbD (7 - t))

/-- `Bits(s)`: the bit string of `s`, byte 0 first, each byte most significant bit first (R6). -/
def bitsOf (s : Bytes) : List Bool := s.flatMap bitsOfByte

/-- `zeros(n)` (R6). -/
def zeros (n : Nat) : Bytes := List.replicate n 0

/-- `s[a ..< b]` (R6). -/
def slice (s : Bytes) (a b : Nat) : Bytes := (s.drop a).take (b - a)

/-- Left and Right of a Classic block whose halves have `n` bytes (R35). -/
def leftHalf (n : Nat) (x : Bytes) : Bytes := slice x 0 n
def rightHalf (n : Nat) (x : Bytes) : Bytes := slice x n (2 * n)

/-- Q1 to Q4 of a Variant1 block whose quarters have `n` bytes (R35). -/
def quarter1 (n : Nat) (x : Bytes) : Bytes := slice x 0 n
def quarter2 (n : Nat) (x : Bytes) : Bytes := slice x n (2 * n)
def quarter3 (n : Nat) (x : Bytes) : Bytes := slice x (2 * n) (3 * n)
def quarter4 (n : Nat) (x : Bytes) : Bytes := slice x (3 * n) (4 * n)

/-- The four round keys of a schedule in the chosen order (R81). -/
def scheduleOf (rk : Vector Bytes Config.nrounds) : SchedOrd → List Bytes
  | .forward => [rk[0], rk[1], rk[2], rk[3]]
  | .reverse => [rk[3], rk[2], rk[1], rk[0]]

/-- The IV register a select names (R51, R120). -/
def ivOf (s : State) : IvSel → Bytes
  | .iv0 => s.iv0
  | .ivr => s.ivr

/-- The mode a construction command's field names; code 3 names none (R51). -/
def modeOf : ModeField → Option Mode
  | .none => some .none
  | .cbc => some .cbc
  | .cfb => some .cfb
  | .unrecognised => none

end Sys2Proof.Machine
end

