-- ==== Sys2Proof/Machine/Flags.lean ====
section
/-! DEFINITION. The one flag, `T` (R12), the bit it receives (R60), and the `STATUS` view assembled from the registers
(R25). No other command computes a flag (R12, R76). -/

namespace Sys2Proof.Machine

/-- Bit `idx` of a byte, `floor(b / 2^idx) mod 2` (R6, R60). -/
def bitNat (b : Byte) (idx : Nat) : Nat := b.toNat / 2 ^ idx % 2

/-- `T <- x` (R12). -/
def writeT (s : State) (x : Bool) : State := { s with t := x }

/-- The code of an error kind (R140). -/
def errKindCode : ErrKind → BitVec 3
  | .invalidKey => 1
  | .invalidConfiguration => 2
  | .indexOutOfRange => 3
  | .invalidArgument => 4
  | .illegalCommand => 5
  | .badState => 6
  | .memRange => 7

/-- The code in `ERR`: 0 for no error (R20, R140). -/
def errCode : Option ErrKind → BitVec 3
  | none => 0
  | some k => errKindCode k

/-- `STATUS` (R25): bits 31:29 zero, 28:16 `MLEN`, 15:8 `KLEN`, 7:6 `MODE`, 5 `FTYPE`, 4 `T`, 3 `READY`, 2:0 `ERR`. -/
def statusWord (s : State) : Word :=
  0#3 ++ s.mlen ++ s.cfg.klen ++ BitVec.ofNat 2 s.cfg.mode.code ++ BitVec.ofNat 1 s.cfg.ftype.code
    ++ BitVec.ofBool s.t ++ BitVec.ofBool s.cfg.ready ++ errCode s.err

end Sys2Proof.Machine
end

