-- ==== Sys2Proof/Machine/BitPrimitives.lean ====
section
/-! DEFINITION. Bit primitives (spec/40_bit_primitives.md): `GETBIT`, `SETBIT`, `LSH`, `ROT`. -/

namespace Sys2Proof.Machine

/-- FSTL's `setBit`: bit `idx` of the byte replaced by `x`, the other seven kept (R61). -/
def setBitOf (old : Byte) (idx : Nat) (x : Bool) : Byte :=
  BitVec.ofNat 8 (old.toNat - bitNat old idx * 2 ^ idx + flagCode x * 2 ^ idx)

/-- `Lsh(s, dir)` (R62). -/
def lsh (s : Bytes) : ShiftDir → Bytes
  | .left => seqOf (2 * intOf s % 256 ^ s.length) s.length
  | .right => seqOf (intOf s / 2) s.length

/-- `Rol(s, c)` (R64), for a sequence that is not empty (on the empty one, log entry 11). -/
def rol (s : Bytes) (c : Nat) : Bytes :=
  let w := 8 * s.length
  let r := c % w
  seqOf (intOf s * 2 ^ r % 2 ^ w + intOf s / 2 ^ (w - r)) s.length

/-- `Ror(s, c)` (R64), for a sequence that is not empty. -/
def ror (s : Bytes) (c : Nat) : Bytes :=
  let w := 8 * s.length
  rol s ((w - c % w) % w)

/-- `Rot(s, c, dir)` (R64). -/
def rot (s : Bytes) (c : Nat) : ShiftDir → Bytes
  | .left => rol s c
  | .right => ror s c

/-- `GETBIT Va, pos, idx` (R60). -/
def execGetbit (va : VReg) (pos idx : Nat) (s : State) : Result :=
  let cw := encode (.getbit va pos idx)
  if idx ≥ 8 then raise .indexOutOfRange cw s
  else
    match (readV s va)[pos]? with
    | none => raise .invalidArgument cw s
    | some b => .next (writeT s (bitNat b idx == 1))

/-- `SETBIT Vd, pos, idx, b` (R61). -/
def execSetbit (vd : VReg) (pos idx : Nat) (b : Bool) (s : State) : Result :=
  let cw := encode (.setbit vd pos idx b)
  if idx ≥ 8 then raise .indexOutOfRange cw s
  else
    match (readV s vd)[pos]? with
    | none => raise .invalidArgument cw s
    | some old => .next (writeV s vd ((readV s vd).set pos (setBitOf old idx b)))

/-- `LSH Vd, Va, sdir` (R63). -/
def execLsh (vd va : VReg) (sdir : ShiftDir) (s : State) : Result :=
  .next (writeV s vd (lsh (readV s va) sdir))

/-- `ROT Vd, Va, sdir, count` (R65). -/
def execRot (vd va : VReg) (sdir : ShiftDir) (count : Nat) (s : State) : Result :=
  if (readV s va).length = 0 then raise .invalidArgument (encode (.rot vd va sdir count)) s
  else .next (writeV s vd (rot (readV s va) count sdir))

end Sys2Proof.Machine
end

