-- ==== Sys2Proof/Machine/Arithmetic.lean ====
section
/-! DEFINITION. Arithmetic primitives (spec/41_arithmetic.md): `XOR`, `INV`, `MADD`. -/

namespace Sys2Proof.Machine

/-- `Xor(a, b)`, for operands of one length (R70). -/
def xorB (a b : Bytes) : Bytes := List.zipWith (fun x y => x ^^^ y) a b

/-- `Inv(a)`: each bit of each byte flipped (R72). -/
def invB (a : Bytes) : Bytes := a.map (fun x => ~~~x)

/-- One byte of `ModCombine`: the exact sum, reduced by `2^nbits + 1`, then narrowed to its low 8 bits (R74;
PRESUMED by the spec itself, G1, log entry 12). -/
def modCombineByte (x y : Byte) (nbits : Nat) : Byte :=
  BitVec.ofNat 8 ((x.toNat + y.toNat) % (2 ^ nbits + 1))

/-- `ModCombine(a, b, nbits)`, for operands of one length (R74). -/
def modCombine (a b : Bytes) (nbits : Nat) : Bytes :=
  List.zipWith (fun x y => modCombineByte x y nbits) a b

/-- `XOR Vd, Va, Vb` (R71). -/
def execXor (vd va vb : VReg) (s : State) : Result :=
  if (readV s va).length ≠ (readV s vb).length then raise .invalidArgument (encode (.xor vd va vb)) s
  else .next (writeV s vd (xorB (readV s va) (readV s vb)))

/-- `INV Vd, Va` (R73). -/
def execInv (vd va : VReg) (s : State) : Result := .next (writeV s vd (invB (readV s va)))

/-- `MADD Vd, Va, Vb, nbits` (R75). -/
def execMadd (vd va vb : VReg) (nbits : Nat) (s : State) : Result :=
  if (readV s va).length ≠ (readV s vb).length then raise .invalidArgument (encode (.madd vd va vb nbits)) s
  else .next (writeV s vd (modCombine (readV s va) (readV s vb) nbits))

end Sys2Proof.Machine
end

