-- ==== Sys2Proof/Machine/KeySchedule.lean ====
section
/-! DEFINITION. Construction and key schedule (spec/42_key_schedule.md): `INITR`, `INITK`, `RKEY`. -/

namespace Sys2Proof.Machine

/-- `RoundKeys(key)[i] = Ror(key, 7*i)` (R80). -/
def roundKey (key : Bytes) (i : Nat) : Bytes := ror key (Config.ksStep * i)

/-- `RoundKeys(key)` (R80). -/
def roundKeys (key : Bytes) : Vector Bytes Config.nrounds :=
  #v[roundKey key 0, roundKey key 1, roundKey key 2, roundKey key 3]

/-- The configuration of an instance (R14, R82). -/
def constructedCfg (key : Bytes) (ft : FType) (m : Mode) : Cfg :=
  { ready := true, ftype := ft, mode := m, klen := BitVec.ofNat 8 key.length }

/-- The writes of `Construct`, the IV given (R82). -/
def install (key : Bytes) (ft : FType) (m : Mode) (iv : Bytes) (s : State) : State :=
  { s with cfg := constructedCfg key ft m, key := key, rk := roundKeys key, iv0 := iv, ivr := iv }

/-- `Construct(k, ft, m, ivlen)`: the IV is drawn unless the mode is None (R82, R85). -/
def construct (key : Bytes) (ft : FType) (m : Mode) (ivlen : Nat) (s : State) : State :=
  match m with
  | .none => install key ft .none [] s
  | .cbc => install key ft .cbc (rand s ivlen).1 (rand s ivlen).2
  | .cfb => install key ft .cfb (rand s ivlen).1 (rand s ivlen).2

/-- A length the key may not have: zero, odd, or above `KMAX` (R83, R84). -/
def badKeyLen (n : Nat) : Bool := n == 0 || n % 2 == 1 || decide (n > Config.kmax)

/-- The IV length of the direct-key constructor: `4*B` in CFB, else `B` (R84, R87). -/
def directIvLen (b : Nat) : Mode → Nat
  | .none => b
  | .cbc => b
  | .cfb => 4 * b

/-- `INITR klen, ftype, mode` (R83): the key is the first draw, the IV the second (R85). -/
def execInitr (klen : Nat) (ftype : FType) (mode : ModeField) (s : State) : Result :=
  let cw := encode (.initr klen ftype mode)
  whenUnready cw s
    (match modeOf mode with
    | none => raise .invalidConfiguration cw s
    | some m =>
      if badKeyLen klen then raise .invalidKey cw s
      else
        let key := (rand s klen).1
        .next (construct key ftype m (blockBytes (constructedCfg key ftype m)) (rand s klen).2))

/-- `INITK Va, ftype, mode` (R84). -/
def execInitk (va : VReg) (ftype : FType) (mode : ModeField) (s : State) : Result :=
  let cw := encode (.initk va ftype mode)
  whenUnready cw s
    (match modeOf mode with
    | none => raise .invalidConfiguration cw s
    | some m =>
      let key := readV s va
      if badKeyLen key.length then raise .invalidKey cw s
      else .next (construct key ftype m (directIvLen (blockBytes (constructedCfg key ftype m)) m) s))

/-- Element `i` of the schedule in the chosen order: `RK[i]`, or `RK[3 - i]` (R88). -/
def scheduleKey (rk : Vector Bytes Config.nrounds) (i : Fin Config.nrounds) : SchedOrd → Bytes
  | .forward => rk[i.val]
  | .reverse => rk[3 - i.val]'(by show 3 - i.val < 4; omega)

/-- `RKEY Vd, ord, i` (R88). -/
def execRkey (vd : VReg) (ord : SchedOrd) (i : Fin Config.nrounds) (s : State) : Result :=
  whenReady (encode (.rkey vd ord i)) s (.next (writeV s vd (scheduleKey s.rk i ord)))

end Sys2Proof.Machine
end

