-- ==== Sys2Proof/Machine/RoundFunction.lean ====
section
/-! DEFINITION. The round function (spec/43_round_function.md): `RF`. -/

namespace Sys2Proof.Machine

/-- `F(h, k, nbits)`, for `h` and `k` of one length, at least 1: the rotated key is the first operand of `ModCombine`
and the unrotated half the second (R90). -/
def roundF (h k : Bytes) (nbits : Nat) : Bytes :=
  xorB (rol h Config.rfDrot) (invB (modCombine (ror k Config.rfKrot) h nbits))

/-- `RF Vd, Va, Vb, nbits` (R91). -/
def execRf (vd va vb : VReg) (nbits : Nat) (s : State) : Result :=
  let cw := encode (.rf vd va vb nbits)
  if (readV s va).length ≠ (readV s vb).length then raise .invalidArgument cw s
  else if (readV s va).length = 0 then raise .invalidArgument cw s
  else .next (writeV s vd (roundF (readV s va) (readV s vb) nbits))

end Sys2Proof.Machine
end

