-- ==== Sys2Proof/Machine/Network.lean ====
section
/-! DEFINITION. The Feistel networks (spec/44_feistel_network.md): `CRND`, `VRND`, `NET`. -/

namespace Sys2Proof.Machine

/-- `ClassicRound(X, k, last, nbits)`, for `len(X) = 2*len(k)`: the swap is suppressed on the last round (R95). -/
def classicRound (x k : Bytes) (last : Bool) (nbits : Nat) : Bytes :=
  let n := k.length
  let newRight := xorB (roundF (leftHalf n x) k nbits) (rightHalf n x)
  if last then leftHalf n x ++ newRight else newRight ++ leftHalf n x

/-- `ClassicNet(X, keys, nbits)`: the last round is the one with no key after it, a comparison of positions (R96). -/
def classicNet (x : Bytes) (keys : List Bytes) (nbits : Nat) : Bytes :=
  match keys with
  | [] => x
  | k :: ks => classicNet (classicRound x k ks.isEmpty nbits) ks nbits

/-- `V1Round(X, k, cdir, nbits)`, for `len(X) = 4*len(k)` (R98). -/
def v1Round (x k : Bytes) (cdir : CipherDir) (nbits : Nat) : Bytes :=
  let n := k.length
  match cdir with
  | .encrypt =>
    xorB (roundF (quarter1 n x) k nbits) (quarter2 n x) ++ quarter3 n x ++ quarter4 n x ++ quarter1 n x
  | .decrypt =>
    quarter4 n x ++ xorB (roundF (quarter4 n x) k nbits) (quarter1 n x) ++ quarter2 n x ++ quarter3 n x

/-- `V1Net(X, keys, cdir, nbits)` (R99). -/
def v1Net (x : Bytes) (keys : List Bytes) (cdir : CipherDir) (nbits : Nat) : Bytes :=
  match keys with
  | [] => x
  | k :: ks => v1Net (v1Round x k cdir nbits) ks cdir nbits

/-- `Net(ft, X, keys, cdir, nbits)`: Classic ignores the direction flag (R101). -/
def netOf (ft : FType) (x : Bytes) (keys : List Bytes) (cdir : CipherDir) (nbits : Nat) : Bytes :=
  match ft with
  | .classic => classicNet x keys nbits
  | .variant1 => v1Net x keys cdir nbits

/-- `CRND Vd, Va, Vb, last` (R97); `nbits` is the bit length of the block (R105). -/
def execCrnd (vd va vb : VReg) (last : Bool) (s : State) : Result :=
  let k := readV s vb
  let x := readV s va
  if k.length = 0 ∨ x.length ≠ 2 * k.length then raise .invalidArgument (encode (.crnd vd va vb last)) s
  else .next (writeV s vd (classicRound x k last (8 * x.length)))

/-- `VRND Vd, Va, Vb, cdir` (R100); `nbits` is the bit length of the block (R105). -/
def execVrnd (vd va vb : VReg) (cdir : CipherDir) (s : State) : Result :=
  let k := readV s vb
  let x := readV s va
  if k.length = 0 ∨ x.length ≠ 4 * k.length then raise .invalidArgument (encode (.vrnd vd va vb cdir)) s
  else .next (writeV s vd (v1Round x k cdir (8 * x.length)))

/-- `NET Vd, Va, cdir, ord` (R102). -/
def execNet (vd va : VReg) (cdir : CipherDir) (ord : SchedOrd) (s : State) : Result :=
  let cw := encode (.net vd va cdir ord)
  let x := readV s va
  whenReady cw s
    (if x.length ≠ blockBytes s.cfg then raise .invalidArgument cw s
    else .next (writeV s vd (netOf s.cfg.ftype x (scheduleOf s.rk ord) cdir (blockBits s.cfg))))

end Sys2Proof.Machine
end

