-- ==== Sys2Proof/Machine/ModeWrapper.lean ====
section
/-! DEFINITION. The mode wrapper (spec/45_mode_wrapper.md): `IVSET`, `IVGET`, `MSTART`, `BLK`, `MSG`. -/

namespace Sys2Proof.Machine

/-- The order `Sched(mode, cdir)` takes the round keys in (R110). -/
def schedOrder (mode : Mode) (cdir : CipherDir) : SchedOrd :=
  match mode, cdir with
  | .cfb, _ => .forward
  | .none, .encrypt => .forward
  | .cbc, .encrypt => .forward
  | .none, .decrypt => .reverse
  | .cbc, .decrypt => .reverse

/-- The network of a configured engine, keys in the given order (R101, R102). -/
def engineNet (cfg : Cfg) (rk : Vector Bytes Config.nrounds) (x : Bytes) (ord : SchedOrd) (cdir : CipherDir) : Bytes :=
  netOf cfg.ftype x (scheduleOf rk ord) cdir (blockBits cfg)

/-- `BlockStep(X, cdir, ivr)`: the output block and the next running IV (R112, R113, R114). -/
def blockStep (cfg : Cfg) (rk : Vector Bytes Config.nrounds) (x : Bytes) (cdir : CipherDir) (ivr : Bytes) :
    Bytes × Bytes :=
  match cfg.mode, cdir with
  | .none, _ => (engineNet cfg rk x (schedOrder .none cdir) cdir, ivr)
  | .cbc, .encrypt =>
    let y := engineNet cfg rk (xorB x ivr) (schedOrder .cbc .encrypt) .encrypt
    (y, y)
  | .cbc, .decrypt => (xorB (engineNet cfg rk x (schedOrder .cbc .decrypt) .decrypt) ivr, x)
  | .cfb, .encrypt =>
    let y := xorB (engineNet cfg rk ivr (schedOrder .cfb .encrypt) .encrypt) x
    (y, y)
  | .cfb, .decrypt => (xorB (engineNet cfg rk ivr (schedOrder .cfb .decrypt) .encrypt) x, x)

/-- `Pad(n, B)`: the least multiple of `B` that is at least `n`, for `B ≥ 1` (R116; for `B = 0`, log entry 11). -/
def padLen (n b : Nat) : Nat := b * ((n + b - 1) / b)

/-- The text right-padded with null bytes (R116). -/
def padText (t : Bytes) (b : Nat) : Bytes := t ++ zeros (padLen t.length b - t.length)

/-- `TrimLen(s)`: the length without the trailing null bytes (R117). -/
def trimLen (s : Bytes) : Nat := (s.reverse.dropWhile (fun b => b == 0)).length

/-- The first `nb` blocks of `b` bytes of a padded text (R35, R118). -/
def blocksOf (b : Nat) : Nat → Bytes → List Bytes
  | 0, _ => []
  | nb + 1, x => x.take b :: blocksOf b nb (x.drop b)

/-- The block loop of `Message`: the output blocks and the running IV after the last (R118). -/
def chain (cfg : Cfg) (rk : Vector Bytes Config.nrounds) (cdir : CipherDir) : List Bytes → Bytes → List Bytes × Bytes
  | [], ivr => ([], ivr)
  | x :: xs, ivr =>
    let r := blockStep cfg rk x cdir ivr
    let rest := chain cfg rk cdir xs r.2
    (r.1 :: rest.1, rest.2)

/-- `Message(t, cdir, iv0)`: the output bytes, the reported length and the running IV (R118). -/
def message (cfg : Cfg) (rk : Vector Bytes Config.nrounds) (t : Bytes) (cdir : CipherDir) (iv0 : Bytes) :
    Bytes × Nat × Bytes :=
  let b := blockBytes cfg
  let p := padLen t.length b
  let r := chain cfg rk cdir (blocksOf b (p / b) (padText t b)) iv0
  let out := r.1.flatten
  let m :=
    match cdir with
    | .encrypt => p
    | .decrypt => trimLen out
  (out, m, r.2)

/-- `IVSET Va` (R119). -/
def execIvset (va : VReg) (s : State) : Result :=
  let cw := encode (.ivset va)
  whenReady cw s
    (if s.cfg.mode = .none then raise .badState cw s
    else if (readV s va).length ≠ blockBytes s.cfg then raise .invalidArgument cw s
    else .next { s with iv0 := readV s va, ivr := readV s va })

/-- `IVGET Vd, sel` (R120). -/
def execIvget (vd : VReg) (sel : IvSel) (s : State) : Result :=
  let cw := encode (.ivget vd sel)
  whenReady cw s
    (if (ivOf s sel).length > Config.vmax then raise .invalidArgument cw s
    else .next (writeV s vd (ivOf s sel)))

/-- `MSTART` (R121). -/
def execMstart (s : State) : Result := whenReady (encode .mstart) s (.next { s with ivr := s.iv0 })

/-- `BLK Vd, Va, cdir` (R122). -/
def execBlk (vd va : VReg) (cdir : CipherDir) (s : State) : Result :=
  let cw := encode (.blk vd va cdir)
  let x := readV s va
  whenReady cw s
    (if x.length ≠ blockBytes s.cfg then raise .invalidArgument cw s
    else if s.cfg.mode ≠ .none ∧ s.ivr.length ≠ blockBytes s.cfg then raise .invalidArgument cw s
    else
      let r := blockStep s.cfg s.rk x cdir s.ivr
      .next { writeV s vd r.1 with ivr := r.2 })

/-- `MSG cdir` (R123). -/
def execMsg (cdir : CipherDir) (s : State) : Result :=
  let cw := encode (.msg cdir)
  let n := s.mlen.toNat
  let p := padLen n (blockBytes s.cfg)
  whenReady cw s
    (if p > Config.msize then raise .memRange cw s
    else if p > 0 ∧ s.cfg.mode ≠ .none ∧ s.iv0.length ≠ blockBytes s.cfg then raise .invalidArgument cw s
    else
      let r := message s.cfg s.rk (memRead s 0 n) cdir s.iv0
      .next { memWrite s 0 r.1 with ivr := r.2.2, mlen := BitVec.ofNat 13 r.2.1 })

end Sys2Proof.Machine
end

