-- ==== Sys2Proof/Machine/DataSystem.lean ====
section
/-! DEFINITION. Data movement and system commands (spec/46_data_and_system.md): `MOV`, `LDV`, `STV`, `SETMLEN`, `NOP`,
`CLRERR`, `SRST`. -/

namespace Sys2Proof.Machine

/-- `MOV Vd, Va` (R130). -/
def execMov (vd va : VReg) (s : State) : Result := .next (writeV s vd (readV s va))

/-- `LDV Vd, addr, len` (R131). -/
def execLdv (vr : VReg) (addr len : Nat) (s : State) : Result :=
  if addr + len > Config.msize then raise .memRange (encode (.ldv vr addr len)) s
  else .next (writeV s vr (memRead s addr len))

/-- `STV Vr, addr` (R132). -/
def execStv (vr : VReg) (addr : Nat) (s : State) : Result :=
  if addr + (readV s vr).length > Config.msize then raise .memRange (encode (.stv vr addr)) s
  else .next (memWrite s addr (readV s vr))

/-- `SETMLEN n` (R134). -/
def execSetmlen (n : Nat) (s : State) : Result :=
  if n > Config.msize then raise .memRange (encode (.setmlen n)) s
  else .next { s with mlen := BitVec.ofNat 13 n }

/-- `NOP` (R133). -/
def execNop (s : State) : Result := .next s

/-- `CLRERR` (R135). -/
def execClrerr (s : State) : Result := .next (clearError s)

/-- `SRST` (R136). -/
def execSrst (s : State) : Result := .next (resetRegisters s)

end Sys2Proof.Machine
end

