-- ==== Sys2Proof/Machine/Dispatch.lean ====
section
/-! DEFINITION. One arm per command: the meaning of each, executed by an engine that is not faulted and has decoded the
word (steps 3 to 5 of R55; DEDUCED, log entry 8). -/

namespace Sys2Proof.Machine

def exec (i : Instr) (s : State) : Host.Outcome State Fault Refusal :=
  match i with
  | .nop => Sys2Proof.Machine.execNop s
  | .clrerr => Sys2Proof.Machine.execClrerr s
  | .srst => Sys2Proof.Machine.execSrst s
  | .mov vd va => Sys2Proof.Machine.execMov vd va s
  | .ldv vr addr len => Sys2Proof.Machine.execLdv vr addr len s
  | .stv vr addr => Sys2Proof.Machine.execStv vr addr s
  | .setmlen n => Sys2Proof.Machine.execSetmlen n s
  | .getbit va pos idx => Sys2Proof.Machine.execGetbit va pos idx s
  | .setbit vd pos idx b => Sys2Proof.Machine.execSetbit vd pos idx b s
  | .lsh vd va sdir => Sys2Proof.Machine.execLsh vd va sdir s
  | .rot vd va sdir count => Sys2Proof.Machine.execRot vd va sdir count s
  | .xor vd va vb => Sys2Proof.Machine.execXor vd va vb s
  | .inv vd va => Sys2Proof.Machine.execInv vd va s
  | .madd vd va vb nbits => Sys2Proof.Machine.execMadd vd va vb nbits s
  | .initr klen ftype mode => Sys2Proof.Machine.execInitr klen ftype mode s
  | .initk va ftype mode => Sys2Proof.Machine.execInitk va ftype mode s
  | .rkey vd ord j => Sys2Proof.Machine.execRkey vd ord j s
  | .rf vd va vb nbits => Sys2Proof.Machine.execRf vd va vb nbits s
  | .crnd vd va vb last => Sys2Proof.Machine.execCrnd vd va vb last s
  | .vrnd vd va vb cdir => Sys2Proof.Machine.execVrnd vd va vb cdir s
  | .net vd va cdir ord => Sys2Proof.Machine.execNet vd va cdir ord s
  | .ivset va => Sys2Proof.Machine.execIvset va s
  | .ivget vd sel => Sys2Proof.Machine.execIvget vd sel s
  | .mstart => Sys2Proof.Machine.execMstart s
  | .blk vd va cdir => Sys2Proof.Machine.execBlk vd va cdir s
  | .msg cdir => Sys2Proof.Machine.execMsg cdir s

end Sys2Proof.Machine
end

