-- ==== Sys2Proof/Machine/HostWindow.lean ====
section
/-! DEFINITION. The command port and the host window (spec/20_memory.md R41, spec/30_encoding.md R55): what a written
command word does, and what each host event does. -/

namespace Sys2Proof.Machine

/-- The well-formed `CLRERR`, one of the two words a faulted engine executes (R55, R145). -/
def clrerrWord : Word := 0x01000000

/-- The well-formed `SRST`, the other one (R55, R145). -/
def srstWord : Word := 0x02000000

/-- The step of the engine on a command word written to `CMD` (R55). -/
def runCommand (cw : Word) (s : State) : Result :=
  match s.err with
  | some _ =>
    if cw = clrerrWord then exec .clrerr s
    else if cw = srstWord then exec .srst s
    else .next s
  | none =>
    match decode cw with
    | none => raise .illegalCommand cw s
    | some i => exec i s

/-- The rows of the window table (R41). -/
inductive WindowRow where
  | cmd
  | status
  | ecw
  | mem (a : Nat)
  | reserved
deriving DecidableEq, Repr

/-- The row an offset of the window falls in, by the offset alone (R41; DEDUCED, log entry 6). -/
def windowRow (offset : BitVec 13) : WindowRow :=
  if offset = 0x0000 then .cmd
  else if offset = 0x0004 then .status
  else if offset = 0x0008 then .ecw
  else if 0x1000 ≤ offset.toNat ∧ offset.toNat - 0x1000 < Config.msize then .mem (offset.toNat - 0x1000)
  else .reserved

/-- A host read returns a value and has no other effect (R25, R41). -/
def answer (x : Word) (s : State) : Result := .next { s with answers := x :: s.answers }

/-- A 32-bit host write (R41). -/
def hostWrite32 (offset : BitVec 13) (data : Word) (s : State) : Result :=
  match windowRow offset with
  | .cmd => runCommand data s
  | .status => .next s
  | .ecw => .next s
  | .mem _ => .refused .hostAccessWidth
  | .reserved => .next s

/-- A 32-bit host read (R41). -/
def hostRead32 (offset : BitVec 13) (s : State) : Result :=
  match windowRow offset with
  | .cmd => answer 0 s
  | .status => answer (statusWord s) s
  | .ecw => answer s.ecw s
  | .mem _ => .refused .hostAccessWidth
  | .reserved => answer 0 s

/-- An 8-bit host write (R41). -/
def hostWrite8 (offset : BitVec 13) (data : Byte) (s : State) : Result :=
  match windowRow offset with
  | .cmd => .refused .hostAccessWidth
  | .status => .refused .hostAccessWidth
  | .ecw => .refused .hostAccessWidth
  | .mem a => .next (memWrite s a [data])
  | .reserved => .next s

/-- An 8-bit host read; the byte is the low byte of the answer (R41; DESIGN CHOICE, log entry 5). -/
def hostRead8 (offset : BitVec 13) (s : State) : Result :=
  match windowRow offset with
  | .cmd => .refused .hostAccessWidth
  | .status => .refused .hostAccessWidth
  | .ecw => .refused .hostAccessWidth
  | .mem a => answer ((memByte s a).setWidth 32) s
  | .reserved => answer 0 s

/-- What one host event does (R41, R160, R172). -/
def hostEvent (e : HostEvent) (s : State) : Result :=
  match e with
  | .hardReset => .next (hardReset s)
  | .write32 offset data => hostWrite32 offset data s
  | .read32 offset => hostRead32 offset s
  | .write8 offset data => hostWrite8 offset data s
  | .read8 offset => hostRead8 offset s

/-- The next host event is taken off the list and performed; with none pending nothing happens (R40, R144, R174;
DESIGN CHOICE, log entry 4). -/
def nextEvent (s : State) : Result :=
  match s.pending with
  | [] => .next s
  | e :: rest => hostEvent e { s with pending := rest }

/-- A 32-bit write of `cw` to `CMD`, the next thing the host does (R41). -/
def issueNext (cw : Word) (s : State) : State := { s with pending := .write32 0 cw :: s.pending }

end Sys2Proof.Machine
end

