-- ==== Sys2Proof/Machine/Step.lean ====
section
/-! DEFINITION. One step: one host event, whole (R40). There is no program counter and no fetch (R13, R44): the next
command is the next word the host writes to `CMD`. -/

namespace Sys2Proof.Machine

/-- One step of the machine: the next host event (R40, R55). -/
def step (s : State) : Host.Outcome State Fault Refusal := nextEvent s

/-- `s` with the instruction of `nbits` bits as the next word the host writes to `CMD` (log entry 4). -/
def State.withFetchWord (s : State) (nbits w : Nat) : State := issueNext (BitVec.ofNat 32 (w % 2 ^ nbits)) s

end Sys2Proof.Machine
end

