-- ==== Sys2Proof/Safety.lean ====
section
/-! DEFINITION. What claims speak of: the parts of the state one by one (for frames), the invariant of R28, a launch
and a run (R173, R174), and a run of the engine's own commands. -/

namespace Sys2Proof.Machine

/-- The parts of the state, one by one: R10's list, with each register of `V` and each byte of `MEM` a part of its
own, then the host's side and the counters of the free values. -/
inductive Part where
  | v (r : VReg)
  | t
  | cfg
  | key
  | rk
  | iv0
  | ivr
  | err
  | ecw
  | mlen
  | mem (a : Nat)
  | pending
  | answers
  | launch
  | draws
deriving DecidableEq, Repr

/-- The part has the same value in both states; a byte of `MEM` is compared as it reads. -/
def Part.same (p : Part) (s u : State) : Prop :=
  match p with
  | .v r => readV u r = readV s r
  | .t => u.t = s.t
  | .cfg => u.cfg = s.cfg
  | .key => u.key = s.key
  | .rk => u.rk = s.rk
  | .iv0 => u.iv0 = s.iv0
  | .ivr => u.ivr = s.ivr
  | .err => u.err = s.err
  | .ecw => u.ecw = s.ecw
  | .mlen => u.mlen = s.mlen
  | .mem a => memByte u a = memByte s a
  | .pending => u.pending = s.pending
  | .answers => u.answers = s.answers
  | .launch => u.launch = s.launch
  | .draws => u.draws = s.draws

/-- Every part that is not among `changed` has the same value in both states. -/
def sameBut (changed : Part → Prop) (s u : State) : Prop := ∀ p, ¬ changed p → p.same s u

/-- `s` after the command `i` raised `k`: `ERR` and `ECW` written and nothing else (R141). -/
def raisedState (k : ErrKind) (i : Instr) (s : State) : State := { s with err := some k, ecw := encode i }

/-- Byte `j` of a sequence as an integer; claims use it for `j` inside the sequence only (R6). -/
def byteNat (x : Bytes) (j : Nat) : Nat := (x.getD j 0).toNat

/-- The four round keys in forward order, and in reverse order (R81). -/
def forwardKeys (s : State) : List Bytes := [s.rk[0], s.rk[1], s.rk[2], s.rk[3]]
def reverseKeys (s : State) : List Bytes := [s.rk[3], s.rk[2], s.rk[1], s.rk[0]]

/-- A message processed block by block through register `v`: `MSTART`, then each block loaded, stepped and stored in
ascending order (R124). -/
def blkProgram (v : VReg) (b nb : Nat) (d : CipherDir) : List Instr :=
  .mstart :: (List.range nb).flatMap (fun j => [.ldv v (j * b) b, .blk v v d, .stv v (j * b)])

/-- The invariants (a) to (g) of R28, and the canonical form of the memory. -/
structure Inv (s : State) : Prop where
  /-- R28 (a) -/
  unconstructed : s.cfg.ready = false →
    s.cfg = Cfg.reset ∧ s.key = [] ∧ (∀ i : Fin Config.nrounds, s.rk[i.val] = []) ∧ s.iv0 = [] ∧ s.ivr = []
  /-- R28 (b), the key -/
  keyLength : s.cfg.ready = true →
    s.key.length = s.cfg.klen.toNat ∧ s.cfg.klen.toNat % 2 = 0 ∧ 2 ≤ s.cfg.klen.toNat
      ∧ s.cfg.klen.toNat ≤ Config.kmax
  /-- R28 (b), the round keys -/
  schedule : s.cfg.ready = true → ∀ i : Fin Config.nrounds, s.rk[i.val] = ror s.key (7 * i.val)
  /-- R28 (c) -/
  ivLength :
    match s.cfg.mode with
    | .none => s.iv0.length = 0
    | .cbc => s.iv0.length = blockBytes s.cfg
    | .cfb => s.iv0.length = blockBytes s.cfg ∨ s.iv0.length = 4 * blockBytes s.cfg
  /-- R28 (d) -/
  runningIv : s.ivr.length = s.iv0.length
  /-- R28 (e) -/
  messageLength : s.mlen.toNat ≤ Config.msize
  /-- R28 (f) -/
  registerLength : ∀ r, (readV s r).length ≤ Config.vmax
  /-- R28 (g) -/
  errorWord : s.err = none → s.ecw = 0
  /-- The canonical form of the memory list. -/
  memory : s.mem.wf

/-- A launch: the engine after hard reset and the host's events (R173). -/
def launchWith (events : List HostEvent) : State := { State.reset with pending := events }

/-- The run has ended: the host's list is exhausted (R174). -/
def RunEnded (s : State) : Prop := s.pending = []

/-- No error is latched: what a claim about a run asks of its end (R145, R174). -/
def Clean (s : State) : Prop := s.err = none

/-- The host events in turn, each whole, stopping where one has no meaning (R40, R173). -/
def runEvents : List HostEvent → State → Result
  | [], s => .next s
  | e :: es, s =>
    match hostEvent e s with
    | .next u => runEvents es u
    | .fault r => .fault r
    | .refused r => .refused r

/-- Commands executed one after another. -/
def runInstrs : List Instr → State → Result
  | [], s => .next s
  | i :: is, s =>
    match exec i s with
    | .next u => runInstrs is u
    | .fault r => .fault r
    | .refused r => .refused r

/-! The fields of every command's word, from the table of R52 with the formats of R46 to R50. -/

/-- A field of a word by its high bit and its low bit, and the value it has. -/
abbrev WordField := Nat × Nat × Nat

/-- Every field of a command's word, from bit 31 down to bit 0: opcode, operands, and the must-be-zero fields (R52). -/
def wordFields : Instr → List WordField
  | .nop => [(31, 24, 0x00), (23, 20, 0), (19, 16, 0), (15, 0, 0)]
  | .clrerr => [(31, 24, 0x01), (23, 20, 0), (19, 16, 0), (15, 0, 0)]
  | .srst => [(31, 24, 0x02), (23, 20, 0), (19, 16, 0), (15, 0, 0)]
  | .mov vd va => [(31, 24, 0x08), (23, 20, vd.val), (19, 16, va.val), (15, 0, 0)]
  | .ldv vr addr len => [(31, 24, 0x09), (23, 20, vr.val), (19, 12, len), (11, 0, addr)]
  | .stv vr addr => [(31, 24, 0x0A), (23, 20, vr.val), (19, 12, 0), (11, 0, addr)]
  | .setmlen n => [(31, 24, 0x0B), (23, 20, 0), (19, 16, 0), (15, 13, 0), (12, 0, n)]
  | .getbit va pos idx =>
    [(31, 24, 0x10), (23, 20, 0), (19, 16, va.val), (15, 8, pos), (7, 4, idx), (3, 1, 0), (0, 0, 0)]
  | .setbit vd pos idx b =>
    [(31, 24, 0x11), (23, 20, vd.val), (19, 16, 0), (15, 8, pos), (7, 4, idx), (3, 1, 0), (0, 0, flagCode b)]
  | .lsh vd va sdir => [(31, 24, 0x12), (23, 20, vd.val), (19, 16, va.val), (15, 15, sdir.code), (14, 0, 0)]
  | .rot vd va sdir count => [(31, 24, 0x13), (23, 20, vd.val), (19, 16, va.val), (15, 15, sdir.code), (14, 0, count)]
  | .xor vd va vb => [(31, 24, 0x18), (23, 20, vd.val), (19, 16, va.val), (15, 12, vb.val), (11, 0, 0)]
  | .inv vd va => [(31, 24, 0x19), (23, 20, vd.val), (19, 16, va.val), (15, 12, 0), (11, 0, 0)]
  | .madd vd va vb nbits => [(31, 24, 0x1A), (23, 20, vd.val), (19, 16, va.val), (15, 12, vb.val), (11, 0, nbits)]
  | .initr klen ftype mode =>
    [(31, 24, 0x20), (23, 20, 0), (19, 16, 0), (15, 8, klen), (7, 3, 0), (2, 2, ftype.code), (1, 0, mode.code)]
  | .initk va ftype mode =>
    [(31, 24, 0x21), (23, 20, 0), (19, 16, va.val), (15, 3, 0), (2, 2, ftype.code), (1, 0, mode.code)]
  | .rkey vd ord i => [(31, 24, 0x22), (23, 20, vd.val), (19, 16, 0), (15, 3, 0), (2, 2, ord.code), (1, 0, i.val)]
  | .rf vd va vb nbits => [(31, 24, 0x28), (23, 20, vd.val), (19, 16, va.val), (15, 12, vb.val), (11, 0, nbits)]
  | .crnd vd va vb last =>
    [(31, 24, 0x30), (23, 20, vd.val), (19, 16, va.val), (15, 12, vb.val), (11, 1, 0), (0, 0, flagCode last)]
  | .vrnd vd va vb cdir =>
    [(31, 24, 0x31), (23, 20, vd.val), (19, 16, va.val), (15, 12, vb.val), (11, 1, 0), (0, 0, cdir.code)]
  | .net vd va cdir ord =>
    [(31, 24, 0x32), (23, 20, vd.val), (19, 16, va.val), (15, 2, 0), (1, 1, ord.code), (0, 0, cdir.code)]
  | .ivset va => [(31, 24, 0x38), (23, 20, 0), (19, 16, va.val), (15, 0, 0)]
  | .ivget vd sel => [(31, 24, 0x39), (23, 20, vd.val), (19, 16, 0), (15, 1, 0), (0, 0, sel.code)]
  | .mstart => [(31, 24, 0x3A), (23, 20, 0), (19, 16, 0), (15, 0, 0)]
  | .blk vd va cdir => [(31, 24, 0x3B), (23, 20, vd.val), (19, 16, va.val), (15, 1, 0), (0, 0, cdir.code)]
  | .msg cdir => [(31, 24, 0x3C), (23, 20, 0), (19, 16, 0), (15, 1, 0), (0, 0, cdir.code)]

/-- The word has every field of the command at its value. -/
def HasFields (w : Word) (i : Instr) : Prop := ∀ f ∈ wordFields i, field w f.1 f.2.1 = f.2.2

/-! Which error each command raises, from the tables of R142 and R143, in the priority of R146. -/

/-- Step 3 of R55: the commands that need a constructed engine. -/
def needsReady : Instr → Bool
  | .rkey _ _ _ | .net _ _ _ _ | .ivset _ | .ivget _ _ | .mstart | .blk _ _ _ | .msg _ => true
  | .nop | .clrerr | .srst | .mov _ _ | .ldv _ _ _ | .stv _ _ | .setmlen _ | .getbit _ _ _ | .setbit _ _ _ _
  | .lsh _ _ _ | .rot _ _ _ _ | .xor _ _ _ | .inv _ _ | .madd _ _ _ _ | .initr _ _ _ | .initk _ _ _
  | .rf _ _ _ _ | .crnd _ _ _ _ | .vrnd _ _ _ _ => false

/-- Step 3 of R55: the commands that need an unconstructed engine. -/
def needsUnready : Instr → Bool
  | .initr _ _ _ | .initk _ _ _ => true
  | .nop | .clrerr | .srst | .mov _ _ | .ldv _ _ _ | .stv _ _ | .setmlen _ | .getbit _ _ _ | .setbit _ _ _ _
  | .lsh _ _ _ | .rot _ _ _ _ | .xor _ _ _ | .inv _ _ | .madd _ _ _ _ | .rkey _ _ _ | .rf _ _ _ _
  | .crnd _ _ _ _ | .vrnd _ _ _ _ | .net _ _ _ _ | .ivset _ | .ivget _ _ | .mstart | .blk _ _ _ | .msg _ => false

/-- A key length that `INITR` and `INITK` reject: odd, 0 or above `KMAX` (R142). -/
def keyLenRejected (n : Nat) : Prop := n % 2 = 1 ∨ n = 0 ∨ n > Config.kmax

/-- The command's own checks in the order its rule writes them: a condition and the kind it raises (R142, R143). -/
def ownChecks (s : State) : Instr → List (Prop × ErrKind)
  | .nop | .clrerr | .srst | .mov _ _ | .lsh _ _ _ | .inv _ _ | .rkey _ _ _ | .mstart => []
  | .ldv _ addr len => [(addr + len > Config.msize, .memRange)]
  | .stv vr addr => [(addr + (readV s vr).length > Config.msize, .memRange)]
  | .setmlen n => [(n > Config.msize, .memRange)]
  | .getbit va pos idx => [(idx ≥ 8, .indexOutOfRange), (pos ≥ (readV s va).length, .invalidArgument)]
  | .setbit vd pos idx _ => [(idx ≥ 8, .indexOutOfRange), (pos ≥ (readV s vd).length, .invalidArgument)]
  | .rot _ va _ _ => [((readV s va).length = 0, .invalidArgument)]
  | .xor _ va vb => [((readV s va).length ≠ (readV s vb).length, .invalidArgument)]
  | .madd _ va vb _ => [((readV s va).length ≠ (readV s vb).length, .invalidArgument)]
  | .initr klen _ mode => [(mode = .unrecognised, .invalidConfiguration), (keyLenRejected klen, .invalidKey)]
  | .initk va _ mode =>
    [(mode = .unrecognised, .invalidConfiguration), (keyLenRejected (readV s va).length, .invalidKey)]
  | .rf _ va vb _ =>
    [((readV s va).length ≠ (readV s vb).length, .invalidArgument), ((readV s va).length = 0, .invalidArgument)]
  | .crnd _ va vb _ =>
    [((readV s vb).length = 0 ∨ (readV s va).length ≠ 2 * (readV s vb).length, .invalidArgument)]
  | .vrnd _ va vb _ =>
    [((readV s vb).length = 0 ∨ (readV s va).length ≠ 4 * (readV s vb).length, .invalidArgument)]
  | .net _ va _ _ => [((readV s va).length ≠ blockBytes s.cfg, .invalidArgument)]
  | .ivset va => [(s.cfg.mode = .none, .badState), ((readV s va).length ≠ blockBytes s.cfg, .invalidArgument)]
  | .ivget _ .iv0 => [(s.iv0.length > Config.vmax, .invalidArgument)]
  | .ivget _ .ivr => [(s.ivr.length > Config.vmax, .invalidArgument)]
  | .blk _ va _ =>
    [((readV s va).length ≠ blockBytes s.cfg, .invalidArgument)]
      ++ [(s.cfg.mode ≠ .none ∧ s.ivr.length ≠ blockBytes s.cfg, .invalidArgument)]
  | .msg _ =>
    [(padLen s.mlen.toNat (blockBytes s.cfg) > Config.msize, .memRange)]
      ++ [(padLen s.mlen.toNat (blockBytes s.cfg) > 0 ∧ s.cfg.mode ≠ .none ∧ s.iv0.length ≠ blockBytes s.cfg,
            .invalidArgument)]

/-- All the checks of a command, highest priority first (R55, R146). -/
def checksOf (i : Instr) (s : State) : List (Prop × ErrKind) :=
  (needsReady i = true ∧ s.cfg.ready = false, .badState)
    :: (needsUnready i = true ∧ s.cfg.ready = true, .badState) :: ownChecks s i

/-- The first failing check of a list raises `k`: every check before it passes (R146). -/
def FirstFails : List (Prop × ErrKind) → ErrKind → Prop
  | [], _ => False
  | (c, j) :: rest, k => (c ∧ j = k) ∨ (¬ c ∧ FirstFails rest k)

/-- Every check of a list passes. -/
def AllPass (l : List (Prop × ErrKind)) : Prop := ∀ c ∈ l, ¬ c.1

/-! What each command may write when it does not raise, from the "Access" lists of 10_state.md and the command rules. -/

/-- The parts a command writes when it completes. -/
def writesOf (s : State) : Instr → Part → Prop
  | .nop, _ => False
  | .clrerr, p => p = .err ∨ p = .ecw
  | .srst, p =>
    (∃ r, p = .v r) ∨ p = .t ∨ p = .cfg ∨ p = .key ∨ p = .rk ∨ p = .iv0 ∨ p = .ivr ∨ p = .err ∨ p = .ecw
      ∨ p = .mlen
  | .mov vd _, p | .ldv vd _ _, p | .setbit vd _ _ _, p | .lsh vd _ _, p | .rot vd _ _ _, p | .xor vd _ _, p
  | .inv vd _, p | .madd vd _ _ _, p | .rkey vd _ _, p | .rf vd _ _ _, p | .crnd vd _ _ _, p | .vrnd vd _ _ _, p
  | .net vd _ _ _, p | .ivget vd _, p => p = .v vd
  | .stv vr addr, p => ∃ j, j < (readV s vr).length ∧ p = .mem (addr + j)
  | .setmlen _, p => p = .mlen
  | .getbit _ _ _, p => p = .t
  | .initr _ _ _, p | .initk _ _ _, p =>
    p = .cfg ∨ p = .key ∨ p = .rk ∨ p = .iv0 ∨ p = .ivr ∨ p = .draws
  | .ivset _, p => p = .iv0 ∨ p = .ivr
  | .mstart, p => p = .ivr
  | .blk vd _ _, p => p = .v vd ∨ p = .ivr
  | .msg _, p => (∃ a, a < padLen s.mlen.toNat (blockBytes s.cfg) ∧ p = .mem a) ∨ p = .ivr ∨ p = .mlen

/-! The host window. -/

/-- The access has a width that the window table lists for its offset (R41, 93 U11). -/
def listedAccess : HostEvent → Bool
  | .hardReset => true
  | .write32 o _ | .read32 o =>
    match windowRow o with
    | .mem _ => false
    | .cmd | .status | .ecw | .reserved => true
  | .write8 o _ | .read8 o =>
    match windowRow o with
    | .cmd | .status | .ecw => false
    | .mem _ | .reserved => true

end Sys2Proof.Machine
end

