-- ==== Sys2Proof/Certificates/Slice0/Obligations.lean ====
section
/-! DEFINITION. The statements for the provers. -/

open Sys2Proof Sys2Proof.Machine

/-! Encoding (30_encoding.md). -/

/-- Decoding the word of a well-formed command gives it back, for all 26 commands and every operand value (R52). -/
def Obligations.DecodeInvertsEncode : Prop :=
  ∀ i : Instr, wellFormed i = true → decode (encode i) = some i

/-- A word that decodes to a command is that command's one word, and the command is well formed (R52, R53). -/
def Obligations.EncodeInvertsDecode : Prop :=
  ∀ (w : Word) (i : Instr), decode w = some i → wellFormed i = true ∧ encode i = w

/-- R53: a word decodes to a command of a row if and only if `cw & mask == match` for that row; every command decoded
belongs to a row of the table; no two rows share an opcode; there are 26. -/
def Obligations.DecodeAcceptsExactlyTheTableRows : Prop :=
  (∀ row ∈ opcodeTable, ∀ w : Word, (∃ i, decode w = some i ∧ tableRow i = row) ↔ w &&& row.mask = row.fixed)
    ∧ (∀ (w : Word) (i : Instr), decode w = some i → tableRow i ∈ opcodeTable)
    ∧ (opcodeTable.map (fun row => field row.fixed 31 24)).Nodup ∧ opcodeTable.length = 26

/-- R51, R52 (with the formats R46 to R50): a word decodes to a command if and only if its fields are those of the
command's line of the table, every bit of the word being in one of them; the enumerations have the codes of R51. -/
def Obligations.DecodeReadsTheFieldsOfTheTable : Prop :=
  (∀ (w : Word) (i : Instr), decode w = some i ↔ HasFields w i)
    ∧ ShiftDir.left.code = 0 ∧ ShiftDir.right.code = 1 ∧ CipherDir.encrypt.code = 0 ∧ CipherDir.decrypt.code = 1
    ∧ SchedOrd.forward.code = 0 ∧ SchedOrd.reverse.code = 1 ∧ FType.classic.code = 0 ∧ FType.variant1.code = 1
    ∧ ModeField.none.code = 0 ∧ ModeField.cbc.code = 1 ∧ ModeField.cfb.code = 2 ∧ ModeField.unrecognised.code = 3
    ∧ IvSel.iv0.code = 0 ∧ IvSel.ivr.code = 1 ∧ flagCode false = 0 ∧ flagCode true = 1

/-- R59: the worked encodings, both ways. -/
def Obligations.WorkedEncodingsOfTheSpec : Prop :=
  ∀ p ∈ ([(.rot 1 0 .right 7, 0x13108007), (.xor 3 1 2, 0x18312000), (.ldv 0 0x010 4, 0x09004010),
      (.initk 0 .classic .none, 0x21000000), (.initr 4 .variant1 .cfb, 0x20000406), (.msg .decrypt, 0x3C000001),
      (.getbit 2 1 8, 0x10020180)] : List (Instr × Word)),
    encode p.1 = p.2 ∧ decode p.2 = some p.1

/-! The step (R55) and the errors (60_exceptions.md). -/

/-- A step performs the next host event, whatever it is, and changes nothing with none pending; so an engine that is
not faulted runs the command that the next word written to `CMD` decodes to (R40, R41, R55); and
`withFetchWord` places such a word. The host's list of events and `withFetchWord` are the model's (log entry 4). -/
def Obligations.StepRunsTheDecodedCommand : Prop :=
  (∀ (s : State) (e : HostEvent) (rest : List HostEvent), s.pending = e :: rest →
      step s = hostEvent e { s with pending := rest })
    ∧ (∀ s : State, s.pending = [] → step s = .next s)
    ∧ (∀ (s : State) (cw : Word) (rest : List HostEvent) (i : Instr), s.pending = .write32 0 cw :: rest → s.err = none →
      decode cw = some i → step s = exec i { s with pending := rest })
    ∧ ∀ (s : State) (nbits w : Nat) (i : Instr), s.err = none → decodeTableWord nbits w = some i →
      step (s.withFetchWord nbits w) = exec i s

/-- R145: a faulted engine ignores every word but the well-formed `CLRERR` and `SRST`, which it executes. That the word
is the first event of a list is the model's (log entry 4). -/
def Obligations.FaultedEngineIgnoresWords : Prop :=
  ∀ (s : State) (k : ErrKind) (cw : Word) (rest : List HostEvent), s.err = some k →
    s.pending = .write32 0 cw :: rest →
    (cw ≠ 0x01000000 → cw ≠ 0x02000000 → step s = .next { s with pending := rest })
      ∧ (cw = 0x01000000 → step s = .next (clearError { s with pending := rest }))
      ∧ (cw = 0x02000000 → step s = .next (resetRegisters { s with pending := rest }))

/-- R55: every one of the 2^32 words has exactly one outcome: ignored (faulted before and after), raised (an error now
and none before, the word in `ECW`), or executed (no error after). -/
def Obligations.EveryWordHasOneOutcome : Prop :=
  ∀ (cw : Word) (s : State), ∃ t, runCommand cw s = .next t
    ∧ ((s.err ≠ none ∧ cw ≠ 0x01000000 ∧ cw ≠ 0x02000000 ∧ t = s)
      ∨ (s.err = none ∧ ∃ k, t = { s with err := some k, ecw := cw })
      ∨ (t.err = none ∧ ∃ i, decode cw = some i ∧ exec i s = .next t))

/-- R54: a word that is no instance of a row of the table raises `IllegalCommand` and changes nothing else. -/
def Obligations.WordsOutsideTheTableRaiseIllegalCommand : Prop :=
  ∀ (cw : Word) (s : State), s.err = none → (∀ row ∈ opcodeTable, cw &&& row.mask ≠ row.fixed) →
    runCommand cw s = .next { s with err := some .illegalCommand, ecw := cw }

/-- R141: a raise writes `ERR` and `ECW`, the word of the command, and nothing else; no draw is consumed. -/
def Obligations.RaisedErrorChangesOnlyErrAndEcw : Prop :=
  ∀ (cw : Word) (s t : State) (k : ErrKind), s.err = none → runCommand cw s = .next t → t.err = some k →
    t = { s with err := some k, ecw := cw }

/-- R142, R143, R146: the conditions in the order of priority: a faulted engine evaluates none; then
`IllegalCommand`; then, for every command and every state, the first of its checks that fails decides the kind raised
(`checksOf` transcribes the tables of causes, the lifecycle requirement first). -/
def Obligations.FirstFailingCheckIsRaised : Prop :=
  (∀ (cw : Word) (s : State) (k : ErrKind), s.err = some k → cw ≠ 0x01000000 → cw ≠ 0x02000000 →
      runCommand cw s = .next s)
    ∧ (∀ (cw : Word) (s : State), s.err = none → decode cw = none →
        runCommand cw s = .next { s with err := some .illegalCommand, ecw := cw })
    ∧ ∀ (i : Instr) (s : State) (k : ErrKind), FirstFails (checksOf i s) k →
        exec i s = .next (raisedState k i s) ∧ (s.err = none → wellFormed i = true →
          runCommand (encode i) s = .next { s with err := some k, ecw := encode i })

/-- Every command whose checks all pass completes, raises nothing, and writes only the parts its rule names
(R7, R55; the parts are in `writesOf`). -/
def Obligations.PassingChecksCompleteWithinTheFrame : Prop :=
  ∀ (i : Instr) (s : State), AllPass (checksOf i s) →
    ∃ t, exec i s = .next t ∧ (t.err = s.err ∨ t.err = none) ∧ sameBut (writesOf s i) s t

/-! Reset, the host window, runs. -/

/-- R29, R160: the reset table, for the state after reset, for a hard reset in any state, and for `SRST` in any state,
which leaves `MEM` as it is; neither reset draws from the random source. -/
def Obligations.ResetTable : Prop :=
  (∀ s : State, s = State.reset ∨ (∃ u, hostEvent .hardReset u = .next s) ∨ (∃ u, exec .srst u = .next s) →
      (∀ r, readV s r = []) ∧ s.t = false
        ∧ s.cfg = { ready := false, ftype := .classic, mode := .none, klen := 0 } ∧ s.key = []
        ∧ (∀ i : Fin Config.nrounds, s.rk[i.val] = []) ∧ s.iv0 = [] ∧ s.ivr = [] ∧ s.err = none ∧ s.ecw = 0
        ∧ s.mlen = 0)
    ∧ (∀ u : State, ∃ s, exec .srst u = .next s ∧ (∀ a, memByte s a = memByte u a) ∧ s.draws = u.draws)
    ∧ (∀ u : State, ∃ s, hostEvent .hardReset u = .next s ∧ s.draws = u.draws)

/-- The window table of R41, row by row; `a` is an address of `MEM`. The model's, not the spec's: that a read's value
is put on the list `answers` (log entry 5), and that offsets 1 to 3, 5 to 7 and 9 to 0xFFF are reserved for both widths,
reading 0 and ignoring writes (log entry 6). -/
def Obligations.HostWindowTable : Prop :=
  ∀ s : State,
    (∀ cw, hostEvent (.write32 0x0000 cw) s = runCommand cw s)
      ∧ hostEvent (.read32 0x0000) s = .next { s with answers := 0 :: s.answers }
      ∧ hostEvent (.read32 0x0004) s = .next { s with answers := statusWord s :: s.answers }
      ∧ hostEvent (.read32 0x0008) s = .next { s with answers := s.ecw :: s.answers }
      ∧ (∀ x, hostEvent (.write32 0x0004 x) s = .next s ∧ hostEvent (.write32 0x0008 x) s = .next s)
      ∧ (∀ a, a < 4096 → hostEvent (.read8 (BitVec.ofNat 13 (0x1000 + a))) s
          = .next { s with answers := (memByte s a).setWidth 32 :: s.answers })
      ∧ (∀ a x, a < 4096 → ∃ t, hostEvent (.write8 (BitVec.ofNat 13 (0x1000 + a)) x) s = .next t
          ∧ memByte t a = x ∧ sameBut (fun p => p = .mem a) s t)
      ∧ (∀ o : BitVec 13, o.toNat < 0x1000 → o ≠ 0x0000 → o ≠ 0x0004 → o ≠ 0x0008 →
          (∀ x, hostEvent (.write32 o x) s = .next s) ∧ (∀ x, hostEvent (.write8 o x) s = .next s)
            ∧ hostEvent (.read32 o) s = .next { s with answers := 0 :: s.answers }
            ∧ hostEvent (.read8 o) s = .next { s with answers := 0 :: s.answers })

/-- An access of a width the window table does not list for its offset is refused, and every other event has an
outcome (R41; that such accesses are refused is 93 U11 and log entry 6). -/
def Obligations.OnlyUnlistedWidthsAreRefused : Prop :=
  ∀ (e : HostEvent) (s : State),
    (listedAccess e = false → hostEvent e s = .refused .hostAccessWidth)
      ∧ (listedAccess e = true → ∃ t, hostEvent e s = .next t ∧ t.pending = s.pending)

/-- R25: the fields of `STATUS`, with the codes of the error kinds (R20, R140), of the topologies and of the modes
(R14); reading `STATUS` or `ECW` changes nothing but the host's answers; `STATUS` depends on nothing but the registers
it shows. -/
def Obligations.StatusShowsTheRegisters : Prop :=
  (∀ s : State,
      (s.err = none → (statusWord s).extractLsb' 0 3 = 0)
        ∧ (s.err = some .invalidKey → (statusWord s).extractLsb' 0 3 = 1)
        ∧ (s.err = some .invalidConfiguration → (statusWord s).extractLsb' 0 3 = 2)
        ∧ (s.err = some .indexOutOfRange → (statusWord s).extractLsb' 0 3 = 3)
        ∧ (s.err = some .invalidArgument → (statusWord s).extractLsb' 0 3 = 4)
        ∧ (s.err = some .illegalCommand → (statusWord s).extractLsb' 0 3 = 5)
        ∧ (s.err = some .badState → (statusWord s).extractLsb' 0 3 = 6)
        ∧ (s.err = some .memRange → (statusWord s).extractLsb' 0 3 = 7)
        ∧ (statusWord s).extractLsb' 0 3 = errCode s.err
        ∧ (statusWord s).getLsbD 3 = s.cfg.ready ∧ (statusWord s).getLsbD 4 = s.t
        ∧ (s.cfg.ftype = .classic → (statusWord s).extractLsb' 5 1 = 0)
        ∧ (s.cfg.ftype = .variant1 → (statusWord s).extractLsb' 5 1 = 1)
        ∧ (s.cfg.mode = .none → (statusWord s).extractLsb' 6 2 = 0)
        ∧ (s.cfg.mode = .cbc → (statusWord s).extractLsb' 6 2 = 1)
        ∧ (s.cfg.mode = .cfb → (statusWord s).extractLsb' 6 2 = 2)
        ∧ ((statusWord s).extractLsb' 5 1).toNat = s.cfg.ftype.code
        ∧ ((statusWord s).extractLsb' 6 2).toNat = s.cfg.mode.code
        ∧ (statusWord s).extractLsb' 8 8 = s.cfg.klen ∧ (statusWord s).extractLsb' 16 13 = s.mlen
        ∧ (statusWord s).extractLsb' 29 3 = 0
        ∧ (∀ o : BitVec 13, o = 0x0004 ∨ o = 0x0008 →
            ∃ t, hostEvent (.read32 o) s = .next t ∧ sameBut (fun p => p = .answers) s t))
    ∧ ∀ s u : State, s.err = u.err → s.cfg = u.cfg → s.t = u.t → s.mlen = u.mlen → statusWord s = statusWord u

/-- R174: a run of any finite list of host events of the listed widths ends, with the list exhausted, and the machine
then stays as it is (the last part is the model's reading, log entry 4). -/
def Obligations.EveryFiniteRunEnds : Prop :=
  ∀ (events : List HostEvent) (s : State), s.pending = events → (∀ e ∈ events, listedAccess e = true) →
    ∃ t, Host.Core.run Sys2Proof.core events.length s = .next t ∧ t.pending = [] ∧ step t = .next t

/-! System commands and data movement (46_data_and_system.md). -/

/-- R133, R135, R136: `NOP` changes nothing; `CLRERR` clears `ERR` and `ECW` and nothing else, so that it undoes a
raise, and changes nothing when there is none; `SRST` empties every register and leaves `MEM` and the host's side as
they are. `CLRERR` and `SRST` are executed whether or not the engine is faulted; a malformed `CLRERR` is ignored while
faulted and raises `IllegalCommand` otherwise. -/
def Obligations.SystemCommands : Prop :=
  ∀ s : State,
    exec .nop s = .next s ∧ runCommand 0x00000000 s = .next s
      ∧ runCommand 0x01000000 s = exec .clrerr s ∧ runCommand 0x02000000 s = exec .srst s
      ∧ (∀ cw : Word, field cw 31 24 = 0x01 → cw ≠ 0x01000000 →
          (s.err ≠ none → runCommand cw s = .next s)
            ∧ (s.err = none → runCommand cw s = .next { s with err := some .illegalCommand, ecw := cw }))
      ∧ (∃ t, exec .clrerr s = .next t ∧ t.err = none ∧ t.ecw = 0
          ∧ sameBut (fun p => p = .err ∨ p = .ecw) s t)
      ∧ (s.err = none → s.ecw = 0 → exec .clrerr s = .next s
          ∧ ∀ (k : ErrKind) (i : Instr), exec .clrerr (raisedState k i s) = .next s)
      ∧ (∃ t, exec .srst s = .next t ∧ (∀ r, readV t r = []) ∧ t.t = false ∧ t.cfg.ready = false
          ∧ t.cfg.ftype = .classic ∧ t.cfg.mode = .none ∧ t.cfg.klen = 0 ∧ t.key = []
          ∧ (∀ i : Fin Config.nrounds, t.rk[i.val] = []) ∧ t.iv0 = [] ∧ t.ivr = [] ∧ t.err = none ∧ t.ecw = 0
          ∧ t.mlen = 0 ∧ sameBut (writesOf s .srst) s t)

/-- R130: `MOV` copies length and bytes, writes nothing else, and never raises. -/
def Obligations.MovCopiesARegister : Prop :=
  ∀ (vd va : VReg) (s : State), ∃ t, exec (.mov vd va) s = .next t ∧ readV t vd = readV s va
    ∧ sameBut (fun p => p = .v vd) s t

/-- R131: `LDV` loads `len` bytes, byte 0 from the lowest address, or raises `MemRange` past the end of `MEM`. -/
def Obligations.LdvLoadsARunOfBytes : Prop :=
  ∀ (vr : VReg) (addr len : Nat) (s : State),
    (addr + len > 4096 → exec (.ldv vr addr len) s = .next (raisedState .memRange (.ldv vr addr len) s))
      ∧ (addr + len ≤ 4096 → ∃ t, exec (.ldv vr addr len) s = .next t ∧ (readV t vr).length = len
          ∧ (∀ j, j < len → (readV t vr)[j]? = some (memByte s (addr + j))) ∧ sameBut (fun p => p = .v vr) s t)

/-- R132: `STV` stores the register's bytes at `addr` upward and no other byte, or raises `MemRange`. -/
def Obligations.StvStoresARunOfBytes : Prop :=
  ∀ (vr : VReg) (addr : Nat) (s : State),
    (addr + (readV s vr).length > 4096 → exec (.stv vr addr) s = .next (raisedState .memRange (.stv vr addr) s))
      ∧ (addr + (readV s vr).length ≤ 4096 → ∃ t, exec (.stv vr addr) s = .next t
          ∧ (∀ j, j < (readV s vr).length → (readV s vr)[j]? = some (memByte t (addr + j)))
          ∧ sameBut (fun p => ∃ j, j < (readV s vr).length ∧ p = .mem (addr + j)) s t)

/-- R134: `SETMLEN` sets the message length, or raises `MemRange` above `MSIZE`; it does not touch `MEM`. -/
def Obligations.SetmlenSetsTheLength : Prop :=
  ∀ (n : Nat) (s : State),
    (n > 4096 → exec (.setmlen n) s = .next (raisedState .memRange (.setmlen n) s))
      ∧ (n ≤ 4096 → ∃ t, exec (.setmlen n) s = .next t ∧ t.mlen.toNat = n ∧ sameBut (fun p => p = .mlen) s t)

/-! Bit primitives (40_bit_primitives.md). -/

/-- R60: `GETBIT` puts `floor(V[va][pos] / 2^idx) mod 2` in `T`; `idx` is tested before `pos`. -/
def Obligations.GetbitReadsOneBit : Prop :=
  ∀ (va : VReg) (pos idx : Nat) (s : State),
    (idx ≥ 8 → exec (.getbit va pos idx) s = .next (raisedState .indexOutOfRange (.getbit va pos idx) s))
      ∧ (idx < 8 → pos ≥ (readV s va).length →
          exec (.getbit va pos idx) s = .next (raisedState .invalidArgument (.getbit va pos idx) s))
      ∧ (idx < 8 → pos < (readV s va).length → ∃ t, exec (.getbit va pos idx) s = .next t
          ∧ (t.t = true ↔ byteNat (readV s va) pos / 2 ^ idx % 2 = 1) ∧ sameBut (fun p => p = .t) s t)

/-- R61: `SETBIT` replaces one bit of one byte and keeps the other seven bits, the other bytes and the length. -/
def Obligations.SetbitReplacesOneBit : Prop :=
  ∀ (vd : VReg) (pos idx : Nat) (b : Bool) (s : State),
    (idx ≥ 8 → exec (.setbit vd pos idx b) s = .next (raisedState .indexOutOfRange (.setbit vd pos idx b) s))
      ∧ (idx < 8 → pos ≥ (readV s vd).length →
          exec (.setbit vd pos idx b) s = .next (raisedState .invalidArgument (.setbit vd pos idx b) s))
      ∧ (idx < 8 → pos < (readV s vd).length → ∃ t, exec (.setbit vd pos idx b) s = .next t
          ∧ (readV t vd).length = (readV s vd).length
          ∧ (∀ j, j ≠ pos → (readV t vd)[j]? = (readV s vd)[j]?)
          ∧ ((readV t vd).getD pos 0).getLsbD idx = b
          ∧ (∀ m, m ≠ idx → ((readV t vd).getD pos 0).getLsbD m = ((readV s vd).getD pos 0).getLsbD m)
          ∧ sameBut (fun p => p = .v vd) s t)

/-- R62, R63: `LSH` shifts the whole sequence by one bit, a carry going into the neighbouring byte toward the most
significant end (Left) or away from it (Right), the vacated bit 0; it never raises and `T` keeps its value. -/
def Obligations.LshShiftsByOneBit : Prop :=
  ∀ (vd va : VReg) (s : State),
    (∃ t, exec (.lsh vd va .left) s = .next t ∧ (readV t vd).length = (readV s va).length
        ∧ intOf (readV t vd) = 2 * intOf (readV s va) % 256 ^ (readV s va).length
        ∧ (∀ j, j + 1 < (readV s va).length → byteNat (readV t vd) j
            = 2 * byteNat (readV s va) j % 256 + byteNat (readV s va) (j + 1) / 2 ^ 7 % 2)
        ∧ (∀ j, j + 1 = (readV s va).length → byteNat (readV t vd) j = 2 * byteNat (readV s va) j % 256)
        ∧ sameBut (fun p => p = .v vd) s t)
      ∧ (∃ t, exec (.lsh vd va .right) s = .next t ∧ (readV t vd).length = (readV s va).length
        ∧ intOf (readV t vd) = intOf (readV s va) / 2
        ∧ (∀ j, j + 1 < (readV s va).length → byteNat (readV t vd) (j + 1)
            = byteNat (readV s va) (j + 1) / 2 + 128 * (byteNat (readV s va) j % 2))
        ∧ (0 < (readV s va).length → byteNat (readV t vd) 0 = byteNat (readV s va) 0 / 2)
        ∧ sameBut (fun p => p = .v vd) s t)

/-- R64, R65: `ROT` is a true rotation of the whole bit string by the count reduced modulo its length, for every count;
only the empty operand raises. The integer of a left rotation is R64's formula; a right rotation moves bit `i` to
`(i + count) mod w`. -/
def Obligations.RotRotatesTheBitString : Prop :=
  ∀ (vd va : VReg) (count : Nat) (s : State),
    (∀ d, (readV s va).length = 0 →
        exec (.rot vd va d count) s = .next (raisedState .invalidArgument (.rot vd va d count) s))
      ∧ ((readV s va).length ≠ 0 → ∃ t, exec (.rot vd va .left count) s = .next t
          ∧ (readV t vd).length = (readV s va).length
          ∧ intOf (readV t vd) = intOf (readV s va) * 2 ^ (count % (8 * (readV s va).length))
                % 2 ^ (8 * (readV s va).length)
              + intOf (readV s va) / 2 ^ (8 * (readV s va).length - count % (8 * (readV s va).length))
          ∧ (∀ i, i < 8 * (readV s va).length →
              (bitsOf (readV t vd))[i]? = (bitsOf (readV s va))[(i + count) % (8 * (readV s va).length)]?)
          ∧ sameBut (fun p => p = .v vd) s t)
      ∧ ((readV s va).length ≠ 0 → ∃ t, exec (.rot vd va .right count) s = .next t
          ∧ (readV t vd).length = (readV s va).length
          ∧ (∀ i, i < 8 * (readV s va).length →
              (bitsOf (readV t vd))[(i + count) % (8 * (readV s va).length)]? = (bitsOf (readV s va))[i]?)
          ∧ sameBut (fun p => p = .v vd) s t)

/-- R66: the laws of rotation, for every sequence that is not empty and all counts. -/
def Obligations.RotationLaws : Prop :=
  ∀ (x : Bytes) (c e : Nat), x ≠ [] →
    (∀ d, rot x 0 d = x ∧ rot x (8 * x.length) d = x ∧ rot x c d = rot x (c % (8 * x.length)) d
        ∧ (rot x c d).length = x.length ∧ (bitsOf (rot x c d)).count true = (bitsOf x).count true
        ∧ (∀ (n : Nat) (b : Byte), 0 < n → b = 0 ∨ b = 255 → rot (List.replicate n b) c d = List.replicate n b))
      ∧ rol (rol x c) e = rol x (c + e) ∧ ror (rol x c) c = x
      ∧ rol x c = ror x ((8 * x.length - c % (8 * x.length)) % (8 * x.length))

/-! Arithmetic primitives (41_arithmetic.md). -/

/-- R70, R71: `XOR` adds each bit modulo 2 with the bit of the same index, or raises on operands of two lengths. -/
def Obligations.XorAddsBitsModTwo : Prop :=
  ∀ (vd va vb : VReg) (s : State),
    ((readV s va).length ≠ (readV s vb).length →
        exec (.xor vd va vb) s = .next (raisedState .invalidArgument (.xor vd va vb) s))
      ∧ ((readV s va).length = (readV s vb).length → ∃ t, exec (.xor vd va vb) s = .next t
          ∧ (readV t vd).length = (readV s va).length
          ∧ (∀ j i, j < (readV s va).length → i < 8 → byteNat (readV t vd) j / 2 ^ i % 2
              = (byteNat (readV s va) j / 2 ^ i % 2 + byteNat (readV s vb) j / 2 ^ i % 2) % 2)
          ∧ sameBut (fun p => p = .v vd) s t)

/-- R72, R73: `INV` gives `255 - a[j]` at every byte; it never raises. -/
def Obligations.InvComplementsEveryByte : Prop :=
  ∀ (vd va : VReg) (s : State), ∃ t, exec (.inv vd va) s = .next t ∧ (readV t vd).length = (readV s va).length
    ∧ (∀ j, j < (readV s va).length → byteNat (readV t vd) j = 255 - byteNat (readV s va) j)
    ∧ sameBut (fun p => p = .v vd) s t

/-- R74, R75: `MADD` adds byte by byte without wrapping, reduces modulo `2^nbits + 1`, then keeps the low 8 bits; or
raises on operands of two lengths. -/
def Obligations.MaddAddsModuloThenNarrows : Prop :=
  ∀ (vd va vb : VReg) (nbits : Nat) (s : State),
    ((readV s va).length ≠ (readV s vb).length →
        exec (.madd vd va vb nbits) s = .next (raisedState .invalidArgument (.madd vd va vb nbits) s))
      ∧ ((readV s va).length = (readV s vb).length → ∃ t, exec (.madd vd va vb nbits) s = .next t
          ∧ (readV t vd).length = (readV s va).length
          ∧ (∀ j, j < (readV s va).length → byteNat (readV t vd) j
              = (byteNat (readV s va) j + byteNat (readV s vb) j) % (2 ^ nbits + 1) % 256)
          ∧ sameBut (fun p => p = .v vd) s t)

/-- R77, and R92's use of it: from `nbits = 9` on the modulus has no effect, so `ModCombine` is addition modulo 256;
the engine's own `nbits` is at least 32, and that of `CRND` and `VRND` at least 16. -/
def Obligations.LargeModulusIsInert : Prop :=
  (∀ (a b : Bytes) (nbits : Nat), a.length = b.length → 9 ≤ nbits →
      (∀ j, j < a.length → byteNat (modCombine a b nbits) j = (byteNat a j + byteNat b j) % 256)
        ∧ (∀ j, j < a.length → byteNat (roundF a b nbits) j
            = byteNat (rol a 9) j ^^^ (255 - (byteNat (ror b 11) j + byteNat a j) % 256)))
    ∧ (∀ s : State, Inv s → s.cfg.ready = true → 32 ≤ blockBits s.cfg)
    ∧ (∀ k x : Bytes, k.length ≠ 0 → x.length = 2 * k.length ∨ x.length = 4 * k.length → 16 ≤ 8 * x.length)

/-- R79: the laws of XOR and inverse. -/
def Obligations.XorAndInverseLaws : Prop :=
  ∀ a b : Bytes, a.length = b.length →
    xorB (xorB a b) b = a ∧ invB (invB a) = a ∧ xorB a a = zeros a.length ∧ xorB a (zeros a.length) = a
      ∧ xorB a (invB (zeros a.length)) = invB a ∧ invB (xorB a b) = xorB (invB a) b

/-! Construction and key schedule (42_key_schedule.md). -/

/-- R83 (with R82, R85): `INITR` checks the lifecycle, then the mode, then the key length; else it draws the key, then
in CBC and CFB an IV of `B` bytes, and writes the configuration, the key, the four round keys and both IV registers.
The drawn bytes are free values; the counter `draws` is the model's (log entry 2). -/
def Obligations.InitrConstructsFromADrawnKey : Prop :=
  ∀ (klen : Nat) (ft : FType) (mf : ModeField) (s : State),
    (s.cfg.ready = true → exec (.initr klen ft mf) s = .next (raisedState .badState (.initr klen ft mf) s))
      ∧ (s.cfg.ready = false → mf = .unrecognised →
          exec (.initr klen ft mf) s = .next (raisedState .invalidConfiguration (.initr klen ft mf) s))
      ∧ (s.cfg.ready = false → mf ≠ .unrecognised → keyLenRejected klen →
          exec (.initr klen ft mf) s = .next (raisedState .invalidKey (.initr klen ft mf) s))
      ∧ (s.cfg.ready = false → mf ≠ .unrecognised → ¬ keyLenRejected klen →
          ∃ t, exec (.initr klen ft mf) s = .next t
            ∧ t.cfg.ready = true ∧ t.cfg.ftype = ft ∧ t.cfg.klen.toNat = klen
            ∧ (mf = .none → t.cfg.mode = .none) ∧ (mf = .cbc → t.cfg.mode = .cbc) ∧ (mf = .cfb → t.cfg.mode = .cfb)
            ∧ t.key = randBytes s.draws klen ∧ t.key.length = klen
            ∧ (∀ i : Fin Config.nrounds, t.rk[i.val] = ror t.key (7 * i.val))
            ∧ t.ivr = t.iv0
            ∧ (mf = .none → t.iv0 = [] ∧ t.draws = s.draws + klen)
            ∧ (mf ≠ .none → t.iv0 = randBytes (s.draws + klen) ((if ft = .classic then 2 else 4) * klen)
                ∧ t.draws = s.draws + klen + (if ft = .classic then 2 else 4) * klen)
            ∧ sameBut (writesOf s (.initr klen ft mf)) s t)

/-- R84 (with R82, R85, R87): `INITK` checks the lifecycle, then the mode, then the key length; else it copies the key
and draws an IV of `B` bytes in CBC and `4*B` bytes in CFB (free values; the counter `draws` is the model's, log entry 2). -/
def Obligations.InitkConstructsFromTheGivenKey : Prop :=
  ∀ (va : VReg) (ft : FType) (mf : ModeField) (s : State),
    (s.cfg.ready = true → exec (.initk va ft mf) s = .next (raisedState .badState (.initk va ft mf) s))
      ∧ (s.cfg.ready = false → mf = .unrecognised →
          exec (.initk va ft mf) s = .next (raisedState .invalidConfiguration (.initk va ft mf) s))
      ∧ (s.cfg.ready = false → mf ≠ .unrecognised → keyLenRejected (readV s va).length →
          exec (.initk va ft mf) s = .next (raisedState .invalidKey (.initk va ft mf) s))
      ∧ (s.cfg.ready = false → mf ≠ .unrecognised → ¬ keyLenRejected (readV s va).length →
          ∃ t, exec (.initk va ft mf) s = .next t
            ∧ t.cfg.ready = true ∧ t.cfg.ftype = ft ∧ t.cfg.klen.toNat = (readV s va).length
            ∧ (mf = .none → t.cfg.mode = .none) ∧ (mf = .cbc → t.cfg.mode = .cbc) ∧ (mf = .cfb → t.cfg.mode = .cfb)
            ∧ t.key = readV s va ∧ (∀ i : Fin Config.nrounds, t.rk[i.val] = ror t.key (7 * i.val))
            ∧ t.ivr = t.iv0
            ∧ (mf = .none → t.iv0 = [] ∧ t.draws = s.draws)
            ∧ (mf = .cbc → t.iv0 = randBytes s.draws (blockBytes t.cfg) ∧ t.draws = s.draws + blockBytes t.cfg)
            ∧ (mf = .cfb → t.iv0 = randBytes s.draws (4 * blockBytes t.cfg)
                ∧ t.draws = s.draws + 4 * blockBytes t.cfg)
            ∧ blockBytes t.cfg = (if ft = .classic then 2 else 4) * (readV s va).length
            ∧ sameBut (writesOf s (.initk va ft mf)) s t)

/-- R88: `RKEY` gives element `i` of the schedule in the chosen order, `RK[i]` or `RK[3 - i]`, on a constructed engine. -/
def Obligations.RkeyReadsTheSchedule : Prop :=
  ∀ (vd : VReg) (i : Fin Config.nrounds) (s : State),
    (∀ o, s.cfg.ready = false → exec (.rkey vd o i) s = .next (raisedState .badState (.rkey vd o i) s))
      ∧ (s.cfg.ready = true → ∃ t, exec (.rkey vd .forward i) s = .next t ∧ readV t vd = s.rk[i.val]
          ∧ sameBut (fun p => p = .v vd) s t)
      ∧ (∀ j : Fin Config.nrounds, i.val + j.val = 3 → s.cfg.ready = true →
          ∃ t, exec (.rkey vd .reverse i) s = .next t ∧ readV t vd = s.rk[j.val]
            ∧ sameBut (fun p => p = .v vd) s t)

/-- R86: within one instance nothing changes `KEY`, `RK` or the configuration: a step from a constructed engine to a
constructed engine leaves all three as they were, so that `RK[i] = Ror(KEY, 7*i)` holds after it as before. -/
def Obligations.KeyMaterialIsFixedWithinAnInstance : Prop :=
  ∀ s t : State, s.cfg.ready = true → step s = .next t → t.cfg.ready = true →
    t.key = s.key ∧ t.rk = s.rk ∧ t.cfg = s.cfg
      ∧ ((∀ i : Fin Config.nrounds, s.rk[i.val] = ror s.key (7 * i.val)) →
          ∀ i : Fin Config.nrounds, t.rk[i.val] = ror t.key (7 * i.val))

/-- R24, R85: the random source is drawn from only by a construction that succeeds: a command after which more bytes
have been drawn is `INITR` or `INITK`, took an unconstructed engine to a constructed one, and latched no error. -/
def Obligations.OnlyASuccessfulConstructionDraws : Prop :=
  ∀ (i : Instr) (s t : State), exec i s = .next t → t.draws ≠ s.draws →
    ((∃ n ft mf, i = .initr n ft mf) ∨ (∃ va ft mf, i = .initk va ft mf))
      ∧ s.cfg.ready = false ∧ t.cfg.ready = true ∧ t.err = s.err

/-- R12: `T` is read by no command and written by `GETBIT` only (and cleared by `SRST`): with another value of `T`
before, a command answers the same state but for `T`, and every command but those two passes `T` through. `GETBIT`
writes the bit it read, the host reads `T` as `STATUS[4]`, and reset clears it. -/
def Obligations.FlagIsWrittenByGetbitAndReadByNone : Prop :=
  (∀ (i : Instr) (s u : State) (b : Bool), exec i s = .next u →
      ∃ c, exec i (writeT s b) = .next (writeT u c)
        ∧ ((∀ va pos idx, i ≠ .getbit va pos idx) → i ≠ .srst → c = b ∧ u.t = s.t))
    ∧ (∀ (va : VReg) (pos idx : Nat) (s : State) (x : Byte), idx < 8 → (readV s va)[pos]? = some x →
        exec (.getbit va pos idx) s = .next (writeT s (x.getLsbD idx)))
    ∧ (∀ s : State, (statusWord s).getLsbD 4 = s.t) ∧ State.reset.t = false

/-! Round function and networks (43_round_function.md, 44_feistel_network.md). -/

/-- R90, R91: `RF` gives, byte by byte, `Rol(h,9)[j] XOR (255 - (((Ror(k,11)[j] + h[j]) mod (2^nbits + 1)) mod 256))`;
it raises on operands of two lengths, then on empty ones. -/
def Obligations.RfComputesTheRoundFunction : Prop :=
  ∀ (vd va vb : VReg) (nbits : Nat) (s : State),
    ((readV s va).length ≠ (readV s vb).length →
        exec (.rf vd va vb nbits) s = .next (raisedState .invalidArgument (.rf vd va vb nbits) s))
      ∧ ((readV s va).length = (readV s vb).length → (readV s va).length = 0 →
          exec (.rf vd va vb nbits) s = .next (raisedState .invalidArgument (.rf vd va vb nbits) s))
      ∧ ((readV s va).length = (readV s vb).length → (readV s va).length ≠ 0 →
          ∃ t, exec (.rf vd va vb nbits) s = .next t ∧ (readV t vd).length = (readV s va).length
            ∧ (∀ j, j < (readV s va).length → byteNat (readV t vd) j
                = byteNat (rol (readV s va) 9) j
                  ^^^ (255 - (byteNat (ror (readV s vb) 11) j + byteNat (readV s va) j) % (2 ^ nbits + 1) % 256))
            ∧ sameBut (fun p => p = .v vd) s t)

/-- R95, R97, R105: `CRND` on a block `L ++ R` of two key lengths gives `newRight ++ L`, or `L ++ newRight` on the last
round, with `newRight = F(L, k) XOR R`; every other operand raises. -/
def Obligations.CrndIsOneClassicRound : Prop :=
  ∀ (vd va vb : VReg) (last : Bool) (s : State),
    ((readV s vb).length = 0 ∨ (readV s va).length ≠ 2 * (readV s vb).length →
        exec (.crnd vd va vb last) s = .next (raisedState .invalidArgument (.crnd vd va vb last) s))
      ∧ (∀ l r : Bytes, (readV s vb).length ≠ 0 → l.length = (readV s vb).length →
          r.length = (readV s vb).length → readV s va = l ++ r →
          ∃ t, exec (.crnd vd va vb last) s = .next t
            ∧ (last = false → readV t vd = xorB (roundF l (readV s vb) (8 * (readV s va).length)) r ++ l)
            ∧ (last = true → readV t vd = l ++ xorB (roundF l (readV s vb) (8 * (readV s va).length)) r)
            ∧ sameBut (fun p => p = .v vd) s t)

/-- R98, R100, R105: `VRND` on a block `q1 ++ q2 ++ q3 ++ q4` of four key lengths gives `(F(q1) XOR q2, q3, q4, q1)`
encrypting and `(q4, F(q4) XOR q1, q2, q3)` decrypting; every other operand raises. -/
def Obligations.VrndIsOneVariantRound : Prop :=
  ∀ (vd va vb : VReg) (s : State),
    (∀ d, (readV s vb).length = 0 ∨ (readV s va).length ≠ 4 * (readV s vb).length →
        exec (.vrnd vd va vb d) s = .next (raisedState .invalidArgument (.vrnd vd va vb d) s))
      ∧ (∀ q1 q2 q3 q4 : Bytes, (readV s vb).length ≠ 0 → q1.length = (readV s vb).length →
          q2.length = (readV s vb).length → q3.length = (readV s vb).length → q4.length = (readV s vb).length →
          readV s va = q1 ++ q2 ++ q3 ++ q4 →
          (∃ t, exec (.vrnd vd va vb .encrypt) s = .next t
              ∧ readV t vd = xorB (roundF q1 (readV s vb) (8 * (readV s va).length)) q2 ++ q3 ++ q4 ++ q1
              ∧ sameBut (fun p => p = .v vd) s t)
            ∧ (∃ t, exec (.vrnd vd va vb .decrypt) s = .next t
              ∧ readV t vd = q4 ++ xorB (roundF q4 (readV s vb) (8 * (readV s va).length)) q1 ++ q2 ++ q3
              ∧ sameBut (fun p => p = .v vd) s t))

/-- R96, R99, R101, R102: `NET` runs four rounds over the schedule in the chosen order, in Classic with the swap
suppressed on the fourth round only and the direction flag ignored, in Variant1 with the direction's wiring in every
round; the modulus is that of the whole block in bits. -/
def Obligations.NetRunsFourRounds : Prop :=
  ∀ (vd va : VReg) (d : CipherDir) (o : SchedOrd) (s : State),
    (s.cfg.ready = false → exec (.net vd va d o) s = .next (raisedState .badState (.net vd va d o) s))
      ∧ (s.cfg.ready = true → (readV s va).length ≠ blockBytes s.cfg →
          exec (.net vd va d o) s = .next (raisedState .invalidArgument (.net vd va d o) s))
      ∧ (∀ k0 k1 k2 k3 : Bytes, s.cfg.ready = true → (readV s va).length = blockBytes s.cfg →
          [k0, k1, k2, k3] = (if o = .forward then forwardKeys s else reverseKeys s) →
          ∃ t, exec (.net vd va d o) s = .next t
            ∧ (s.cfg.ftype = .classic → readV t vd
                = classicRound
                    (classicRound
                      (classicRound (classicRound (readV s va) k0 false (8 * blockBytes s.cfg)) k1 false
                        (8 * blockBytes s.cfg)) k2 false (8 * blockBytes s.cfg)) k3 true (8 * blockBytes s.cfg))
            ∧ (s.cfg.ftype = .variant1 → readV t vd
                = v1Round
                    (v1Round
                      (v1Round (v1Round (readV s va) k0 d (8 * blockBytes s.cfg)) k1 d (8 * blockBytes s.cfg))
                      k2 d (8 * blockBytes s.cfg)) k3 d (8 * blockBytes s.cfg))
            ∧ sameBut (fun p => p = .v vd) s t)

/-- R103: the decryption path inverts the encryption path, for rounds and for networks over every list of keys of one
length; a Classic round that is not the last is no involution. -/
def Obligations.NetworksInvert : Prop :=
  (∀ (n nbits : Nat) (k : Bytes) (keys : List Bytes), k.length = n → (∀ j ∈ keys, j.length = n) →
    (∀ x : Bytes, x.length = 4 * n →
        v1Round (v1Round x k .encrypt nbits) k .decrypt nbits = x
          ∧ v1Round (v1Round x k .decrypt nbits) k .encrypt nbits = x
          ∧ v1Net (v1Net x keys .encrypt nbits) keys.reverse .decrypt nbits = x)
      ∧ (∀ x : Bytes, x.length = 2 * n →
        classicRound (classicRound x k true nbits) k true nbits = x
          ∧ classicNet (classicNet x keys nbits) keys.reverse nbits = x))
    ∧ ∃ x k : Bytes, k.length ≠ 0 ∧ x.length = 2 * k.length
      ∧ classicRound (classicRound x k false (8 * x.length)) k false (8 * x.length) ≠ x

/-- R102, R103: on every constructed engine, `NET` decrypting with the reverse schedule restores what `NET` encrypting
with the forward schedule made, in both topologies. -/
def Obligations.NetDecryptRestoresNetEncrypt : Prop :=
  ∀ (vd va vw : VReg) (s : State), Inv s → s.cfg.ready = true → (readV s va).length = blockBytes s.cfg →
    ∃ t u, exec (.net vd va .encrypt .forward) s = .next t ∧ exec (.net vw vd .decrypt .reverse) t = .next u
      ∧ readV u vw = readV s va ∧ sameBut (fun p => p = .v vd ∨ p = .v vw) s u

/-! Mode wrapper (45_mode_wrapper.md). -/

/-- R119: `IVSET` installs a block-sized IV in both registers; `BadState` unconstructed or in mode None, then
`InvalidArgument` on another length. -/
def Obligations.IvsetInstallsAnIv : Prop :=
  ∀ (va : VReg) (s : State),
    (s.cfg.ready = false ∨ s.cfg.mode = .none →
        exec (.ivset va) s = .next (raisedState .badState (.ivset va) s))
      ∧ (s.cfg.ready = true → s.cfg.mode ≠ .none → (readV s va).length ≠ blockBytes s.cfg →
          exec (.ivset va) s = .next (raisedState .invalidArgument (.ivset va) s))
      ∧ (s.cfg.ready = true → s.cfg.mode ≠ .none → (readV s va).length = blockBytes s.cfg →
          ∃ t, exec (.ivset va) s = .next t ∧ t.iv0 = readV s va ∧ t.ivr = readV s va
            ∧ sameBut (fun p => p = .iv0 ∨ p = .ivr) s t)

/-- R120: `IVGET` reads the selected IV register, unless it is longer than a sequence register can be. -/
def Obligations.IvgetReadsAnIv : Prop :=
  ∀ (vd : VReg) (sel : IvSel) (s : State) (iv : Bytes), iv = (if sel = .iv0 then s.iv0 else s.ivr) →
    (s.cfg.ready = false → exec (.ivget vd sel) s = .next (raisedState .badState (.ivget vd sel) s))
      ∧ (s.cfg.ready = true → iv.length > 255 →
          exec (.ivget vd sel) s = .next (raisedState .invalidArgument (.ivget vd sel) s))
      ∧ (s.cfg.ready = true → iv.length ≤ 255 →
          ∃ t, exec (.ivget vd sel) s = .next t ∧ readV t vd = iv ∧ sameBut (fun p => p = .v vd) s t)

/-- R121: `MSTART` restarts the running IV from the construction IV. -/
def Obligations.MstartReloadsTheRunningIv : Prop :=
  ∀ s : State,
    (s.cfg.ready = false → exec .mstart s = .next (raisedState .badState .mstart s))
      ∧ (s.cfg.ready = true → ∃ t, exec .mstart s = .next t ∧ t.ivr = s.iv0 ∧ sameBut (fun p => p = .ivr) s t)

/-- R112: a block step in mode None is the network, forward keys encrypting and reverse keys decrypting; the running IV
keeps its value. -/
def Obligations.BlkInModeNone : Prop :=
  ∀ (vd va : VReg) (d : CipherDir) (s : State), s.cfg.ready = true → s.cfg.mode = .none →
    (readV s va).length = blockBytes s.cfg →
    ∃ t, exec (.blk vd va d) s = .next t
      ∧ readV t vd = netOf s.cfg.ftype (readV s va) (if d = .encrypt then forwardKeys s else reverseKeys s) d
          (8 * blockBytes s.cfg)
      ∧ t.ivr = s.ivr ∧ sameBut (fun p => p = .v vd) s t

/-- R113: a block step in CBC: encrypting, the network of the block XOR the running IV; decrypting, the network with
reverse keys, XOR the running IV; the next IV is the ciphertext block either way. -/
def Obligations.BlkInModeCbc : Prop :=
  ∀ (vd va : VReg) (s : State), s.cfg.ready = true → s.cfg.mode = .cbc →
    (readV s va).length = blockBytes s.cfg → s.ivr.length = blockBytes s.cfg →
    (∃ t, exec (.blk vd va .encrypt) s = .next t
        ∧ readV t vd = netOf s.cfg.ftype (xorB (readV s va) s.ivr) (forwardKeys s) .encrypt (8 * blockBytes s.cfg)
        ∧ t.ivr = readV t vd ∧ sameBut (fun p => p = .v vd ∨ p = .ivr) s t)
      ∧ (∃ t, exec (.blk vd va .decrypt) s = .next t
        ∧ readV t vd = xorB (netOf s.cfg.ftype (readV s va) (reverseKeys s) .decrypt (8 * blockBytes s.cfg)) s.ivr
        ∧ t.ivr = readV s va ∧ sameBut (fun p => p = .v vd ∨ p = .ivr) s t)

/-- R114: a block step in CFB: the network on the running IV, forward keys and Encrypt wiring in both directions, XOR
the block; the next IV is the ciphertext block. -/
def Obligations.BlkInModeCfb : Prop :=
  ∀ (vd va : VReg) (d : CipherDir) (s : State), s.cfg.ready = true → s.cfg.mode = .cfb →
    (readV s va).length = blockBytes s.cfg → s.ivr.length = blockBytes s.cfg →
    ∃ t, exec (.blk vd va d) s = .next t
      ∧ readV t vd = xorB (netOf s.cfg.ftype s.ivr (forwardKeys s) .encrypt (8 * blockBytes s.cfg)) (readV s va)
      ∧ (d = .encrypt → t.ivr = readV t vd) ∧ (d = .decrypt → t.ivr = readV s va)
      ∧ sameBut (fun p => p = .v vd ∨ p = .ivr) s t

/-- R116, R117, R118, R123: the checks of `MSG` in their order; else the text `MEM[0 ..< MLEN]` padded with nulls to
the least multiple of `B`, the `nb` blocks stepped in order from the construction IV, each output block stored in
place; the running IV after the last block; and the reported length, the padded one encrypting and the length without
trailing nulls decrypting. -/
def Obligations.MsgProcessesTheWholeText : Prop :=
  (∀ (d : CipherDir) (s : State),
      (s.cfg.ready = false → exec (.msg d) s = .next (raisedState .badState (.msg d) s))
        ∧ (s.cfg.ready = true → padLen s.mlen.toNat (blockBytes s.cfg) > 4096 →
            exec (.msg d) s = .next (raisedState .memRange (.msg d) s))
        ∧ (s.cfg.ready = true → padLen s.mlen.toNat (blockBytes s.cfg) ≤ 4096 →
            padLen s.mlen.toNat (blockBytes s.cfg) > 0 → s.cfg.mode ≠ .none → s.iv0.length ≠ blockBytes s.cfg →
            exec (.msg d) s = .next (raisedState .invalidArgument (.msg d) s)))
    ∧ ∀ (d : CipherDir) (s : State) (nb : Nat), Inv s → s.cfg.ready = true →
      nb = (s.mlen.toNat + blockBytes s.cfg - 1) / blockBytes s.cfg → nb * blockBytes s.cfg ≤ 4096 →
      (0 < nb → s.cfg.mode ≠ .none → s.iv0.length = blockBytes s.cfg) →
      ∃ (t : State) (block out iv : Nat → Bytes), exec (.msg d) s = .next t
        ∧ (∀ j, j < nb → (block j).length = blockBytes s.cfg)
        ∧ (∀ j i, j < nb → i < blockBytes s.cfg → (block j)[i]?
            = some (if j * blockBytes s.cfg + i < s.mlen.toNat then memByte s (j * blockBytes s.cfg + i) else 0))
        ∧ iv 0 = s.iv0
        ∧ (∀ j, j < nb → (out j, iv (j + 1)) = blockStep s.cfg s.rk (block j) d (iv j))
        ∧ (∀ j i, j < nb → i < blockBytes s.cfg →
            (out j)[i]? = some (memByte t (j * blockBytes s.cfg + i)))
        ∧ t.ivr = iv nb
        ∧ (d = .encrypt → t.mlen.toNat = nb * blockBytes s.cfg)
        ∧ (d = .decrypt → t.mlen.toNat ≤ nb * blockBytes s.cfg
            ∧ (∀ a, t.mlen.toNat ≤ a → a < nb * blockBytes s.cfg → memByte t a = 0)
            ∧ (t.mlen.toNat ≠ 0 → memByte t (t.mlen.toNat - 1) ≠ 0))
        ∧ sameBut (fun p => (∃ a, a < nb * blockBytes s.cfg ∧ p = .mem a) ∨ p = .ivr ∨ p = .mlen) s t

/-- R124: `MSG` on a text already padded leaves the memory and the running IV that `MSTART` and then `BLK` on each block
in ascending order leave; the empty text needs no IV of block size. -/
def Obligations.MsgAgreesWithBlkByBlk : Prop :=
  ∀ (v : VReg) (d : CipherDir) (s : State) (nb : Nat), Inv s → s.cfg.ready = true →
    s.mlen.toNat = nb * blockBytes s.cfg → (0 < nb → s.cfg.mode ≠ .none → s.iv0.length = blockBytes s.cfg) →
    ∃ t u, exec (.msg d) s = .next t ∧ runInstrs (blkProgram v (blockBytes s.cfg) nb d) s = .next u
      ∧ (∀ a, memByte u a = memByte t a) ∧ u.ivr = t.ivr

/-- R125: round trip, for both topologies and all three modes. `MSG E` and then `MSG D`, on the same engine (`t' = t`)
or on another one with the same key, topology, mode and IV that was given the ciphertext, restores the text; the
padding reads as nulls, and the length is the text's own exactly when the text is empty or does not end in a null. -/
def Obligations.MessageRoundTrip : Prop :=
  ∀ (s : State) (n p : Nat), Inv s → s.cfg.ready = true → (s.cfg.mode ≠ .none → s.iv0.length = blockBytes s.cfg) →
    n = s.mlen.toNat → p = padLen n (blockBytes s.cfg) → p ≤ 4096 →
    ∃ t, exec (.msg .encrypt) s = .next t
      ∧ ∀ t' : State, (t' = t ∨ (Inv t' ∧ t'.cfg = s.cfg ∧ t'.key = s.key ∧ t'.iv0 = s.iv0 ∧ t'.mlen = t.mlen
            ∧ ∀ a, a < p → memByte t' a = memByte t a)) →
          ∃ u, exec (.msg .decrypt) t' = .next u
            ∧ (∀ a, a < n → memByte u a = memByte s a) ∧ (∀ a, n ≤ a → a < p → memByte u a = 0)
            ∧ (∀ a, p ≤ a → memByte u a = memByte t' a)
            ∧ u.mlen.toNat = trimLen (memRead s 0 n ++ zeros (p - n))
            ∧ (u.mlen.toNat = n ↔ n = 0 ∨ memByte s (n - 1) ≠ 0)

/-- R127: in CBC, altering ciphertext block `j` changes the decryption in block `j`, changes block `j + 1` in exactly
the altered bits, and changes no other block. -/
def Obligations.CbcErrorPropagation : Prop :=
  ∀ (s s' : State) (j p : Nat), Inv s → Inv s' → s.cfg.ready = true → s.cfg.mode = .cbc → s'.cfg = s.cfg →
    s'.rk = s.rk → s'.iv0 = s.iv0 → s'.mlen = s.mlen → p = padLen s.mlen.toNat (blockBytes s.cfg) → p ≤ 4096 →
    (∀ a, a < s.mlen.toNat → a / blockBytes s.cfg ≠ j → memByte s' a = memByte s a) →
    ∃ t t', exec (.msg .decrypt) s = .next t ∧ exec (.msg .decrypt) s' = .next t'
      ∧ (∀ a, a < p → a / blockBytes s.cfg ≠ j → a / blockBytes s.cfg ≠ j + 1 → memByte t' a = memByte t a)
      ∧ (∀ i, i < blockBytes s.cfg → (j + 1) * blockBytes s.cfg + i < p →
          memByte t' ((j + 1) * blockBytes s.cfg + i) ^^^ memByte t ((j + 1) * blockBytes s.cfg + i)
            = memByte s' (j * blockBytes s.cfg + i) ^^^ memByte s (j * blockBytes s.cfg + i))
      ∧ ((∃ a, a < s.mlen.toNat ∧ a / blockBytes s.cfg = j ∧ memByte s' a ≠ memByte s a) →
          ∃ a, a < p ∧ a / blockBytes s.cfg = j ∧ memByte t' a ≠ memByte t a)

/-- R128: in CFB, and in CBC, two decryptions of one ciphertext that differ only in the construction IV differ in the
first block and agree in every later one. -/
def Obligations.OnlyTheFirstBlockDependsOnTheIv : Prop :=
  ∀ (s s' : State) (p : Nat), Inv s → Inv s' → s.cfg.ready = true → s.cfg.mode ≠ .none → s'.cfg = s.cfg →
    s'.rk = s.rk → s'.mlen = s.mlen → (∀ a, a < s.mlen.toNat → memByte s' a = memByte s a) →
    s.iv0.length = blockBytes s.cfg → s'.iv0.length = blockBytes s.cfg → s'.iv0 ≠ s.iv0 → 0 < s.mlen.toNat →
    p = padLen s.mlen.toNat (blockBytes s.cfg) → p ≤ 4096 →
    ∃ t t', exec (.msg .decrypt) s = .next t ∧ exec (.msg .decrypt) s' = .next t'
      ∧ (∀ a, blockBytes s.cfg ≤ a → a < p → memByte t' a = memByte t a)
      ∧ ∃ a, a < blockBytes s.cfg ∧ memByte t' a ≠ memByte t a

/-- R168 (with R115): after `INITK` in CFB the IV has `4*B` bytes; every `BLK`, and `MSG` on every text that is not
empty and fits, then raise `InvalidArgument`, until `IVSET` installs `B` bytes, after which `BLK` on a block
completes. After `INITR` in CFB the IV has `B` bytes. -/
def Obligations.DirectKeyCfbNeedsAnIvset : Prop :=
  (∀ (va : VReg) (ft : FType) (s t : State), s.cfg.ready = false → ¬ keyLenRejected (readV s va).length →
      exec (.initk va ft .cfb) s = .next t →
      t.cfg.mode = .cfb ∧ t.iv0.length = 4 * blockBytes t.cfg ∧ t.ivr.length = 4 * blockBytes t.cfg)
    ∧ (∀ (klen : Nat) (ft : FType) (s t : State), s.cfg.ready = false → ¬ keyLenRejected klen →
      exec (.initr klen ft .cfb) s = .next t →
      t.cfg.mode = .cfb ∧ t.iv0.length = blockBytes t.cfg ∧ t.ivr.length = blockBytes t.cfg)
    ∧ ∀ (s : State), Inv s → s.cfg.ready = true → s.cfg.mode = .cfb → s.iv0.length = 4 * blockBytes s.cfg →
      (∀ vd va d, exec (.blk vd va d) s = .next (raisedState .invalidArgument (.blk vd va d) s))
        ∧ (∀ d, 0 < s.mlen.toNat → padLen s.mlen.toNat (blockBytes s.cfg) ≤ 4096 →
            exec (.msg d) s = .next (raisedState .invalidArgument (.msg d) s))
        ∧ (∀ va, (readV s va).length = blockBytes s.cfg → ∃ t, exec (.ivset va) s = .next t
            ∧ t.iv0.length = blockBytes t.cfg ∧ t.ivr.length = blockBytes t.cfg
            ∧ ∀ vd d, ∃ u, exec (.blk vd va d) t = .next u ∧ u.err = t.err)

/-! Invariants (10_state.md). -/

/-- The state after reset meets the invariant of R28 and the memory's canonical form (the model's, log entry 1). -/
def Obligations.ResetMeetsTheInvariant : Prop := Inv State.reset

/-- R28: every step, whatever the host does, keeps the invariants (a) to (g) and the canonical form of the memory (the
latter is the model's, log entry 1). -/
def Obligations.EveryStepKeepsTheInvariant : Prop :=
  ∀ s t : State, Inv s → step s = .next t → Inv t
end

