-- ==== Sys2Proof/Laws/Decode.lean ====
section
/-! SUPPORT. The fields of a word, the codes of the enumerations both ways, the value of each format's word, and how a
mask and match row of the opcode table (R53) splits into fields. -/

namespace Sys2Proof

/-! Codes (R51). -/

@[simp] theorem shiftDirOf_code (d : ShiftDir) : shiftDirOf d.code = d := by cases d <;> rfl
@[simp] theorem cipherDirOf_code (d : CipherDir) : cipherDirOf d.code = d := by cases d <;> rfl
@[simp] theorem schedOrdOf_code (o : SchedOrd) : schedOrdOf o.code = o := by cases o <;> rfl
@[simp] theorem ftypeOf_code (f : FType) : ftypeOf f.code = f := by cases f <;> rfl
@[simp] theorem modeFieldOf_code (m : ModeField) : modeFieldOf m.code = m := by cases m <;> rfl
@[simp] theorem ivSelOf_code (i : IvSel) : ivSelOf i.code = i := by cases i <;> rfl
@[simp] theorem flagOf_code (b : Bool) : flagOf (flagCode b) = b := by cases b <;> rfl

theorem code_shiftDirOf {n : Nat} (h : n < 2) : (shiftDirOf n).code = n := by interval_cases n <;> rfl
theorem code_cipherDirOf {n : Nat} (h : n < 2) : (cipherDirOf n).code = n := by interval_cases n <;> rfl
theorem code_schedOrdOf {n : Nat} (h : n < 2) : (schedOrdOf n).code = n := by interval_cases n <;> rfl
theorem code_ftypeOf {n : Nat} (h : n < 2) : (ftypeOf n).code = n := by interval_cases n <;> rfl
theorem code_modeFieldOf {n : Nat} (h : n < 4) : (modeFieldOf n).code = n := by interval_cases n <;> rfl
theorem code_ivSelOf {n : Nat} (h : n < 2) : (ivSelOf n).code = n := by interval_cases n <;> rfl
theorem code_flagOf {n : Nat} (h : n < 2) : flagCode (flagOf n) = n := by interval_cases n <;> rfl

theorem shiftDir_code_lt (d : ShiftDir) : d.code < 2 := by cases d <;> decide
theorem cipherDir_code_lt (d : CipherDir) : d.code < 2 := by cases d <;> decide
theorem schedOrd_code_lt (o : SchedOrd) : o.code < 2 := by cases o <;> decide
theorem ftype_code_lt (f : FType) : f.code < 2 := by cases f <;> decide
theorem modeField_code_lt (m : ModeField) : m.code < 4 := by cases m <;> decide
theorem ivSel_code_lt (i : IvSel) : i.code < 2 := by cases i <;> decide
theorem flagCode_lt (b : Bool) : flagCode b < 2 := by cases b <;> decide

theorem vreg_lt (r : VReg) : r.val < 16 := r.isLt

@[simp] theorem regOf_val (r : VReg) : regOf r.val = r := by
  apply Fin.ext
  exact Nat.mod_eq_of_lt r.isLt

theorem val_regOf {n : Nat} (h : n < 16) : (regOf n).val = n := Nat.mod_eq_of_lt h

/-! A decoded field is the operand whose code it is. -/

theorem regOf_eq {n : Nat} {r : VReg} (h : n = r.val) : regOf n = r := by rw [h, regOf_val]
theorem shiftDirOf_eq {n : Nat} {d : ShiftDir} (h : n = d.code) : shiftDirOf n = d := by rw [h, shiftDirOf_code]
theorem cipherDirOf_eq {n : Nat} {d : CipherDir} (h : n = d.code) : cipherDirOf n = d := by rw [h, cipherDirOf_code]
theorem schedOrdOf_eq {n : Nat} {o : SchedOrd} (h : n = o.code) : schedOrdOf n = o := by rw [h, schedOrdOf_code]
theorem ftypeOf_eq {n : Nat} {f : FType} (h : n = f.code) : ftypeOf n = f := by rw [h, ftypeOf_code]
theorem modeFieldOf_eq {n : Nat} {m : ModeField} (h : n = m.code) : modeFieldOf n = m := by rw [h, modeFieldOf_code]
theorem ivSelOf_eq {n : Nat} {i : IvSel} (h : n = i.code) : ivSelOf n = i := by rw [h, ivSelOf_code]
theorem flagOf_eq {n : Nat} {b : Bool} (h : n = flagCode b) : flagOf n = b := by rw [h, flagOf_code]

/-! Fields (R6). -/

theorem field_eq (w : Word) (hi lo : Nat) : field w hi lo = w.toNat / 2 ^ lo % 2 ^ (hi + 1 - lo) := rfl

theorem field_lt (w : Word) (hi lo : Nat) : field w hi lo < 2 ^ (hi + 1 - lo) := Nat.mod_lt _ (Nat.two_pow_pos _)

/-- Bit `t` of a field is bit `lo + t` of the word (R6). -/
theorem testBit_field (w : Word) (hi lo t : Nat) :
    (field w hi lo).testBit t = (decide (t < hi + 1 - lo) && w.getLsbD (lo + t)) := by
  rw [field_eq, Nat.testBit_mod_two_pow, Nat.testBit_div_two_pow, BitVec.testBit_toNat, Nat.add_comm lo t]

theorem whenZero_eq_some {l : List Nat} {i j : Instr} : whenZero l i = some j ↔ (∀ f ∈ l, f = 0) ∧ i = j := by
  unfold whenZero
  by_cases h : (l.all fun f => f == 0) = true
  · rw [if_pos h]
    simp only [List.all_eq_true, beq_iff_eq] at h
    simp only [Option.some.injEq]
    exact ⟨fun e => ⟨h, e⟩, fun e => e.2⟩
  · rw [if_neg h]
    simp only [List.all_eq_true, beq_iff_eq] at h
    exact ⟨fun e => (by cases e), fun e => absurd e.1 h⟩

/-! The formats (R46 to R50): the number a word of each is. -/

theorem formatR_toNat {op vd va vb imm12 : Nat} (h₁ : op < 256) (h₂ : vd < 16) (h₃ : va < 16) (h₄ : vb < 16)
    (h₅ : imm12 < 4096) : (formatR op vd va vb imm12).toNat
      = op * 2 ^ 24 + vd * 2 ^ 20 + va * 2 ^ 16 + vb * 2 ^ 12 + imm12 := by
  simp only [formatR, BitVec.toNat_ofNat]
  omega

theorem formatS_toNat {op vd va sdir count : Nat} (h₁ : op < 256) (h₂ : vd < 16) (h₃ : va < 16) (h₄ : sdir < 2)
    (h₅ : count < 32768) : (formatS op vd va sdir count).toNat
      = op * 2 ^ 24 + vd * 2 ^ 20 + va * 2 ^ 16 + sdir * 2 ^ 15 + count := by
  simp only [formatS, BitVec.toNat_ofNat]
  omega

theorem formatB_toNat {op vd va pos idx b : Nat} (h₁ : op < 256) (h₂ : vd < 16) (h₃ : va < 16) (h₄ : pos < 256)
    (h₅ : idx < 16) (h₆ : b < 2) : (formatB op vd va pos idx b).toNat
      = op * 2 ^ 24 + vd * 2 ^ 20 + va * 2 ^ 16 + pos * 2 ^ 8 + idx * 2 ^ 4 + b := by
  simp only [formatB, BitVec.toNat_ofNat]
  omega

theorem formatM_toNat {op vr len addr : Nat} (h₁ : op < 256) (h₂ : vr < 16) (h₃ : len < 256) (h₄ : addr < 4096) :
    (formatM op vr len addr).toNat = op * 2 ^ 24 + vr * 2 ^ 20 + len * 2 ^ 12 + addr := by
  simp only [formatM, BitVec.toNat_ofNat]
  omega

theorem formatI_toNat {op vd va imm16 : Nat} (h₁ : op < 256) (h₂ : vd < 16) (h₃ : va < 16) (h₄ : imm16 < 65536) :
    (formatI op vd va imm16).toNat = op * 2 ^ 24 + vd * 2 ^ 20 + va * 2 ^ 16 + imm16 := by
  simp only [formatI, BitVec.toNat_ofNat]
  omega

/-! Masks (R53). -/

/-- The mask of the bits `hi` down to `lo`. -/
def fieldMask (hi lo : Nat) : Word := BitVec.ofNat 32 ((2 ^ (hi + 1 - lo) - 1) * 2 ^ lo)

theorem getLsbD_fieldMask (hi lo i : Nat) (h : hi < 32) :
    (fieldMask hi lo).getLsbD i = (decide (lo ≤ i) && decide (i ≤ hi)) := by
  unfold fieldMask
  rw [BitVec.getLsbD_ofNat, Nat.testBit_mul_two_pow, Nat.testBit_two_pow_sub_one]
  by_cases h₁ : lo ≤ i <;> by_cases h₂ : i ≤ hi
  · have h₃ : i < 32 := by omega
    have h₄ : i - lo < hi + 1 - lo := by omega
    simp [h₁, h₂, h₃, h₄]
  · have h₄ : ¬ i - lo < hi + 1 - lo := by omega
    simp [h₂, h₄]
  · simp [h₁]
  · simp [h₁]

/-- One field of a masked word. -/
theorem and_fieldMask (w : Word) (hi lo k : Nat) (h : hi < 32) (hk : k < 2 ^ (hi + 1 - lo)) :
    w &&& fieldMask hi lo = BitVec.ofNat 32 (k * 2 ^ lo) ↔ field w hi lo = k := by
  constructor
  · intro e
    apply Nat.eq_of_testBit_eq
    intro t
    rw [testBit_field]
    by_cases ht : t < hi + 1 - lo
    · have hb := congrArg (fun x => x.getLsbD (lo + t)) e
      have h₁ : lo ≤ lo + t := by omega
      have h₂ : lo + t ≤ hi := by omega
      have h₃ : lo + t < 32 := by omega
      have h₄ : lo + t - lo = t := by omega
      simp only [BitVec.getLsbD_and, getLsbD_fieldMask _ _ _ h, BitVec.getLsbD_ofNat, Nat.testBit_mul_two_pow, h₁,
        h₂, h₃, h₄, decide_true, Bool.and_true, Bool.true_and] at hb
      simp [ht, hb]
    · rw [Nat.testBit_lt_two_pow (Nat.lt_of_lt_of_le hk (Nat.pow_le_pow_right (by norm_num) (by omega)))]
      simp [ht]
  · intro e
    apply BitVec.eq_of_getLsbD_eq
    intro i hi32
    rw [BitVec.getLsbD_and, getLsbD_fieldMask _ _ _ h, BitVec.getLsbD_ofNat, Nat.testBit_mul_two_pow, ← e,
      testBit_field]
    by_cases h₁ : lo ≤ i
    · have h₂ : lo + (i - lo) = i := by omega
      by_cases h₃ : i ≤ hi
      · have h₄ : i - lo < hi + 1 - lo := by omega
        simp [h₁, h₂, h₃, h₄, hi32]
      · have h₄ : ¬ i - lo < hi + 1 - lo := by omega
        simp [h₃, h₄]
    · simp [h₁]

/-- A word under a mask of two disjoint parts. -/
theorem and_or_mask (w m₁ m₂ f₁ f₂ : Word) (hm : m₁ &&& m₂ = 0) (h₁ : f₁ &&& m₁ = f₁) (h₂ : f₂ &&& m₂ = f₂) :
    w &&& (m₁ ||| m₂) = f₁ ||| f₂ ↔ w &&& m₁ = f₁ ∧ w &&& m₂ = f₂ := by
  have bit : ∀ (a b c : Word) (i : Nat), a &&& b = c → (a.getLsbD i && b.getLsbD i) = c.getLsbD i := by
    intro a b c i h
    rw [← h, BitVec.getLsbD_and]
  constructor
  · intro e
    constructor <;> apply BitVec.eq_of_getLsbD_eq <;> intro i _ <;>
      have e := bit _ _ _ i e <;> have hm := bit _ _ _ i hm <;> have h₁ := bit _ _ _ i h₁ <;>
      have h₂ := bit _ _ _ i h₂ <;>
      simp only [BitVec.getLsbD_and, BitVec.getLsbD_or, BitVec.ofNat_eq_ofNat, BitVec.getLsbD_zero] at * <;>
      revert e hm h₁ h₂ <;>
      cases w.getLsbD i <;> cases m₁.getLsbD i <;> cases m₂.getLsbD i <;> cases f₁.getLsbD i <;>
      cases f₂.getLsbD i <;> simp
  · rintro ⟨e₁, e₂⟩
    rw [BitVec.and_or_distrib_left, e₁, e₂]

/-- A word under a mask whose second part must be zero. -/
theorem and_zero_mask (w m₁ m₂ f : Word) (hm : m₁ &&& m₂ = 0) (h₁ : f &&& m₁ = f) :
    w &&& (m₁ ||| m₂) = f ↔ w &&& m₁ = f ∧ w &&& m₂ = 0 := by
  have := and_or_mask w m₁ m₂ f 0 hm h₁ (by simp)
  simpa using this

/-- A must-be-zero field of a masked word (R54). -/
theorem and_zeroField (w : Word) (hi lo : Nat) (h : hi < 32) : w &&& fieldMask hi lo = 0 ↔ field w hi lo = 0 := by
  have := and_fieldMask w hi lo 0 h (Nat.two_pow_pos _)
  simpa using this

/-- A field of a word whose value is known. -/
theorem field_of_toNat {w : Word} {n hi lo k : Nat} (hw : w.toNat = n) (h : n / 2 ^ lo % 2 ^ (hi + 1 - lo) = k) :
    field w hi lo = k := by
  rw [field_eq, hw, h]

end Sys2Proof
end

