-- ==== Sys2Proof/Laws/State.lean ====
section
/-! SUPPORT. One lemma per field per update of the state, true by definition, and what each update does to the two
reads, `readV` and `memByte`. Later proofs cite these and do not unfold a record update. -/

namespace Sys2Proof.Machine

/-! The fields after `writeV`. -/

@[simp] theorem writeV_v (s : State) (i : VReg) (x : Bytes) : (writeV s i x).v = s.v.set i.val x := rfl
@[simp] theorem writeV_t (s : State) (i : VReg) (x : Bytes) : (writeV s i x).t = s.t := rfl
@[simp] theorem writeV_cfg (s : State) (i : VReg) (x : Bytes) : (writeV s i x).cfg = s.cfg := rfl
@[simp] theorem writeV_key (s : State) (i : VReg) (x : Bytes) : (writeV s i x).key = s.key := rfl
@[simp] theorem writeV_rk (s : State) (i : VReg) (x : Bytes) : (writeV s i x).rk = s.rk := rfl
@[simp] theorem writeV_iv0 (s : State) (i : VReg) (x : Bytes) : (writeV s i x).iv0 = s.iv0 := rfl
@[simp] theorem writeV_ivr (s : State) (i : VReg) (x : Bytes) : (writeV s i x).ivr = s.ivr := rfl
@[simp] theorem writeV_err (s : State) (i : VReg) (x : Bytes) : (writeV s i x).err = s.err := rfl
@[simp] theorem writeV_ecw (s : State) (i : VReg) (x : Bytes) : (writeV s i x).ecw = s.ecw := rfl
@[simp] theorem writeV_mlen (s : State) (i : VReg) (x : Bytes) : (writeV s i x).mlen = s.mlen := rfl
@[simp] theorem writeV_mem (s : State) (i : VReg) (x : Bytes) : (writeV s i x).mem = s.mem := rfl
@[simp] theorem writeV_pending (s : State) (i : VReg) (x : Bytes) : (writeV s i x).pending = s.pending := rfl
@[simp] theorem writeV_answers (s : State) (i : VReg) (x : Bytes) : (writeV s i x).answers = s.answers := rfl
@[simp] theorem writeV_launch (s : State) (i : VReg) (x : Bytes) : (writeV s i x).launch = s.launch := rfl
@[simp] theorem writeV_draws (s : State) (i : VReg) (x : Bytes) : (writeV s i x).draws = s.draws := rfl

/-! The fields after `writeT`. -/

@[simp] theorem writeT_v (s : State) (x : Bool) : (writeT s x).v = s.v := rfl
@[simp] theorem writeT_t (s : State) (x : Bool) : (writeT s x).t = x := rfl
@[simp] theorem writeT_cfg (s : State) (x : Bool) : (writeT s x).cfg = s.cfg := rfl
@[simp] theorem writeT_key (s : State) (x : Bool) : (writeT s x).key = s.key := rfl
@[simp] theorem writeT_rk (s : State) (x : Bool) : (writeT s x).rk = s.rk := rfl
@[simp] theorem writeT_iv0 (s : State) (x : Bool) : (writeT s x).iv0 = s.iv0 := rfl
@[simp] theorem writeT_ivr (s : State) (x : Bool) : (writeT s x).ivr = s.ivr := rfl
@[simp] theorem writeT_err (s : State) (x : Bool) : (writeT s x).err = s.err := rfl
@[simp] theorem writeT_ecw (s : State) (x : Bool) : (writeT s x).ecw = s.ecw := rfl
@[simp] theorem writeT_mlen (s : State) (x : Bool) : (writeT s x).mlen = s.mlen := rfl
@[simp] theorem writeT_mem (s : State) (x : Bool) : (writeT s x).mem = s.mem := rfl
@[simp] theorem writeT_pending (s : State) (x : Bool) : (writeT s x).pending = s.pending := rfl
@[simp] theorem writeT_answers (s : State) (x : Bool) : (writeT s x).answers = s.answers := rfl
@[simp] theorem writeT_launch (s : State) (x : Bool) : (writeT s x).launch = s.launch := rfl
@[simp] theorem writeT_draws (s : State) (x : Bool) : (writeT s x).draws = s.draws := rfl

/-! The fields after `memWrite`. -/

@[simp] theorem memWrite_v (s : State) (a : Nat) (x : Bytes) : (memWrite s a x).v = s.v := rfl
@[simp] theorem memWrite_t (s : State) (a : Nat) (x : Bytes) : (memWrite s a x).t = s.t := rfl
@[simp] theorem memWrite_cfg (s : State) (a : Nat) (x : Bytes) : (memWrite s a x).cfg = s.cfg := rfl
@[simp] theorem memWrite_key (s : State) (a : Nat) (x : Bytes) : (memWrite s a x).key = s.key := rfl
@[simp] theorem memWrite_rk (s : State) (a : Nat) (x : Bytes) : (memWrite s a x).rk = s.rk := rfl
@[simp] theorem memWrite_iv0 (s : State) (a : Nat) (x : Bytes) : (memWrite s a x).iv0 = s.iv0 := rfl
@[simp] theorem memWrite_ivr (s : State) (a : Nat) (x : Bytes) : (memWrite s a x).ivr = s.ivr := rfl
@[simp] theorem memWrite_err (s : State) (a : Nat) (x : Bytes) : (memWrite s a x).err = s.err := rfl
@[simp] theorem memWrite_ecw (s : State) (a : Nat) (x : Bytes) : (memWrite s a x).ecw = s.ecw := rfl
@[simp] theorem memWrite_mlen (s : State) (a : Nat) (x : Bytes) : (memWrite s a x).mlen = s.mlen := rfl
@[simp] theorem memWrite_mem (s : State) (a : Nat) (x : Bytes) : (memWrite s a x).mem = s.mem.writeBytes a x := rfl
@[simp] theorem memWrite_pending (s : State) (a : Nat) (x : Bytes) : (memWrite s a x).pending = s.pending := rfl
@[simp] theorem memWrite_answers (s : State) (a : Nat) (x : Bytes) : (memWrite s a x).answers = s.answers := rfl
@[simp] theorem memWrite_launch (s : State) (a : Nat) (x : Bytes) : (memWrite s a x).launch = s.launch := rfl
@[simp] theorem memWrite_draws (s : State) (a : Nat) (x : Bytes) : (memWrite s a x).draws = s.draws := rfl

/-! The fields after `clearError`. -/

@[simp] theorem clearError_v (s : State) : (clearError s).v = s.v := rfl
@[simp] theorem clearError_t (s : State) : (clearError s).t = s.t := rfl
@[simp] theorem clearError_cfg (s : State) : (clearError s).cfg = s.cfg := rfl
@[simp] theorem clearError_key (s : State) : (clearError s).key = s.key := rfl
@[simp] theorem clearError_rk (s : State) : (clearError s).rk = s.rk := rfl
@[simp] theorem clearError_iv0 (s : State) : (clearError s).iv0 = s.iv0 := rfl
@[simp] theorem clearError_ivr (s : State) : (clearError s).ivr = s.ivr := rfl
@[simp] theorem clearError_err (s : State) : (clearError s).err = none := rfl
@[simp] theorem clearError_ecw (s : State) : (clearError s).ecw = 0 := rfl
@[simp] theorem clearError_mlen (s : State) : (clearError s).mlen = s.mlen := rfl
@[simp] theorem clearError_mem (s : State) : (clearError s).mem = s.mem := rfl
@[simp] theorem clearError_pending (s : State) : (clearError s).pending = s.pending := rfl
@[simp] theorem clearError_answers (s : State) : (clearError s).answers = s.answers := rfl
@[simp] theorem clearError_launch (s : State) : (clearError s).launch = s.launch := rfl
@[simp] theorem clearError_draws (s : State) : (clearError s).draws = s.draws := rfl

/-! The fields after `install`. -/

@[simp] theorem install_v (s : State) (k : Bytes) (ft : FType) (m : Mode) (iv : Bytes) : (install k ft m iv s).v = s.v := rfl
@[simp] theorem install_t (s : State) (k : Bytes) (ft : FType) (m : Mode) (iv : Bytes) : (install k ft m iv s).t = s.t := rfl
@[simp] theorem install_cfg (s : State) (k : Bytes) (ft : FType) (m : Mode) (iv : Bytes) : (install k ft m iv s).cfg = constructedCfg k ft m := rfl
@[simp] theorem install_key (s : State) (k : Bytes) (ft : FType) (m : Mode) (iv : Bytes) : (install k ft m iv s).key = k := rfl
@[simp] theorem install_rk (s : State) (k : Bytes) (ft : FType) (m : Mode) (iv : Bytes) : (install k ft m iv s).rk = roundKeys k := rfl
@[simp] theorem install_iv0 (s : State) (k : Bytes) (ft : FType) (m : Mode) (iv : Bytes) : (install k ft m iv s).iv0 = iv := rfl
@[simp] theorem install_ivr (s : State) (k : Bytes) (ft : FType) (m : Mode) (iv : Bytes) : (install k ft m iv s).ivr = iv := rfl
@[simp] theorem install_err (s : State) (k : Bytes) (ft : FType) (m : Mode) (iv : Bytes) : (install k ft m iv s).err = s.err := rfl
@[simp] theorem install_ecw (s : State) (k : Bytes) (ft : FType) (m : Mode) (iv : Bytes) : (install k ft m iv s).ecw = s.ecw := rfl
@[simp] theorem install_mlen (s : State) (k : Bytes) (ft : FType) (m : Mode) (iv : Bytes) : (install k ft m iv s).mlen = s.mlen := rfl
@[simp] theorem install_mem (s : State) (k : Bytes) (ft : FType) (m : Mode) (iv : Bytes) : (install k ft m iv s).mem = s.mem := rfl
@[simp] theorem install_pending (s : State) (k : Bytes) (ft : FType) (m : Mode) (iv : Bytes) : (install k ft m iv s).pending = s.pending := rfl
@[simp] theorem install_answers (s : State) (k : Bytes) (ft : FType) (m : Mode) (iv : Bytes) : (install k ft m iv s).answers = s.answers := rfl
@[simp] theorem install_launch (s : State) (k : Bytes) (ft : FType) (m : Mode) (iv : Bytes) : (install k ft m iv s).launch = s.launch := rfl
@[simp] theorem install_draws (s : State) (k : Bytes) (ft : FType) (m : Mode) (iv : Bytes) : (install k ft m iv s).draws = s.draws := rfl

/-! The fields after `rand_snd`. -/

@[simp] theorem rand_snd_v (s : State) (n : Nat) : (rand s n).2.v = s.v := rfl
@[simp] theorem rand_snd_t (s : State) (n : Nat) : (rand s n).2.t = s.t := rfl
@[simp] theorem rand_snd_cfg (s : State) (n : Nat) : (rand s n).2.cfg = s.cfg := rfl
@[simp] theorem rand_snd_key (s : State) (n : Nat) : (rand s n).2.key = s.key := rfl
@[simp] theorem rand_snd_rk (s : State) (n : Nat) : (rand s n).2.rk = s.rk := rfl
@[simp] theorem rand_snd_iv0 (s : State) (n : Nat) : (rand s n).2.iv0 = s.iv0 := rfl
@[simp] theorem rand_snd_ivr (s : State) (n : Nat) : (rand s n).2.ivr = s.ivr := rfl
@[simp] theorem rand_snd_err (s : State) (n : Nat) : (rand s n).2.err = s.err := rfl
@[simp] theorem rand_snd_ecw (s : State) (n : Nat) : (rand s n).2.ecw = s.ecw := rfl
@[simp] theorem rand_snd_mlen (s : State) (n : Nat) : (rand s n).2.mlen = s.mlen := rfl
@[simp] theorem rand_snd_mem (s : State) (n : Nat) : (rand s n).2.mem = s.mem := rfl
@[simp] theorem rand_snd_pending (s : State) (n : Nat) : (rand s n).2.pending = s.pending := rfl
@[simp] theorem rand_snd_answers (s : State) (n : Nat) : (rand s n).2.answers = s.answers := rfl
@[simp] theorem rand_snd_launch (s : State) (n : Nat) : (rand s n).2.launch = s.launch := rfl
@[simp] theorem rand_snd_draws (s : State) (n : Nat) : (rand s n).2.draws = s.draws + n := rfl

/-! The fields after `resetRegisters`. -/

@[simp] theorem resetRegisters_v (s : State) : (resetRegisters s).v = State.reset.v := rfl
@[simp] theorem resetRegisters_t (s : State) : (resetRegisters s).t = State.reset.t := rfl
@[simp] theorem resetRegisters_cfg (s : State) : (resetRegisters s).cfg = State.reset.cfg := rfl
@[simp] theorem resetRegisters_key (s : State) : (resetRegisters s).key = State.reset.key := rfl
@[simp] theorem resetRegisters_rk (s : State) : (resetRegisters s).rk = State.reset.rk := rfl
@[simp] theorem resetRegisters_iv0 (s : State) : (resetRegisters s).iv0 = State.reset.iv0 := rfl
@[simp] theorem resetRegisters_ivr (s : State) : (resetRegisters s).ivr = State.reset.ivr := rfl
@[simp] theorem resetRegisters_err (s : State) : (resetRegisters s).err = State.reset.err := rfl
@[simp] theorem resetRegisters_ecw (s : State) : (resetRegisters s).ecw = State.reset.ecw := rfl
@[simp] theorem resetRegisters_mlen (s : State) : (resetRegisters s).mlen = State.reset.mlen := rfl
@[simp] theorem resetRegisters_mem (s : State) : (resetRegisters s).mem = s.mem := rfl
@[simp] theorem resetRegisters_pending (s : State) : (resetRegisters s).pending = s.pending := rfl
@[simp] theorem resetRegisters_answers (s : State) : (resetRegisters s).answers = s.answers := rfl
@[simp] theorem resetRegisters_launch (s : State) : (resetRegisters s).launch = s.launch := rfl
@[simp] theorem resetRegisters_draws (s : State) : (resetRegisters s).draws = s.draws := rfl

/-! The fields after `hardReset`. -/

@[simp] theorem hardReset_v (s : State) : (hardReset s).v = State.reset.v := rfl
@[simp] theorem hardReset_t (s : State) : (hardReset s).t = State.reset.t := rfl
@[simp] theorem hardReset_cfg (s : State) : (hardReset s).cfg = State.reset.cfg := rfl
@[simp] theorem hardReset_key (s : State) : (hardReset s).key = State.reset.key := rfl
@[simp] theorem hardReset_rk (s : State) : (hardReset s).rk = State.reset.rk := rfl
@[simp] theorem hardReset_iv0 (s : State) : (hardReset s).iv0 = State.reset.iv0 := rfl
@[simp] theorem hardReset_ivr (s : State) : (hardReset s).ivr = State.reset.ivr := rfl
@[simp] theorem hardReset_err (s : State) : (hardReset s).err = State.reset.err := rfl
@[simp] theorem hardReset_ecw (s : State) : (hardReset s).ecw = State.reset.ecw := rfl
@[simp] theorem hardReset_mlen (s : State) : (hardReset s).mlen = State.reset.mlen := rfl
@[simp] theorem hardReset_mem (s : State) : (hardReset s).mem = [] := rfl
@[simp] theorem hardReset_pending (s : State) : (hardReset s).pending = s.pending := rfl
@[simp] theorem hardReset_answers (s : State) : (hardReset s).answers = s.answers := rfl
@[simp] theorem hardReset_launch (s : State) : (hardReset s).launch = s.launch + 1 := rfl
@[simp] theorem hardReset_draws (s : State) : (hardReset s).draws = s.draws := rfl

/-! The reads after an update. -/

@[simp] theorem readV_writeV_same (s : State) (i : VReg) (x : Bytes) : readV (writeV s i x) i = x := by
  simp [readV]

theorem readV_writeV_ne (s : State) (i j : VReg) (x : Bytes) (h : j ≠ i) : readV (writeV s i x) j = readV s j := by
  simp only [readV, writeV_v]
  rw [Vector.getElem_set_ne]
  exact fun hij => h (Fin.ext hij.symm)

theorem readV_writeV (s : State) (i j : VReg) (x : Bytes) :
    readV (writeV s i x) j = if j = i then x else readV s j := by
  by_cases h : j = i
  · subst h; simp
  · simp [h, readV_writeV_ne]

@[simp] theorem memByte_writeV (s : State) (i : VReg) (x : Bytes) (a : Nat) :
    memByte (writeV s i x) a = memByte s a := rfl
@[simp] theorem readV_writeT (s : State) (x : Bool) (i : VReg) : readV (writeT s x) i = readV s i := rfl
@[simp] theorem memByte_writeT (s : State) (x : Bool) (a : Nat) : memByte (writeT s x) a = memByte s a := rfl
@[simp] theorem readV_memWrite (s : State) (a : Nat) (x : Bytes) (i : VReg) :
    readV (memWrite s a x) i = readV s i := rfl
@[simp] theorem readV_clearError (s : State) (i : VReg) : readV (clearError s) i = readV s i := rfl
@[simp] theorem memByte_clearError (s : State) (a : Nat) : memByte (clearError s) a = memByte s a := rfl
@[simp] theorem readV_install (s : State) (k : Bytes) (ft : FType) (m : Mode) (iv : Bytes) (i : VReg) :
    readV (install k ft m iv s) i = readV s i := rfl
@[simp] theorem memByte_install (s : State) (k : Bytes) (ft : FType) (m : Mode) (iv : Bytes) (a : Nat) :
    memByte (install k ft m iv s) a = memByte s a := rfl
@[simp] theorem readV_rand_snd (s : State) (n : Nat) (i : VReg) : readV (rand s n).2 i = readV s i := rfl
@[simp] theorem memByte_rand_snd (s : State) (n a : Nat) : memByte (rand s n).2 a = memByte s a := rfl
@[simp] theorem readV_resetRegisters (s : State) (i : VReg) : readV (resetRegisters s) i = [] := by
  simp [readV, State.reset]
@[simp] theorem memByte_resetRegisters (s : State) (a : Nat) : memByte (resetRegisters s) a = memByte s a := rfl
@[simp] theorem readV_hardReset (s : State) (i : VReg) : readV (hardReset s) i = [] := by
  simp [readV, State.reset]
@[simp] theorem memByte_hardReset (s : State) (a : Nat) :
    memByte (hardReset s) a = Config.powerOnByte (s.launch + 1) a := rfl

/-- The memory reads depend only on the list and on which hard reset left the rest. -/
theorem memByte_congr {s u : State} (hm : u.mem = s.mem) (hl : u.launch = s.launch) (a : Nat) :
    memByte u a = memByte s a := by
  simp only [memByte, hm, hl]

theorem memRead_congr {s u : State} (h : ∀ a, memByte u a = memByte s a) (a n : Nat) :
    memRead u a n = memRead s a n := by
  simp only [memRead, h]

/-- A part that did not change between two states, then between the second and a third, did not change at all. -/
theorem Part.same_trans {p : Part} {s u w : State} (h₁ : p.same s u) (h₂ : p.same u w) : p.same s w := by
  cases p <;> exact Eq.trans h₂ h₁

theorem Part.same_refl (p : Part) (s : State) : p.same s s := by
  cases p <;> rfl

/-! The frames of the updates: each changes only the parts it names. -/

theorem sameBut_writeV (s : State) (i : VReg) (x : Bytes) : sameBut (fun p => p = .v i) s (writeV s i x) := by
  intro p hp
  cases p <;> first | rfl | skip
  case v r => exact readV_writeV_ne s i r x (fun h => hp (congrArg Part.v h))

theorem sameBut_writeT (s : State) (x : Bool) : sameBut (fun p => p = .t) s (writeT s x) := by
  intro p hp
  cases p <;> first | rfl | exact absurd rfl hp

theorem sameBut_raise (s : State) (k : ErrKind) (cw : Word) :
    sameBut (fun p => p = .err ∨ p = .ecw) s { s with err := some k, ecw := cw } := by
  intro p hp
  cases p <;> first | rfl | exact absurd (by simp) hp

theorem sameBut_clearError (s : State) : sameBut (fun p => p = .err ∨ p = .ecw) s (clearError s) := by
  intro p hp
  cases p <;> first | rfl | exact absurd (by simp) hp

theorem sameBut_refl (c : Part → Prop) (s : State) : sameBut c s s := fun p _ => Part.same_refl p s

/-- A frame with more parts named. -/
theorem sameBut_mono {c d : Part → Prop} {s u : State} (h : ∀ p, c p → d p) (hs : sameBut c s u) : sameBut d s u :=
  fun p hp => hs p (fun hc => hp (h p hc))

/-- Frames of two updates in turn. -/
theorem sameBut_trans {c : Part → Prop} {s u w : State} (h₁ : sameBut c s u) (h₂ : sameBut c u w) : sameBut c s w :=
  fun p hp => Part.same_trans (h₁ p hp) (h₂ p hp)

theorem sameBut_writeV_of {d : Part → Prop} (s : State) (i : VReg) (x : Bytes) (h : d (.v i)) :
    sameBut d s (writeV s i x) :=
  sameBut_mono (by rintro p rfl; exact h) (sameBut_writeV s i x)

end Sys2Proof.Machine
end

