-- ==== Sys2Proof/Laws/Memory.lean ====
section
/-! SUPPORT. The memory: a read after a write, the canonical form, and the runs of bytes `MemRead` and `MemWrite` of
R32 and R33. -/

namespace Sys2Proof.Machine

namespace Memory

theorem read_write (m : Memory) (a : Nat) (b : Byte) (x : Nat) :
    (m.write a b).read x = if x = a then some b else m.read x := by
  induction m with
  | nil => simp [write, read]
  | cons c m ih =>
    obtain ⟨k, d⟩ := c
    simp only [write]
    split
    · simp only [read]
    · split
      · rename_i _ h
        subst h
        simp only [read]
        split <;> rfl
      · rename_i h
        simp only [read, ih]
        by_cases hx : x = k
        · subst hx
          simp [Ne.symm h]
        · simp [hx]

/-- Writing keeps every address that was listed, and adds one. -/
theorem mem_write {m : Memory} {a : Nat} {b : Byte} {c : Host.Cell} (h : c ∈ m.write a b) :
    c = (a, b) ∨ c ∈ m := by
  induction m with
  | nil => simpa [write] using h
  | cons d m ih =>
    obtain ⟨k, e⟩ := d
    simp only [write] at h
    split at h
    · simpa using h
    · split at h
      · rcases List.mem_cons.mp h with h | h
        · exact .inl h
        · exact .inr (List.mem_cons_of_mem _ h)
      · rcases List.mem_cons.mp h with h | h
        · exact .inr (h ▸ List.mem_cons_self)
        · exact (ih h).imp id (List.mem_cons_of_mem _)

theorem pairwise_write {m : Memory} (a : Nat) (b : Byte) (h : m.Pairwise (fun x y => x.1 < y.1)) :
    (m.write a b).Pairwise (fun x y => x.1 < y.1) := by
  induction m with
  | nil => simp [write]
  | cons d m ih =>
    obtain ⟨k, e⟩ := d
    obtain ⟨hk, hm⟩ := List.pairwise_cons.mp h
    simp only [write]
    split
    · rename_i hak
      refine List.pairwise_cons.mpr ⟨fun c hc => ?_, h⟩
      rcases List.mem_cons.mp hc with hc | hc
      · exact hc ▸ hak
      · exact Nat.lt_trans hak (hk c hc)
    · split
      · rename_i _ hak
        exact List.pairwise_cons.mpr ⟨fun c hc => hak ▸ hk c hc, hm⟩
      · refine List.pairwise_cons.mpr ⟨fun c hc => ?_, ih hm⟩
        rcases mem_write hc with hc | hc
        · subst hc; show k < a; omega
        · exact hk c hc

/-- A write inside `MEM` keeps the canonical form. -/
theorem wf_write {m : Memory} {a : Nat} (b : Byte) (h : m.wf) (ha : a < Config.msize) : (m.write a b).wf := by
  refine ⟨pairwise_write a b h.1, fun c hc => ?_⟩
  rcases mem_write hc with hc | hc
  · exact hc ▸ ha
  · exact h.2 c hc

/-- A run of writes inside `MEM` keeps the canonical form. -/
theorem wf_writeBytes {m : Memory} {a : Nat} {s : Bytes} (h : m.wf) (ha : a + s.length ≤ Config.msize) :
    (m.writeBytes a s).wf := by
  induction s generalizing m a with
  | nil => exact h
  | cons b s ih =>
    simp only [List.length_cons] at ha
    exact ih (wf_write b h (by omega)) (by omega)

theorem wf_nil : wf [] := ⟨List.Pairwise.nil, by simp⟩

/-- What a run of writes leaves at each address. -/
theorem read_writeBytes (m : Memory) (a : Nat) (s : Bytes) (x : Nat) :
    (m.writeBytes a s).read x = if a ≤ x ∧ x < a + s.length then s[x - a]? else m.read x := by
  induction s generalizing m a with
  | nil =>
    rw [if_neg (by simp only [List.length_nil]; omega)]
    rfl
  | cons b s ih =>
    simp only [writeBytes, ih, read_write, List.length_cons]
    by_cases h₁ : x = a
    · subst h₁
      simp
    · by_cases h₂ : a + 1 ≤ x ∧ x < a + 1 + s.length
      · have : a ≤ x ∧ x < a + (s.length + 1) := by omega
        rw [if_pos h₂, if_pos this]
        obtain ⟨d, rfl⟩ := Nat.exists_eq_add_of_le h₂.1
        have e₁ : a + 1 + d - (a + 1) = d := by omega
        have e₂ : a + 1 + d - a = d + 1 := by omega
        simp [e₁, e₂]
      · have : ¬ (a ≤ x ∧ x < a + (s.length + 1)) := by omega
        rw [if_neg h₂, if_neg h₁, if_neg this]

end Memory

/-- `MemWrite` stores byte `j` at `addr + j` and changes no other byte (R33). -/
theorem memByte_memWrite (s : State) (a : Nat) (x : Bytes) (b : Nat) :
    memByte (memWrite s a x) b = if h : a ≤ b ∧ b < a + x.length then x[b - a]'(by omega) else memByte s b := by
  simp only [memByte, memWrite_mem, memWrite_launch, Memory.read_writeBytes]
  split
  · rename_i y hy
    split at hy
    · rename_i h
      have hlt : b - a < x.length := by omega
      rw [dif_pos h]
      rw [List.getElem?_eq_getElem hlt] at hy
      exact (Option.some.inj hy).symm
    · rename_i h
      rw [dif_neg h, hy]
  · rename_i hy
    split at hy
    · rename_i h
      have hlt : b - a < x.length := by omega
      rw [List.getElem?_eq_getElem hlt] at hy
      exact absurd hy (by simp)
    · rename_i h
      rw [dif_neg h, hy]

theorem memByte_memWrite_out (s : State) (a : Nat) (x : Bytes) (b : Nat) (h : ¬ (a ≤ b ∧ b < a + x.length)) :
    memByte (memWrite s a x) b = memByte s b := by
  rw [memByte_memWrite, dif_neg h]

theorem memByte_memWrite_in (s : State) (a : Nat) (x : Bytes) (j : Nat) (h : j < x.length) :
    memByte (memWrite s a x) (a + j) = x[j] := by
  rw [memByte_memWrite, dif_pos (by omega)]
  congr 1
  omega

@[simp] theorem memRead_length (s : State) (a n : Nat) : (memRead s a n).length = n := by simp [memRead]

@[simp] theorem memRead_getElem (s : State) (a n j : Nat) (h : j < (memRead s a n).length) :
    (memRead s a n)[j] = memByte s (a + j) := by simp [memRead]

theorem memRead_getElem? (s : State) (a n j : Nat) :
    (memRead s a n)[j]? = if j < n then some (memByte s (a + j)) else none := by
  split
  · rename_i h
    rw [List.getElem?_eq_getElem (by simpa using h)]
    simp
  · rename_i h
    rw [List.getElem?_eq_none (by simpa using h)]

/-- `MemRead` of what `MemWrite` stored. -/
theorem memRead_memWrite_same (s : State) (a : Nat) (x : Bytes) : memRead (memWrite s a x) a x.length = x := by
  apply List.ext_getElem (by simp)
  intro j h₁ h₂
  simp only [memRead_getElem]
  exact memByte_memWrite_in s a x j h₂

/-- `MemWrite` changes only the bytes it stores. -/
theorem sameBut_memWrite (s : State) (a : Nat) (x : Bytes) :
    sameBut (fun p => ∃ j, j < x.length ∧ p = .mem (a + j)) s (memWrite s a x) := by
  intro p hp
  cases p <;> first | rfl | skip
  case mem b =>
    refine memByte_memWrite_out s a x b (fun h => hp ⟨b - a, by omega, ?_⟩)
    exact congrArg Part.mem (by omega)

end Sys2Proof.Machine
end

