-- ==== Sys2Proof/Laws/Sequence.lean ====
section
/-! SUPPORT. Sequences as integers and as bit strings (R6): the two conversions are inverse, each byte and each bit of a
sequence is a digit of its integer; what a rotation does to the bit string (R64). -/

namespace Sys2Proof.Machine

@[simp] theorem seqOf_length (v n : Nat) : (seqOf v n).length = n := by
  induction n with
  | zero => rfl
  | succ n ih => simp [seqOf, ih]

theorem intOf_lt (s : Bytes) : intOf s < 256 ^ s.length := by
  induction s with
  | nil => simp [intOf]
  | cons b s ih =>
    have hb : b.toNat < 256 := b.isLt
    simp only [intOf, List.length_cons, pow_succ]
    nlinarith [Nat.pow_pos (n := s.length) (show 0 < 256 by norm_num)]

/-- The integer of a written number is the number, on the digits there are. -/
theorem intOf_seqOf (v n : Nat) : intOf (seqOf v n) = v % 256 ^ n := by
  induction n with
  | zero => simp [seqOf, intOf, Nat.mod_one]
  | succ n ih =>
    simp only [seqOf, intOf, seqOf_length, ih, BitVec.toNat_ofNat]
    have e : 256 ^ (n + 1) = 256 ^ n * 256 := pow_succ _ _
    rw [e, Nat.mod_mul]
    ring

/-- A sequence is the number it stands for, on its own length. -/
theorem seqOf_intOf (s : Bytes) : seqOf (intOf s) s.length = s := by
  suffices h : ∀ k, seqOf (k * 256 ^ s.length + intOf s) s.length = s by simpa using h 0
  induction s with
  | nil => intro k; rfl
  | cons b s ih =>
    intro k
    have hlt := intOf_lt s
    have hpos : 0 < 256 ^ s.length := Nat.pow_pos (by norm_num)
    have e : k * 256 ^ (s.length + 1) + (b.toNat * 256 ^ s.length + intOf s)
        = (k * 256 + b.toNat) * 256 ^ s.length + intOf s := by ring
    simp only [intOf, List.length_cons, seqOf, e, ih]
    congr 1
    rw [Nat.add_comm, Nat.add_mul_div_right _ _ hpos, Nat.div_eq_of_lt hlt, Nat.zero_add]
    apply BitVec.eq_of_toNat_eq
    have := b.isLt
    simp only [BitVec.toNat_ofNat]
    omega

/-- Sequences of one length with one integer are equal. -/
theorem eq_of_intOf_eq {s u : Bytes} (hl : s.length = u.length) (h : intOf s = intOf u) : s = u := by
  rw [← seqOf_intOf s, ← seqOf_intOf u, hl, h]

/-- Byte `j` of a written number. -/
theorem seqOf_getElem (v n j : Nat) (h : j < (seqOf v n).length) :
    (seqOf v n)[j] = BitVec.ofNat 8 (v / 256 ^ (n - 1 - j)) := by
  induction n generalizing j with
  | zero => simp at h
  | succ n ih =>
    cases j with
    | zero => simp [seqOf]
    | succ j =>
      simp only [seqOf, List.getElem_cons_succ]
      rw [ih]
      congr 3
      omega

/-- Byte `j` of a sequence is a digit of its integer. -/
theorem getElem_toNat (s : Bytes) (j : Nat) (h : j < s.length) :
    s[j].toNat = intOf s / 256 ^ (s.length - 1 - j) % 256 := by
  have e : s[j] = (seqOf (intOf s) s.length)[j]'(by simpa using h) := by
    congr 1
    exact (seqOf_intOf s).symm
  rw [e, seqOf_getElem]
  simp

@[simp] theorem bitsOfByte_length (b : Byte) : (bitsOfByte b).length = 8 := by simp [bitsOfByte]

@[simp] theorem bitsOf_length (s : Bytes) : (bitsOf s).length = 8 * s.length := by
  induction s with
  | nil => rfl
  | cons b s ih =>
    have : (bitsOf (b :: s)).length = 8 + (bitsOf s).length := by simp [bitsOf]
    rw [this, ih, List.length_cons]
    ring

/-- `Bits(s)` is the binary expansion of `Int(s)`, leading digit first (R6). -/
theorem bitsOf_getElem (s : Bytes) (i : Nat) (h : i < (bitsOf s).length) :
    (bitsOf s)[i] = (intOf s).testBit (8 * s.length - 1 - i) := by
  induction s generalizing i with
  | nil => simp [bitsOf] at h
  | cons b s ih =>
    have hlt : intOf s < 2 ^ (8 * s.length) := by
      have := intOf_lt s
      rwa [pow_mul]
    have hw : (intOf (b :: s)) = 2 ^ (8 * s.length) * b.toNat + intOf s := by
      simp only [intOf, pow_mul]
      norm_num
      ring
    rw [hw, Nat.testBit_two_pow_mul_add _ hlt]
    simp only [List.length_cons]
    have hcons : bitsOf (b :: s) = bitsOfByte b ++ bitsOf s := rfl
    by_cases hi : i < 8
    · rw [if_neg (by omega)]
      simp only [hcons, List.getElem_append, bitsOfByte_length, hi, dite_true]
      simp only [bitsOfByte, List.getElem_map, List.getElem_range, BitVec.testBit_toNat]
      congr 1
      omega
    · rw [bitsOf_length, List.length_cons] at h
      rw [if_pos (by omega)]
      simp only [hcons, List.getElem_append, bitsOfByte_length, hi, dite_false]
      rw [ih]
      congr 1
      omega

/-- Sequences of one length with one bit string are equal. -/
theorem eq_of_bitsOf_eq {s u : Bytes} (hl : s.length = u.length)
    (h : ∀ i (hi : i < 8 * s.length), (bitsOf s)[i]'(by simpa using hi) = (bitsOf u)[i]'(by simpa [← hl] using hi)) :
    s = u := by
  apply eq_of_intOf_eq hl
  apply Nat.eq_of_testBit_eq
  intro k
  by_cases hk : k < 8 * s.length
  · have := h (8 * s.length - 1 - k) (by omega)
    rw [bitsOf_getElem, bitsOf_getElem, ← hl] at this
    have e : 8 * s.length - 1 - (8 * s.length - 1 - k) = k := by omega
    rwa [e] at this
  · have key : ∀ x : Bytes, x.length = s.length → (intOf x).testBit k = false := by
      intro x hx
      apply Nat.testBit_eq_false_of_lt
      calc intOf x < 256 ^ x.length := intOf_lt x
        _ = 2 ^ (8 * s.length) := by rw [hx, pow_mul]; norm_num
        _ ≤ 2 ^ k := Nat.pow_le_pow_right (by norm_num) (by omega)
    rw [key s rfl, key u hl.symm]

@[simp] theorem lsh_length (s : Bytes) (d : ShiftDir) : (lsh s d).length = s.length := by
  cases d <;> simp [lsh]

@[simp] theorem rol_length (s : Bytes) (c : Nat) : (rol s c).length = s.length := by simp [rol]

@[simp] theorem ror_length (s : Bytes) (c : Nat) : (ror s c).length = s.length := by simp [ror]

@[simp] theorem rot_length (s : Bytes) (c : Nat) (d : ShiftDir) : (rot s c d).length = s.length := by
  cases d <;> simp [rot]

/-- The bits of a number rotated left by `r` inside `w` bits. -/
theorem testBit_rotate (x w r i : Nat) (hx : x < 2 ^ w) (hr : r < w) (hi : i < w) :
    (x * 2 ^ r % 2 ^ w + x / 2 ^ (w - r)).testBit i = if i < r then x.testBit (w - r + i) else x.testBit (i - r) := by
  have hsplit : x * 2 ^ r % 2 ^ w = 2 ^ r * (x % 2 ^ (w - r)) := by
    have e : 2 ^ w = 2 ^ r * 2 ^ (w - r) := by rw [← pow_add]; congr 1; omega
    rw [e, Nat.mul_comm x, Nat.mul_mod_mul_left]
  have hhigh : x / 2 ^ (w - r) < 2 ^ r := by
    rw [Nat.div_lt_iff_lt_mul (Nat.two_pow_pos _), ← pow_add]
    have : r + (w - r) = w := by omega
    rwa [this]
  rw [hsplit, Nat.testBit_two_pow_mul_add _ hhigh]
  split
  · rw [Nat.testBit_div_two_pow, Nat.add_comm]
  · rw [Nat.testBit_mod_two_pow]
    have : i - r < w - r := by omega
    simp [this]

/-- The integer of a left rotation, before it is written back (R64). -/
theorem intOf_rol (s : Bytes) (c : Nat) (h : s ≠ []) :
    intOf (rol s c) = intOf s * 2 ^ (c % (8 * s.length)) % 2 ^ (8 * s.length)
      + intOf s / 2 ^ (8 * s.length - c % (8 * s.length)) := by
  have hn : 0 < s.length := List.length_pos_of_ne_nil h
  have hr : c % (8 * s.length) < 8 * s.length := Nat.mod_lt _ (by omega)
  have hx : intOf s < 2 ^ (8 * s.length) := by
    have := intOf_lt s
    rwa [pow_mul]
  simp only [rol, intOf_seqOf]
  apply Nat.mod_eq_of_lt
  have e256 : (256 : Nat) ^ s.length = 2 ^ (8 * s.length) := by rw [pow_mul]; norm_num
  rw [e256]
  set w := 8 * s.length
  set r := c % w
  have hhigh : intOf s / 2 ^ (w - r) < 2 ^ r := by
    rw [Nat.div_lt_iff_lt_mul (Nat.two_pow_pos _), ← pow_add]
    have : r + (w - r) = w := by omega
    rwa [this]
  have hsplit : intOf s * 2 ^ r % 2 ^ w = 2 ^ r * (intOf s % 2 ^ (w - r)) := by
    have e : 2 ^ w = 2 ^ r * 2 ^ (w - r) := by rw [← pow_add]; congr 1; omega
    rw [e, Nat.mul_comm (intOf s), Nat.mul_mod_mul_left]
  have hlow : intOf s % 2 ^ (w - r) < 2 ^ (w - r) := Nat.mod_lt _ (Nat.two_pow_pos _)
  have ew : 2 ^ w = 2 ^ r * 2 ^ (w - r) := by rw [← pow_add]; congr 1; omega
  rw [hsplit, ew]
  calc 2 ^ r * (intOf s % 2 ^ (w - r)) + intOf s / 2 ^ (w - r)
      < 2 ^ r * (intOf s % 2 ^ (w - r)) + 2 ^ r := Nat.add_lt_add_left hhigh _
    _ = 2 ^ r * (intOf s % 2 ^ (w - r) + 1) := by ring
    _ ≤ 2 ^ r * 2 ^ (w - r) := Nat.mul_le_mul_left _ hlow

/-- Bit `i` of a left rotation is bit `(i + c) mod w` of the sequence (R64). -/
theorem bitsOf_rol (s : Bytes) (c i : Nat) (hi : i < 8 * s.length) :
    (bitsOf (rol s c))[i]'(by simpa using hi)
      = (bitsOf s)[(i + c) % (8 * s.length)]'(by rw [bitsOf_length]; exact Nat.mod_lt _ (by omega)) := by
  have hne : s ≠ [] := by rintro rfl; simp at hi
  have hx : intOf s < 2 ^ (8 * s.length) := by
    have := intOf_lt s
    rwa [pow_mul]
  rw [bitsOf_getElem, bitsOf_getElem, intOf_rol s c hne, rol_length]
  have hr : c % (8 * s.length) < 8 * s.length := Nat.mod_lt _ (by omega)
  rw [testBit_rotate _ _ _ _ hx hr (by omega), Nat.add_mod i c, Nat.mod_eq_of_lt hi]
  set w := 8 * s.length
  set r := c % w
  by_cases h : i + r < w
  · rw [Nat.mod_eq_of_lt h, if_neg (by omega)]
    congr 1
    omega
  · have e : (i + r) % w = i + r - w := by
      rw [Nat.mod_eq_sub_mod (by omega), Nat.mod_eq_of_lt (by omega)]
    rw [e, if_pos (by omega)]
    congr 1
    omega

/-- Bit `i` of a right rotation is bit `(i - c) mod w` of the sequence (R64). -/
theorem bitsOf_ror (s : Bytes) (c i : Nat) (hi : i < 8 * s.length) :
    (bitsOf (ror s c))[i]'(by simpa using hi)
      = (bitsOf s)[(i + (8 * s.length - c % (8 * s.length))) % (8 * s.length)]'(by
          rw [bitsOf_length]; exact Nat.mod_lt _ (by omega)) := by
  simp only [ror]
  rw [bitsOf_rol s _ i hi]
  congr 1
  rw [Nat.add_mod_mod]

end Sys2Proof.Machine
end

