-- ==== Sys2Proof/Laws/Network.lean ====
section
/-! SUPPORT. The pure functions of the cipher: lengths, the cancellation laws of XOR, the parts of a block, padding,
blocks of a text, the trimmed length, and the lengths along the block loop. -/

namespace Sys2Proof.Machine

/-! XOR, inverse, modular combination. -/

theorem xorB_length (a b : Bytes) (h : a.length = b.length) : (xorB a b).length = a.length := by
  simp [xorB, h]

theorem xorB_getElem (a b : Bytes) (j : Nat) (h : j < (xorB a b).length) :
    (xorB a b)[j] = a[j]'(by simp [xorB] at h; omega) ^^^ b[j]'(by simp [xorB] at h; omega) := by
  simp [xorB]

theorem xorB_comm (a b : Bytes) : xorB a b = xorB b a := by
  unfold xorB
  rw [List.zipWith_comm]
  congr 1
  funext x y
  exact BitVec.xor_comm y x

/-- XOR with the same operand twice (R79). -/
theorem xorB_cancel_right (a b : Bytes) (h : a.length = b.length) : xorB (xorB a b) b = a := by
  apply List.ext_getElem
  · rw [xorB_length _ _ (by rw [xorB_length _ _ h, h]), xorB_length _ _ h]
  · intro j h₁ h₂
    rw [xorB_getElem, xorB_getElem, BitVec.xor_assoc, BitVec.xor_self, BitVec.xor_zero]

theorem xorB_cancel_left (a b : Bytes) (h : a.length = b.length) : xorB a (xorB a b) = b := by
  rw [xorB_comm a b, xorB_comm a, xorB_cancel_right b a h.symm]

@[simp] theorem invB_length (a : Bytes) : (invB a).length = a.length := by simp [invB]

theorem modCombine_length (a b : Bytes) (nbits : Nat) (h : a.length = b.length) :
    (modCombine a b nbits).length = a.length := by
  simp [modCombine, h]

/-! The round function and the rounds keep lengths (R90, R104). -/

theorem roundF_length (h k : Bytes) (nbits : Nat) (hl : h.length = k.length) : (roundF h k nbits).length = h.length := by
  unfold roundF
  rw [xorB_length, rol_length]
  rw [rol_length, invB_length, modCombine_length _ _ _ (by simp [hl]), ror_length, hl]

theorem slice_length (x : Bytes) (a b : Nat) (h : b ≤ x.length) : (slice x a b).length = b - a := by
  simp only [slice, List.length_take, List.length_drop]
  omega

theorem slice_append_slice (x : Bytes) (a b c : Nat) (h₁ : a ≤ b) (h₂ : b ≤ c) :
    slice x a b ++ slice x b c = slice x a c := by
  have e : c - a = (b - a) + (c - b) := by omega
  have d : (x.drop a).drop (b - a) = x.drop b := by
    rw [List.drop_drop]
    congr 1
    omega
  simp only [slice, e]
  rw [List.take_add, d]

theorem slice_all (x : Bytes) (n : Nat) (h : x.length ≤ n) : slice x 0 n = x := by
  simp only [slice, List.drop_zero, Nat.sub_zero]
  exact List.take_of_length_le h

/-- A sub-sequence that lies in the first part of a concatenation. -/
theorem slice_append_left (x y : Bytes) (a b : Nat) (h : b ≤ x.length) : slice (x ++ y) a b = slice x a b := by
  simp only [slice]
  by_cases hab : a ≤ b
  · rw [List.drop_append_of_le_length (by omega), List.take_append_of_le_length (by simp; omega)]
  · have : b - a = 0 := by omega
    simp [this]

/-- A sub-sequence that lies in the second part of a concatenation. -/
theorem slice_append_right (x y : Bytes) (a b : Nat) (h : x.length ≤ a) :
    slice (x ++ y) a b = slice y (a - x.length) (b - x.length) := by
  simp only [slice]
  rw [List.drop_append, List.drop_of_length_le h, List.nil_append]
  congr 1
  omega

/-- The halves of a block make the block up (R35). -/
theorem halves_append (n : Nat) (x : Bytes) (h : x.length = 2 * n) : leftHalf n x ++ rightHalf n x = x := by
  unfold leftHalf rightHalf
  rw [slice_append_slice _ _ _ _ (by omega) (by omega), slice_all _ _ (by omega)]

/-- The quarters of a block make the block up (R35). -/
theorem quarters_append (n : Nat) (x : Bytes) (h : x.length = 4 * n) :
    quarter1 n x ++ quarter2 n x ++ quarter3 n x ++ quarter4 n x = x := by
  unfold quarter1 quarter2 quarter3 quarter4
  rw [slice_append_slice _ _ _ _ (by omega) (by omega), slice_append_slice _ _ _ _ (by omega) (by omega),
    slice_append_slice _ _ _ _ (by omega) (by omega), slice_all _ _ (by omega)]

theorem leftHalf_length (n : Nat) (x : Bytes) (h : x.length = 2 * n) : (leftHalf n x).length = n := by
  unfold leftHalf
  rw [slice_length _ _ _ (by omega)]
  omega

theorem rightHalf_length (n : Nat) (x : Bytes) (h : x.length = 2 * n) : (rightHalf n x).length = n := by
  unfold rightHalf
  rw [slice_length _ _ _ (by omega)]
  omega

theorem quarter_lengths (n : Nat) (x : Bytes) (h : x.length = 4 * n) :
    (quarter1 n x).length = n ∧ (quarter2 n x).length = n ∧ (quarter3 n x).length = n
      ∧ (quarter4 n x).length = n := by
  unfold quarter1 quarter2 quarter3 quarter4
  refine ⟨?_, ?_, ?_, ?_⟩ <;> rw [slice_length _ _ _ (by omega)] <;> omega

/-- The halves of a concatenation of two parts of `n` bytes. -/
theorem halves_of_append (n : Nat) (a b : Bytes) (ha : a.length = n) (hb : b.length = n) :
    leftHalf n (a ++ b) = a ∧ rightHalf n (a ++ b) = b := by
  subst ha
  unfold leftHalf rightHalf
  refine ⟨?_, ?_⟩
  · rw [slice_append_left _ _ _ _ (by omega), slice_all _ _ (by omega)]
  · rw [slice_append_right _ _ _ _ (by omega), Nat.sub_self, slice_all _ _ (by omega)]

/-- The quarters of a concatenation of four parts of `n` bytes. -/
theorem quarters_of_append (n : Nat) (a b c d : Bytes) (ha : a.length = n) (hb : b.length = n) (hc : c.length = n)
    (hd : d.length = n) :
    quarter1 n (a ++ b ++ c ++ d) = a ∧ quarter2 n (a ++ b ++ c ++ d) = b ∧ quarter3 n (a ++ b ++ c ++ d) = c
      ∧ quarter4 n (a ++ b ++ c ++ d) = d := by
  unfold quarter1 quarter2 quarter3 quarter4
  simp only [List.append_assoc]
  refine ⟨?_, ?_, ?_, ?_⟩
  · rw [slice_append_left _ _ _ _ (by omega), slice_all _ _ (by omega)]
  · rw [slice_append_right _ _ _ _ (by omega), slice_append_left _ _ _ _ (by omega)]
    rw [show n - a.length = 0 by omega, slice_all _ _ (by omega)]
  · rw [slice_append_right _ _ _ _ (by omega), slice_append_right _ _ _ _ (by omega),
      slice_append_left _ _ _ _ (by omega)]
    rw [show 2 * n - a.length - b.length = 0 by omega, slice_all _ _ (by omega)]
  · rw [slice_append_right _ _ _ _ (by omega), slice_append_right _ _ _ _ (by omega),
      slice_append_right _ _ _ _ (by omega)]
    rw [show 3 * n - a.length - b.length - c.length = 0 by omega, slice_all _ _ (by omega)]

theorem classicRound_length (x k : Bytes) (last : Bool) (nbits : Nat) (h : x.length = 2 * k.length) :
    (classicRound x k last nbits).length = x.length := by
  have hl := leftHalf_length k.length x h
  have hr := rightHalf_length k.length x h
  have hf := roundF_length (leftHalf k.length x) k nbits hl
  unfold classicRound
  cases last <;>
    simp only [if_true, if_false, Bool.false_eq_true, List.length_append,
      xorB_length _ _ (hf.trans (hl.trans hr.symm)), hf, hl] <;> omega

theorem v1Round_length (x k : Bytes) (cdir : CipherDir) (nbits : Nat) (h : x.length = 4 * k.length) :
    (v1Round x k cdir nbits).length = x.length := by
  obtain ⟨h₁, h₂, h₃, h₄⟩ := quarter_lengths k.length x h
  have hf := roundF_length (quarter1 k.length x) k nbits h₁
  have hg := roundF_length (quarter4 k.length x) k nbits h₄
  unfold v1Round
  cases cdir
  · simp only [List.length_append, xorB_length _ _ (hf.trans (h₁.trans h₂.symm)), hf, h₁, h₃, h₄]
    omega
  · simp only [List.length_append, xorB_length _ _ (hg.trans (h₄.trans h₁.symm)), hg, h₂, h₃, h₄]
    omega

theorem classicNet_length (keys : List Bytes) (x : Bytes) (nbits n : Nat) (hk : ∀ k ∈ keys, k.length = n)
    (hx : x.length = 2 * n) : (classicNet x keys nbits).length = x.length := by
  induction keys generalizing x with
  | nil => rfl
  | cons k ks ih =>
    have hkn := hk k List.mem_cons_self
    have hr := classicRound_length x k ks.isEmpty nbits (by omega)
    simp only [classicNet]
    rw [ih _ (fun k' h' => hk k' (List.mem_cons_of_mem _ h')) (by omega), hr]

theorem v1Net_length (keys : List Bytes) (x : Bytes) (cdir : CipherDir) (nbits n : Nat) (hk : ∀ k ∈ keys, k.length = n)
    (hx : x.length = 4 * n) : (v1Net x keys cdir nbits).length = x.length := by
  induction keys generalizing x with
  | nil => rfl
  | cons k ks ih =>
    have hkn := hk k List.mem_cons_self
    have hr := v1Round_length x k cdir nbits (by omega)
    simp only [v1Net]
    rw [ih _ (fun k' h' => hk k' (List.mem_cons_of_mem _ h')) (by omega), hr]

/-! A configured engine. -/

/-- The round keys all have the configured length (R17). -/
def KeysFit (cfg : Cfg) (rk : Vector Bytes Config.nrounds) : Prop :=
  ∀ i : Fin Config.nrounds, rk[i.val].length = cfg.klen.toNat

theorem mem_scheduleOf {rk : Vector Bytes Config.nrounds} {o : SchedOrd} {k : Bytes} (h : k ∈ scheduleOf rk o) :
    ∃ i : Fin Config.nrounds, k = rk[i.val] := by
  cases o <;> simp only [scheduleOf, List.mem_cons, List.not_mem_nil, or_false] at h <;>
    rcases h with h | h | h | h
  · exact ⟨0, h⟩
  · exact ⟨1, h⟩
  · exact ⟨2, h⟩
  · exact ⟨3, h⟩
  · exact ⟨3, h⟩
  · exact ⟨2, h⟩
  · exact ⟨1, h⟩
  · exact ⟨0, h⟩

/-- The network of a configured engine keeps the block length (R104). -/
theorem engineNet_length (cfg : Cfg) (rk : Vector Bytes Config.nrounds) (x : Bytes) (o : SchedOrd) (d : CipherDir)
    (hk : KeysFit cfg rk) (hx : x.length = blockBytes cfg) : (engineNet cfg rk x o d).length = blockBytes cfg := by
  have hkeys : ∀ k ∈ scheduleOf rk o, k.length = cfg.klen.toNat := by
    intro k hm
    obtain ⟨i, rfl⟩ := mem_scheduleOf hm
    exact hk i
  unfold blockBytes at hx ⊢
  cases hf : cfg.ftype <;> simp only [hf] at hx ⊢
  · simp only [engineNet, netOf, hf]
    rw [classicNet_length _ _ _ _ hkeys hx, hx]
  · simp only [engineNet, netOf, hf]
    rw [v1Net_length _ _ _ _ _ hkeys hx, hx]

/-- A block step gives one block and a running IV as long as the one it was given (R112 to R115). -/
theorem blockStep_length (cfg : Cfg) (rk : Vector Bytes Config.nrounds) (x : Bytes) (d : CipherDir) (ivr : Bytes)
    (hk : KeysFit cfg rk) (hx : x.length = blockBytes cfg) (hiv : cfg.mode ≠ .none → ivr.length = blockBytes cfg) :
    (blockStep cfg rk x d ivr).1.length = blockBytes cfg ∧ (blockStep cfg rk x d ivr).2.length = ivr.length := by
  have hnet := fun y o e hy => engineNet_length cfg rk y o e hk hy
  cases hm : cfg.mode
  · cases d <;> simp only [blockStep, hm] <;> exact ⟨hnet _ _ _ hx, trivial⟩
  · have hiv := hiv (by simp [hm])
    cases d <;> simp only [blockStep, hm]
    · have hxi := xorB_length x ivr (hx.trans hiv.symm)
      exact ⟨hnet _ _ _ (hxi.trans hx), (hnet _ _ _ (hxi.trans hx)).trans hiv.symm⟩
    · rw [xorB_length _ _ ((hnet _ _ _ hx).trans hiv.symm)]
      exact ⟨hnet _ _ _ hx, hx.trans hiv.symm⟩
  · have hiv := hiv (by simp [hm])
    cases d <;> simp only [blockStep, hm]
    · rw [xorB_length _ _ ((hnet _ _ _ hiv).trans hx.symm)]
      exact ⟨hnet _ _ _ hiv, (hnet _ _ _ hiv).trans hiv.symm⟩
    · rw [xorB_length _ _ ((hnet _ _ _ hiv).trans hx.symm)]
      exact ⟨hnet _ _ _ hiv, hx.trans hiv.symm⟩

/-! Padding and blocks (R116, R118). -/

/-- `Pad(n, B)` is a multiple of `B`, at least `n`, and less than `n + B` (R116). -/
theorem padLen_spec (n b : Nat) (hb : 0 < b) : b ∣ padLen n b ∧ n ≤ padLen n b ∧ padLen n b < n + b := by
  have h := Nat.div_add_mod (n + b - 1) b
  have hm := Nat.mod_lt (n + b - 1) hb
  refine ⟨Nat.dvd_mul_right _ _, ?_, ?_⟩ <;> unfold padLen <;> omega

/-- A multiple of `B` is its own padded length (R116). -/
theorem padLen_of_dvd (n b : Nat) (hb : 0 < b) (h : b ∣ n) : padLen n b = n := by
  obtain ⟨h₁, h₂, h₃⟩ := padLen_spec n b hb
  obtain ⟨c, hc⟩ := h₁
  obtain ⟨d, rfl⟩ := h
  rw [hc] at h₂ h₃ ⊢
  have hdc := Nat.le_of_mul_le_mul_left h₂ hb
  have : c < d + 1 := by
    apply Nat.lt_of_mul_lt_mul_left (a := b)
    rw [Nat.mul_add, Nat.mul_one]
    exact h₃
  have : c = d := by omega
  rw [this]

theorem padText_length (t : Bytes) (b : Nat) (hb : 0 < b) : (padText t b).length = padLen t.length b := by
  have := (padLen_spec t.length b hb).2.1
  simp only [padText, zeros, List.length_append, List.length_replicate]
  omega

@[simp] theorem blocksOf_length (b nb : Nat) (x : Bytes) : (blocksOf b nb x).length = nb := by
  induction nb generalizing x with
  | zero => rfl
  | succ nb ih => simp [blocksOf, ih]

/-- Every block of a text that is long enough has `b` bytes. -/
theorem blocksOf_block_length (b nb : Nat) (x : Bytes) (hx : nb * b ≤ x.length) : ∀ y ∈ blocksOf b nb x, y.length = b := by
  induction nb generalizing x with
  | zero => simp [blocksOf]
  | succ nb ih =>
    intro y hy
    have hmul : (nb + 1) * b = nb * b + b := by ring
    rcases List.mem_cons.mp hy with rfl | hy
    · rw [List.length_take]
      omega
    · exact ih _ (by rw [List.length_drop]; omega) y hy

/-- The blocks of a text put together are the text. -/
theorem blocksOf_flatten (b nb : Nat) (x : Bytes) (hx : x.length = nb * b) : (blocksOf b nb x).flatten = x := by
  induction nb generalizing x with
  | zero =>
    have : x = [] := List.eq_nil_of_length_eq_zero (by omega)
    simp [blocksOf, this]
  | succ nb ih =>
    have hmul : (nb + 1) * b = nb * b + b := by ring
    simp only [blocksOf, List.flatten_cons]
    rw [ih _ (by rw [List.length_drop]; omega), List.take_append_drop]

/-- Blocks of one length, put together and cut again. -/
theorem blocksOf_of_flatten (b : Nat) (ys : List Bytes) (h : ∀ y ∈ ys, y.length = b) :
    blocksOf b ys.length ys.flatten = ys := by
  induction ys with
  | nil => rfl
  | cons y ys ih =>
    have hy := h y List.mem_cons_self
    simp only [List.length_cons, List.flatten_cons, blocksOf]
    rw [List.take_append_of_le_length (by omega), List.take_of_length_le (by omega), List.drop_append,
      List.drop_of_length_le (by omega), List.nil_append, hy, Nat.sub_self, List.drop_zero,
      ih (fun z hz => h z (List.mem_cons_of_mem _ hz))]

theorem flatten_length_of_blocks (b : Nat) (ys : List Bytes) (h : ∀ y ∈ ys, y.length = b) :
    ys.flatten.length = ys.length * b := by
  induction ys with
  | nil => simp
  | cons y ys ih =>
    rw [List.flatten_cons, List.length_append, h y List.mem_cons_self,
      ih (fun z hz => h z (List.mem_cons_of_mem _ hz)), List.length_cons]
    ring

/-- The block loop gives as many blocks as it was given, each one block long, and keeps the IV's length (R118). -/
theorem chain_length (cfg : Cfg) (rk : Vector Bytes Config.nrounds) (d : CipherDir) (xs : List Bytes) (ivr : Bytes)
    (hk : KeysFit cfg rk) (hx : ∀ x ∈ xs, x.length = blockBytes cfg)
    (hiv : cfg.mode ≠ .none → ivr.length = blockBytes cfg) :
    (chain cfg rk d xs ivr).1.length = xs.length ∧ (∀ y ∈ (chain cfg rk d xs ivr).1, y.length = blockBytes cfg)
      ∧ (chain cfg rk d xs ivr).2.length = ivr.length := by
  induction xs generalizing ivr with
  | nil => simp [chain]
  | cons x xs ih =>
    obtain ⟨h₁, h₂⟩ := blockStep_length cfg rk x d ivr hk (hx x List.mem_cons_self) hiv
    obtain ⟨h₃, h₄, h₅⟩ := ih (blockStep cfg rk x d ivr).2 (fun y hy => hx y (List.mem_cons_of_mem _ hy))
      (fun hm => h₂.trans (hiv hm))
    simp only [chain, List.length_cons, h₃]
    refine ⟨trivial, fun y hy => ?_, h₅.trans h₂⟩
    rcases List.mem_cons.mp hy with rfl | hy
    · exact h₁
    · exact h₄ y hy

/-- The block loop by positions: the output blocks and the running IVs between them (R118). -/
theorem chain_spec (cfg : Cfg) (rk : Vector Bytes Config.nrounds) (d : CipherDir) (xs : List Bytes) (iv0 : Bytes) :
    ∃ out iv : Nat → Bytes, iv 0 = iv0
      ∧ (∀ j (h : j < xs.length), (out j, iv (j + 1)) = blockStep cfg rk xs[j] d (iv j))
      ∧ (∀ j, j < xs.length → (chain cfg rk d xs iv0).1[j]? = some (out j))
      ∧ (chain cfg rk d xs iv0).2 = iv xs.length := by
  induction xs generalizing iv0 with
  | nil => exact ⟨fun _ => [], fun _ => iv0, rfl, by simp, by simp, rfl⟩
  | cons x xs ih =>
    obtain ⟨out, iv, h₀, h₁, h₂, h₃⟩ := ih (blockStep cfg rk x d iv0).2
    refine ⟨fun j => match j with | 0 => (blockStep cfg rk x d iv0).1 | j + 1 => out j,
      fun j => match j with | 0 => iv0 | j + 1 => iv j, rfl, ?_, ?_, ?_⟩
    · intro j hj
      cases j with
      | zero => simp [h₀]
      | succ j => simpa using h₁ j (by simpa using hj)
    · intro j hj
      cases j with
      | zero => simp [chain]
      | succ j => simpa [chain] using h₂ j (by simpa using hj)
    · simpa [chain] using h₃

/-- Block `j` of a text. -/
theorem blocksOf_getElem? (b nb : Nat) (x : Bytes) (j : Nat) (hj : j < nb) :
    (blocksOf b nb x)[j]? = some ((x.drop (j * b)).take b) := by
  induction nb generalizing x j with
  | zero => omega
  | succ nb ih =>
    cases j with
    | zero => simp [blocksOf]
    | succ j =>
      simp only [blocksOf, List.getElem?_cons_succ]
      rw [ih _ _ (by omega), List.drop_drop]
      congr 4
      ring

/-- Byte `i` of block `j` in the blocks put together. -/
theorem flatten_getElem? (b : Nat) (ys : List Bytes) (h : ∀ y ∈ ys, y.length = b) (j i : Nat) (hj : j < ys.length)
    (hi : i < b) : ys.flatten[j * b + i]? = ys[j][i]? := by
  induction ys generalizing j with
  | nil => simp at hj
  | cons y ys ih =>
    have hy := h y List.mem_cons_self
    cases j with
    | zero => simp [List.getElem?_append, hy, hi]
    | succ j =>
      have hmul : (j + 1) * b = j * b + b := by ring
      have hsub : (j + 1) * b + i - y.length = j * b + i := by omega
      rw [List.flatten_cons, List.getElem?_append_right (by omega), hsub,
        ih (fun z hz => h z (List.mem_cons_of_mem _ hz)) j (by simpa using hj)]
      simp

/-- A byte of a padded text (R116). -/
theorem padText_getElem? (t : Bytes) (b i : Nat) (hi : i < padLen t.length b) :
    (padText t b)[i]? = some (if h : i < t.length then t[i] else 0) := by
  unfold padText zeros
  split
  · rename_i h
    rw [List.getElem?_append_left h, List.getElem?_eq_getElem h]
  · rename_i h
    rw [List.getElem?_append_right (by omega), List.getElem?_replicate, if_pos (by omega)]

/-- The padded text of a message cut into blocks (R118). -/
def messageBlocks (cfg : Cfg) (t : Bytes) : List Bytes :=
  blocksOf (blockBytes cfg) (padLen t.length (blockBytes cfg) / blockBytes cfg) (padText t (blockBytes cfg))

theorem message_out (cfg : Cfg) (rk : Vector Bytes Config.nrounds) (t : Bytes) (d : CipherDir) (iv : Bytes) :
    (message cfg rk t d iv).1 = (chain cfg rk d (messageBlocks cfg t) iv).1.flatten := rfl

theorem message_iv (cfg : Cfg) (rk : Vector Bytes Config.nrounds) (t : Bytes) (d : CipherDir) (iv : Bytes) :
    (message cfg rk t d iv).2.2 = (chain cfg rk d (messageBlocks cfg t) iv).2 := rfl

theorem message_length_encrypt (cfg : Cfg) (rk : Vector Bytes Config.nrounds) (t iv : Bytes) :
    (message cfg rk t .encrypt iv).2.1 = padLen t.length (blockBytes cfg) := rfl

theorem message_length_decrypt (cfg : Cfg) (rk : Vector Bytes Config.nrounds) (t iv : Bytes) :
    (message cfg rk t .decrypt iv).2.1 = trimLen (message cfg rk t .decrypt iv).1 := rfl

/-! Bounds on lengths that hold for every operand, also those no run reaches. -/

theorem slice_length_eq (x : Bytes) (a b : Nat) : (slice x a b).length = min (b - a) (x.length - a) := by simp [slice]

theorem xorB_length_le_left (a b : Bytes) : (xorB a b).length ≤ a.length := by simp [xorB]

theorem xorB_length_le_right (a b : Bytes) : (xorB a b).length ≤ b.length := by simp [xorB]

theorem classicRound_length_le (x k : Bytes) (last : Bool) (nbits : Nat) :
    (classicRound x k last nbits).length ≤ x.length := by
  have := xorB_length_le_right (roundF (leftHalf k.length x) k nbits) (rightHalf k.length x)
  have h₁ : (leftHalf k.length x).length = _ := slice_length_eq _ _ _
  have h₂ : (rightHalf k.length x).length = _ := slice_length_eq _ _ _
  unfold classicRound
  cases last <;> simp <;> omega

theorem v1Round_length_le (x k : Bytes) (cdir : CipherDir) (nbits : Nat) :
    (v1Round x k cdir nbits).length ≤ x.length := by
  have e₁ := xorB_length_le_right (roundF (quarter1 k.length x) k nbits) (quarter2 k.length x)
  have e₂ := xorB_length_le_right (roundF (quarter4 k.length x) k nbits) (quarter1 k.length x)
  have h₁ : (quarter1 k.length x).length = _ := slice_length_eq _ _ _
  have h₂ : (quarter2 k.length x).length = _ := slice_length_eq _ _ _
  have h₃ : (quarter3 k.length x).length = _ := slice_length_eq _ _ _
  have h₄ : (quarter4 k.length x).length = _ := slice_length_eq _ _ _
  unfold v1Round
  cases cdir <;> simp <;> omega

theorem netOf_length_le (ft : FType) (x : Bytes) (ks : List Bytes) (d : CipherDir) (nbits : Nat) :
    (netOf ft x ks d nbits).length ≤ x.length := by
  cases ft <;> simp only [netOf]
  · induction ks generalizing x with
    | nil => exact le_refl _
    | cons k ks ih => exact (ih _).trans (classicRound_length_le _ _ _ _)
  · induction ks generalizing x with
    | nil => exact le_refl _
    | cons k ks ih => exact (ih _).trans (v1Round_length_le _ _ _ _)

theorem blockStep_length_le (cfg : Cfg) (rk : Vector Bytes Config.nrounds) (x : Bytes) (d : CipherDir) (iv : Bytes) :
    (blockStep cfg rk x d iv).1.length ≤ x.length := by
  unfold blockStep
  split <;> simp only [engineNet]
  · exact netOf_length_le _ _ _ _ _
  · exact (netOf_length_le _ _ _ _ _).trans (xorB_length_le_left _ _)
  · exact (xorB_length_le_left _ _).trans (netOf_length_le _ _ _ _ _)
  · exact xorB_length_le_right _ _
  · exact xorB_length_le_right _ _

theorem chain_length_le (cfg : Cfg) (rk : Vector Bytes Config.nrounds) (d : CipherDir) (xs : List Bytes) (iv : Bytes) :
    (chain cfg rk d xs iv).1.flatten.length ≤ xs.flatten.length := by
  induction xs generalizing iv with
  | nil => simp [chain]
  | cons x xs ih =>
    simp only [chain, List.flatten_cons, List.length_append]
    have := blockStep_length_le cfg rk x d iv
    have := ih (blockStep cfg rk x d iv).2
    omega

theorem blocksOf_flatten_length_le (b nb : Nat) (x : Bytes) : (blocksOf b nb x).flatten.length ≤ nb * b := by
  induction nb generalizing x with
  | zero => simp [blocksOf]
  | succ nb ih =>
    simp only [blocksOf, List.flatten_cons, List.length_append, List.length_take]
    have := ih (x.drop b)
    have : (nb + 1) * b = nb * b + b := by ring
    omega

/-- The output of a message is never longer than its padded text. -/
theorem message_length_le (cfg : Cfg) (rk : Vector Bytes Config.nrounds) (t : Bytes) (d : CipherDir) (iv : Bytes) :
    (message cfg rk t d iv).1.length ≤ padLen t.length (blockBytes cfg) :=
  (chain_length_le _ _ _ _ _).trans ((blocksOf_flatten_length_le _ _ _).trans (Nat.div_mul_le_self _ _))

/-! The trimmed length (R117). -/

theorem trimLen_le (s : Bytes) : trimLen s ≤ s.length := by
  have := (List.dropWhile_suffix (l := s.reverse) (fun b : Byte => b == 0)).length_le
  simpa [trimLen] using this

/-- Everything past the trimmed length is null, and the byte before it is not (R117). -/
theorem trimLen_spec (s : Bytes) :
    (∀ j, trimLen s ≤ j → j < s.length → s[j]? = some 0) ∧ (trimLen s = 0 ∨ ∃ b, s[trimLen s - 1]? = some b ∧ b ≠ 0) := by
  induction s using List.reverseRecOn with
  | nil => simp [trimLen]
  | append_singleton s b ih =>
    by_cases hb : b = 0
    · have e : trimLen (s ++ [b]) = trimLen s := by simp [trimLen, hb]
      rw [e]
      refine ⟨fun j h₁ h₂ => ?_, ?_⟩
      · by_cases hj : j < s.length
        · rw [List.getElem?_append_left hj]
          exact ih.1 j h₁ hj
        · have : j = s.length := by simp at h₂; omega
          subst this
          simp [hb]
      · rcases ih.2 with h | ⟨c, hc, hne⟩
        · exact .inl h
        · refine .inr ⟨c, ?_, hne⟩
          rw [List.getElem?_append_left, hc]
          exact (List.getElem?_eq_some_iff.mp hc).1
    · have hb' : (b == 0) = false := by simpa using hb
      have e : trimLen (s ++ [b]) = s.length + 1 := by
        simp only [trimLen, List.reverse_append, List.reverse_singleton, List.singleton_append, List.dropWhile_cons,
          hb', Bool.false_eq_true, if_false, List.length_cons, List.length_reverse]
      rw [e]
      refine ⟨fun j h₁ h₂ => ?_, .inr ⟨b, by simp, hb⟩⟩
      simp at h₂
      omega

end Sys2Proof.Machine
end

