-- ==== Sys2Proof/Laws/Exec.lean ====
section
/-! SUPPORT. One inversion lemma per command: if its meaning answers a next state, that state is the raise of one error
kind, or the effect the command's rule writes, with the checks that passed. Later proofs cite these and do not unfold a
meaning again. -/

namespace Sys2Proof.Machine

/-- `u` is `s` after the command `i` raised `k` (R141). -/
def IsRaise (i : Instr) (s u : State) : Prop := ∃ k, u = { s with err := some k, ecw := encode i }

theorem whenReady_next {cw : Word} {s u : State} {k : Result} (h : whenReady cw s k = .next u) :
    (s.cfg.ready = false ∧ u = { s with err := some .badState, ecw := cw }) ∨ (s.cfg.ready = true ∧ k = .next u) := by
  unfold whenReady at h
  split at h
  · exact .inr ⟨‹_›, h⟩
  · exact .inl ⟨by simpa using ‹¬ s.cfg.ready = true›, by cases h; rfl⟩

theorem whenUnready_next {cw : Word} {s u : State} {k : Result} (h : whenUnready cw s k = .next u) :
    (s.cfg.ready = true ∧ u = { s with err := some .badState, ecw := cw }) ∨ (s.cfg.ready = false ∧ k = .next u) := by
  unfold whenUnready at h
  split at h
  · exact .inl ⟨‹_›, by cases h; rfl⟩
  · exact .inr ⟨by simpa using ‹¬ s.cfg.ready = true›, h⟩

theorem execNop_cases {s u : State} (h : exec .nop s = .next u) : u = s := by
  cases h; rfl

theorem execClrerr_cases {s u : State} (h : exec .clrerr s = .next u) : u = clearError s := by
  cases h; rfl

theorem execSrst_cases {s u : State} (h : exec .srst s = .next u) : u = resetRegisters s := by
  cases h; rfl

theorem execMov_cases {vd va : VReg} {s u : State} (h : exec (.mov vd va) s = .next u) :
    u = writeV s vd (readV s va) := by
  cases h; rfl

theorem execLdv_cases {vr : VReg} {addr len : Nat} {s u : State} (h : exec (.ldv vr addr len) s = .next u) :
    IsRaise (.ldv vr addr len) s u ∨ (addr + len ≤ Config.msize ∧ u = writeV s vr (memRead s addr len)) := by
  simp only [exec, execLdv] at h
  split at h
  · cases h; exact .inl ⟨_, rfl⟩
  · cases h; exact .inr ⟨by omega, rfl⟩

theorem execStv_cases {vr : VReg} {addr : Nat} {s u : State} (h : exec (.stv vr addr) s = .next u) :
    IsRaise (.stv vr addr) s u
      ∨ (addr + (readV s vr).length ≤ Config.msize ∧ u = memWrite s addr (readV s vr)) := by
  simp only [exec, execStv] at h
  split at h
  · cases h; exact .inl ⟨_, rfl⟩
  · cases h; exact .inr ⟨by omega, rfl⟩

theorem execSetmlen_cases {n : Nat} {s u : State} (h : exec (.setmlen n) s = .next u) :
    IsRaise (.setmlen n) s u ∨ (n ≤ Config.msize ∧ u = { s with mlen := BitVec.ofNat 13 n }) := by
  simp only [exec, execSetmlen] at h
  split at h
  · cases h; exact .inl ⟨_, rfl⟩
  · cases h; exact .inr ⟨by omega, rfl⟩

theorem execGetbit_cases {va : VReg} {pos idx : Nat} {s u : State} (h : exec (.getbit va pos idx) s = .next u) :
    IsRaise (.getbit va pos idx) s u
      ∨ (idx < 8 ∧ ∃ b, (readV s va)[pos]? = some b ∧ u = writeT s (bitNat b idx == 1)) := by
  simp only [exec, execGetbit] at h
  split at h
  · cases h; exact .inl ⟨_, rfl⟩
  · split at h
    · cases h; exact .inl ⟨_, rfl⟩
    · cases h; exact .inr ⟨by omega, _, ‹_›, rfl⟩

theorem execSetbit_cases {vd : VReg} {pos idx : Nat} {b : Bool} {s u : State}
    (h : exec (.setbit vd pos idx b) s = .next u) :
    IsRaise (.setbit vd pos idx b) s u
      ∨ (idx < 8 ∧ ∃ old, (readV s vd)[pos]? = some old
          ∧ u = writeV s vd ((readV s vd).set pos (setBitOf old idx b))) := by
  simp only [exec, execSetbit] at h
  split at h
  · cases h; exact .inl ⟨_, rfl⟩
  · split at h
    · cases h; exact .inl ⟨_, rfl⟩
    · cases h; exact .inr ⟨by omega, _, ‹_›, rfl⟩

theorem execLsh_cases {vd va : VReg} {d : ShiftDir} {s u : State} (h : exec (.lsh vd va d) s = .next u) :
    u = writeV s vd (lsh (readV s va) d) := by
  cases h; rfl

theorem execRot_cases {vd va : VReg} {d : ShiftDir} {c : Nat} {s u : State} (h : exec (.rot vd va d c) s = .next u) :
    IsRaise (.rot vd va d c) s u
      ∨ ((readV s va).length ≠ 0 ∧ u = writeV s vd (rot (readV s va) c d)) := by
  simp only [exec, execRot] at h
  split at h
  · cases h; exact .inl ⟨_, rfl⟩
  · cases h; exact .inr ⟨‹_›, rfl⟩

theorem execXor_cases {vd va vb : VReg} {s u : State} (h : exec (.xor vd va vb) s = .next u) :
    IsRaise (.xor vd va vb) s u
      ∨ ((readV s va).length = (readV s vb).length ∧ u = writeV s vd (xorB (readV s va) (readV s vb))) := by
  simp only [exec, execXor] at h
  split at h
  · cases h; exact .inl ⟨_, rfl⟩
  · cases h; exact .inr ⟨not_not.mp ‹_›, rfl⟩

theorem execInv_cases {vd va : VReg} {s u : State} (h : exec (.inv vd va) s = .next u) :
    u = writeV s vd (invB (readV s va)) := by
  cases h; rfl

theorem execMadd_cases {vd va vb : VReg} {n : Nat} {s u : State} (h : exec (.madd vd va vb n) s = .next u) :
    IsRaise (.madd vd va vb n) s u
      ∨ ((readV s va).length = (readV s vb).length ∧ u = writeV s vd (modCombine (readV s va) (readV s vb) n)) := by
  simp only [exec, execMadd] at h
  split at h
  · cases h; exact .inl ⟨_, rfl⟩
  · cases h; exact .inr ⟨not_not.mp ‹_›, rfl⟩

theorem execInitr_cases {n : Nat} {ft : FType} {mf : ModeField} {s u : State}
    (h : exec (.initr n ft mf) s = .next u) :
    IsRaise (.initr n ft mf) s u
      ∨ (s.cfg.ready = false ∧ badKeyLen n = false ∧ ∃ m, modeOf mf = some m
          ∧ u = construct (rand s n).1 ft m (blockBytes (constructedCfg (rand s n).1 ft m)) (rand s n).2) := by
  simp only [exec, execInitr] at h
  rcases whenUnready_next h with ⟨_, h⟩ | ⟨hr, h⟩
  · exact .inl ⟨_, h⟩
  · split at h
    · cases h; exact .inl ⟨_, rfl⟩
    · split at h
      · cases h; exact .inl ⟨_, rfl⟩
      · cases h; exact .inr ⟨hr, by simpa using ‹¬ badKeyLen n = true›, _, ‹_›, rfl⟩

theorem execInitk_cases {va : VReg} {ft : FType} {mf : ModeField} {s u : State}
    (h : exec (.initk va ft mf) s = .next u) :
    IsRaise (.initk va ft mf) s u
      ∨ (s.cfg.ready = false ∧ badKeyLen (readV s va).length = false ∧ ∃ m, modeOf mf = some m
          ∧ u = construct (readV s va) ft m (directIvLen (blockBytes (constructedCfg (readV s va) ft m)) m) s) := by
  simp only [exec, execInitk] at h
  rcases whenUnready_next h with ⟨_, h⟩ | ⟨hr, h⟩
  · exact .inl ⟨_, h⟩
  · split at h
    · cases h; exact .inl ⟨_, rfl⟩
    · split at h
      · cases h; exact .inl ⟨_, rfl⟩
      · cases h; exact .inr ⟨hr, by simpa using ‹¬ badKeyLen _ = true›, _, ‹_›, rfl⟩

theorem execRkey_cases {vd : VReg} {o : SchedOrd} {i : Fin Config.nrounds} {s u : State}
    (h : exec (.rkey vd o i) s = .next u) :
    IsRaise (.rkey vd o i) s u ∨ (s.cfg.ready = true ∧ u = writeV s vd (scheduleKey s.rk i o)) := by
  simp only [exec, execRkey] at h
  rcases whenReady_next h with ⟨_, h⟩ | ⟨hr, h⟩
  · exact .inl ⟨_, h⟩
  · cases h; exact .inr ⟨hr, rfl⟩

theorem execRf_cases {vd va vb : VReg} {n : Nat} {s u : State} (h : exec (.rf vd va vb n) s = .next u) :
    IsRaise (.rf vd va vb n) s u
      ∨ ((readV s va).length = (readV s vb).length ∧ (readV s va).length ≠ 0
          ∧ u = writeV s vd (roundF (readV s va) (readV s vb) n)) := by
  simp only [exec, execRf] at h
  split at h
  · cases h; exact .inl ⟨_, rfl⟩
  · split at h
    · cases h; exact .inl ⟨_, rfl⟩
    · cases h; exact .inr ⟨not_not.mp ‹_›, ‹_›, rfl⟩

theorem execCrnd_cases {vd va vb : VReg} {l : Bool} {s u : State} (h : exec (.crnd vd va vb l) s = .next u) :
    IsRaise (.crnd vd va vb l) s u
      ∨ ((readV s vb).length ≠ 0 ∧ (readV s va).length = 2 * (readV s vb).length
          ∧ u = writeV s vd (classicRound (readV s va) (readV s vb) l (8 * (readV s va).length))) := by
  simp only [exec, execCrnd] at h
  split at h
  · cases h; exact .inl ⟨_, rfl⟩
  · rename_i hc
    cases h; exact .inr ⟨fun h => hc (.inl h), not_not.mp (fun h => hc (.inr h)), rfl⟩

theorem execVrnd_cases {vd va vb : VReg} {d : CipherDir} {s u : State} (h : exec (.vrnd vd va vb d) s = .next u) :
    IsRaise (.vrnd vd va vb d) s u
      ∨ ((readV s vb).length ≠ 0 ∧ (readV s va).length = 4 * (readV s vb).length
          ∧ u = writeV s vd (v1Round (readV s va) (readV s vb) d (8 * (readV s va).length))) := by
  simp only [exec, execVrnd] at h
  split at h
  · cases h; exact .inl ⟨_, rfl⟩
  · rename_i hc
    cases h; exact .inr ⟨fun h => hc (.inl h), not_not.mp (fun h => hc (.inr h)), rfl⟩

theorem execNet_cases {vd va : VReg} {d : CipherDir} {o : SchedOrd} {s u : State}
    (h : exec (.net vd va d o) s = .next u) :
    IsRaise (.net vd va d o) s u
      ∨ (s.cfg.ready = true ∧ (readV s va).length = blockBytes s.cfg
          ∧ u = writeV s vd (engineNet s.cfg s.rk (readV s va) o d)) := by
  simp only [exec, execNet] at h
  rcases whenReady_next h with ⟨_, h⟩ | ⟨hr, h⟩
  · exact .inl ⟨_, h⟩
  · split at h
    · cases h; exact .inl ⟨_, rfl⟩
    · cases h; exact .inr ⟨hr, not_not.mp ‹_›, rfl⟩

theorem execIvset_cases {va : VReg} {s u : State} (h : exec (.ivset va) s = .next u) :
    IsRaise (.ivset va) s u
      ∨ (s.cfg.ready = true ∧ s.cfg.mode ≠ .none ∧ (readV s va).length = blockBytes s.cfg
          ∧ u = { s with iv0 := readV s va, ivr := readV s va }) := by
  simp only [exec, execIvset] at h
  rcases whenReady_next h with ⟨_, h⟩ | ⟨hr, h⟩
  · exact .inl ⟨_, h⟩
  · split at h
    · cases h; exact .inl ⟨_, rfl⟩
    · split at h
      · cases h; exact .inl ⟨_, rfl⟩
      · cases h; exact .inr ⟨hr, ‹_›, not_not.mp ‹_›, rfl⟩

theorem execIvget_cases {vd : VReg} {i : IvSel} {s u : State} (h : exec (.ivget vd i) s = .next u) :
    IsRaise (.ivget vd i) s u
      ∨ (s.cfg.ready = true ∧ (ivOf s i).length ≤ Config.vmax ∧ u = writeV s vd (ivOf s i)) := by
  simp only [exec, execIvget] at h
  rcases whenReady_next h with ⟨_, h⟩ | ⟨hr, h⟩
  · exact .inl ⟨_, h⟩
  · split at h
    · cases h; exact .inl ⟨_, rfl⟩
    · cases h; exact .inr ⟨hr, by omega, rfl⟩

theorem execMstart_cases {s u : State} (h : exec .mstart s = .next u) :
    IsRaise .mstart s u ∨ (s.cfg.ready = true ∧ u = { s with ivr := s.iv0 }) := by
  simp only [exec, execMstart] at h
  rcases whenReady_next h with ⟨_, h⟩ | ⟨hr, h⟩
  · exact .inl ⟨_, h⟩
  · cases h; exact .inr ⟨hr, rfl⟩

theorem execBlk_cases {vd va : VReg} {d : CipherDir} {s u : State} (h : exec (.blk vd va d) s = .next u) :
    IsRaise (.blk vd va d) s u
      ∨ (s.cfg.ready = true ∧ (readV s va).length = blockBytes s.cfg
          ∧ (s.cfg.mode ≠ .none → s.ivr.length = blockBytes s.cfg)
          ∧ u = { writeV s vd (blockStep s.cfg s.rk (readV s va) d s.ivr).1 with
                    ivr := (blockStep s.cfg s.rk (readV s va) d s.ivr).2 }) := by
  simp only [exec, execBlk] at h
  rcases whenReady_next h with ⟨_, h⟩ | ⟨hr, h⟩
  · exact .inl ⟨_, h⟩
  · split at h
    · cases h; exact .inl ⟨_, rfl⟩
    · split at h
      · cases h; exact .inl ⟨_, rfl⟩
      · rename_i hx hiv
        cases h
        exact .inr ⟨hr, not_not.mp hx, fun hm => not_not.mp (fun hl => hiv ⟨hm, hl⟩), rfl⟩

theorem execMsg_cases {d : CipherDir} {s u : State} (h : exec (.msg d) s = .next u) :
    IsRaise (.msg d) s u
      ∨ (s.cfg.ready = true ∧ padLen s.mlen.toNat (blockBytes s.cfg) ≤ Config.msize
          ∧ (padLen s.mlen.toNat (blockBytes s.cfg) > 0 → s.cfg.mode ≠ .none → s.iv0.length = blockBytes s.cfg)
          ∧ u = { memWrite s 0 (message s.cfg s.rk (memRead s 0 s.mlen.toNat) d s.iv0).1 with
                    ivr := (message s.cfg s.rk (memRead s 0 s.mlen.toNat) d s.iv0).2.2
                    mlen := BitVec.ofNat 13 (message s.cfg s.rk (memRead s 0 s.mlen.toNat) d s.iv0).2.1 }) := by
  simp only [exec, execMsg] at h
  rcases whenReady_next h with ⟨_, h⟩ | ⟨hr, h⟩
  · exact .inl ⟨_, h⟩
  · split at h
    · cases h; exact .inl ⟨_, rfl⟩
    · split at h
      · cases h; exact .inl ⟨_, rfl⟩
      · rename_i hp hiv
        cases h
        exact .inr ⟨hr, by omega, fun h₀ hm => not_not.mp (fun hl => hiv ⟨h₀, hm, hl⟩), rfl⟩

/-! The other direction, for the commands whose checks lie inside step 3 of R55: with the checks passed, the effect. -/

theorem execRkey_ok {vd : VReg} {o : SchedOrd} {i : Fin Config.nrounds} {s : State} (hr : s.cfg.ready = true) :
    exec (.rkey vd o i) s = .next (writeV s vd (scheduleKey s.rk i o)) := if_pos hr

theorem execNet_ok {vd va : VReg} {d : CipherDir} {o : SchedOrd} {s : State} (hr : s.cfg.ready = true)
    (hx : (readV s va).length = blockBytes s.cfg) :
    exec (.net vd va d o) s = .next (writeV s vd (engineNet s.cfg s.rk (readV s va) o d)) :=
  (if_pos hr).trans (if_neg (not_not.mpr hx))

theorem execIvset_ok {va : VReg} {s : State} (hr : s.cfg.ready = true) (hm : s.cfg.mode ≠ .none)
    (hx : (readV s va).length = blockBytes s.cfg) :
    exec (.ivset va) s = .next { s with iv0 := readV s va, ivr := readV s va } :=
  (if_pos hr).trans ((if_neg hm).trans (if_neg (not_not.mpr hx)))

theorem execIvget_ok {vd : VReg} {i : IvSel} {s : State} (hr : s.cfg.ready = true)
    (hl : (ivOf s i).length ≤ Config.vmax) : exec (.ivget vd i) s = .next (writeV s vd (ivOf s i)) :=
  (if_pos hr).trans (if_neg (Nat.not_lt.mpr hl))

theorem execMstart_ok {s : State} (hr : s.cfg.ready = true) : exec .mstart s = .next { s with ivr := s.iv0 } :=
  if_pos hr

theorem execBlk_ok {vd va : VReg} {d : CipherDir} {s : State} (hr : s.cfg.ready = true)
    (hx : (readV s va).length = blockBytes s.cfg) (hiv : s.cfg.mode ≠ .none → s.ivr.length = blockBytes s.cfg) :
    exec (.blk vd va d) s
      = .next { writeV s vd (blockStep s.cfg s.rk (readV s va) d s.ivr).1 with
                  ivr := (blockStep s.cfg s.rk (readV s va) d s.ivr).2 } :=
  (if_pos hr).trans ((if_neg (not_not.mpr hx)).trans (if_neg (fun h => h.2 (hiv h.1))))

theorem execMsg_ok {d : CipherDir} {s : State} (hr : s.cfg.ready = true)
    (hp : padLen s.mlen.toNat (blockBytes s.cfg) ≤ Config.msize)
    (hiv : padLen s.mlen.toNat (blockBytes s.cfg) > 0 → s.cfg.mode ≠ .none → s.iv0.length = blockBytes s.cfg) :
    exec (.msg d) s
      = .next { memWrite s 0 (message s.cfg s.rk (memRead s 0 s.mlen.toNat) d s.iv0).1 with
                  ivr := (message s.cfg s.rk (memRead s 0 s.mlen.toNat) d s.iv0).2.2
                  mlen := BitVec.ofNat 13 (message s.cfg s.rk (memRead s 0 s.mlen.toNat) d s.iv0).2.1 } :=
  (if_pos hr).trans ((if_neg (Nat.not_lt.mpr hp)).trans (if_neg (fun h => h.2.2 (hiv h.1 h.2.1))))

/-! Construction (R82): what it writes, whatever the draw gives. -/

/-- The IV a construction leaves, for the draw it is given. -/
def constructIv (m : Mode) (ivlen : Nat) (s : State) : Bytes :=
  match m with
  | .none => []
  | .cbc => randBytes s.draws ivlen
  | .cfb => randBytes s.draws ivlen

/-- The bytes a construction draws for its IV. -/
def constructDraw (m : Mode) (ivlen : Nat) : Nat :=
  match m with
  | .none => 0
  | .cbc => ivlen
  | .cfb => ivlen

theorem construct_eq (k : Bytes) (ft : FType) (m : Mode) (ivlen : Nat) (s : State) :
    construct k ft m ivlen s
      = { install k ft m (constructIv m ivlen s) s with draws := s.draws + constructDraw m ivlen } := by
  cases m <;> rfl

@[simp] theorem randBytes_length (start n : Nat) : (randBytes start n).length = n := by simp [randBytes]

theorem badKeyLen_false {n : Nat} : badKeyLen n = false ↔ n % 2 = 0 ∧ 0 < n ∧ n ≤ Config.kmax := by
  simp only [badKeyLen, Bool.or_eq_false_iff, beq_eq_false_iff_ne, decide_eq_false_iff_not, ne_eq]
  constructor
  · rintro ⟨⟨h₁, h₂⟩, h₃⟩; omega
  · rintro ⟨h₁, h₂, h₃⟩; omega

end Sys2Proof.Machine
end

