-- ==== Sys2Proof/Laws/Invariant.lean ====
section
/-! SUPPORT. What the invariant of R28 gives, and that the updates most commands end in keep it. -/

namespace Sys2Proof.Machine

/-- The round keys of a constructed engine have the key's length (R28 (b)). -/
theorem Inv.keysFit {s : State} (hi : Inv s) (hr : s.cfg.ready = true) : KeysFit s.cfg s.rk := by
  intro i
  rw [hi.schedule hr i, ror_length, (hi.keyLength hr).1]

/-- The block of a constructed engine has at least 1 byte and at most `4 * KMAX` (R4, R15, R28 (b)). -/
theorem Inv.blockBytes_bounds {s : State} (hi : Inv s) (hr : s.cfg.ready = true) :
    0 < blockBytes s.cfg ∧ blockBytes s.cfg ≤ 248 := by
  obtain ⟨_, _, h₁, h₂⟩ := hi.keyLength hr
  change s.cfg.klen.toNat ≤ 62 at h₂
  unfold blockBytes
  cases s.cfg.ftype <;> simp only <;> omega

/-- A block fits in a sequence register. -/
theorem Inv.blockBytes_le_vmax {s : State} (hi : Inv s) (hr : s.cfg.ready = true) :
    blockBytes s.cfg ≤ Config.vmax :=
  le_trans (hi.blockBytes_bounds hr).2 (show (248 : Nat) ≤ 255 by norm_num)

theorem Inv.writeV {s : State} (hi : Inv s) (i : VReg) (x : Bytes) (hx : x.length ≤ Config.vmax) :
    Inv (writeV s i x) := by
  refine ⟨hi.unconstructed, hi.keyLength, hi.schedule, hi.ivLength, hi.runningIv, hi.messageLength, fun r => ?_,
    hi.errorWord, hi.memory⟩
  rw [readV_writeV]
  split
  · exact hx
  · exact hi.registerLength r

theorem Inv.raise {s : State} (hi : Inv s) (k : ErrKind) (cw : Word) : Inv { s with err := some k, ecw := cw } :=
  ⟨hi.unconstructed, hi.keyLength, hi.schedule, hi.ivLength, hi.runningIv, hi.messageLength, hi.registerLength,
    by simp, hi.memory⟩

/-- `RoundKeys(key)[i] = Ror(key, 7*i)` (R80). -/
theorem roundKeys_getElem (k : Bytes) (i : Fin Config.nrounds) : (roundKeys k)[i.val] = ror k (7 * i.val) := by
  obtain ⟨i, hi⟩ := i
  have h : i = 0 ∨ i = 1 ∨ i = 2 ∨ i = 3 := by
    have : i < 4 := hi
    omega
  rcases h with rfl | rfl | rfl | rfl <;> rfl

end Sys2Proof.Machine
end

