-- ==== Sys2Proof/Laws/PerInstr.lean ====
section
/-! SUPPORT. One statement about the syntax of every command: the word of a well-formed command carries, in its bits
31 to 24, the opcode of the command's own row of the opcode table (R45, R52). One lemma per constructor. -/

namespace Sys2Proof.Laws.OpcodeOfRow

/-- The opcode field of the command's word is the opcode of its row. -/
def Statement (i : Instr) : Prop :=
  wellFormed i = true → opField (encode i) = field (tableRow i).fixed 31 24

theorem nop : Statement .nop := by
  intro _
  decide

theorem clrerr : Statement .clrerr := by
  intro _
  decide

theorem srst : Statement .srst := by
  intro _
  decide

theorem mov (vd : VReg) (va : VReg) : Statement (.mov vd va) := by
  intro _
  have h_vd := vreg_lt vd
  have h_va := vreg_lt va
  have e : field (tableRow (.mov vd va)).fixed 31 24 = 0x08 :=
    show field 0x08000000 31 24 = 0x08 by decide
  exact (field_of_toNat (formatI_toNat (by omega) (by omega) (by omega) (by omega))
    (by omega)).trans e.symm

theorem ldv (vr : VReg) (addr : Nat) (len : Nat) : Statement (.ldv vr addr len) := by
  intro h
  simp only [wellFormed, Bool.and_eq_true, decide_eq_true_eq] at h
  have h_vr := vreg_lt vr
  have e : field (tableRow (.ldv vr addr len)).fixed 31 24 = 0x09 :=
    show field 0x09000000 31 24 = 0x09 by decide
  exact (field_of_toNat (formatM_toNat (by omega) (by omega) (by omega) (by omega))
    (by omega)).trans e.symm

theorem stv (vr : VReg) (addr : Nat) : Statement (.stv vr addr) := by
  intro h
  simp only [wellFormed, decide_eq_true_eq] at h
  have h_vr := vreg_lt vr
  have e : field (tableRow (.stv vr addr)).fixed 31 24 = 0x0A :=
    show field 0x0A000000 31 24 = 0x0A by decide
  exact (field_of_toNat (formatM_toNat (by omega) (by omega) (by omega) (by omega))
    (by omega)).trans e.symm

theorem setmlen (n : Nat) : Statement (.setmlen n) := by
  intro h
  simp only [wellFormed, decide_eq_true_eq] at h
  have e : field (tableRow (.setmlen n)).fixed 31 24 = 0x0B :=
    show field 0x0B000000 31 24 = 0x0B by decide
  exact (field_of_toNat (formatI_toNat (by omega) (by omega) (by omega) (by omega))
    (by omega)).trans e.symm

theorem getbit (va : VReg) (pos : Nat) (idx : Nat) : Statement (.getbit va pos idx) := by
  intro h
  simp only [wellFormed, Bool.and_eq_true, decide_eq_true_eq] at h
  have h_va := vreg_lt va
  have e : field (tableRow (.getbit va pos idx)).fixed 31 24 = 0x10 :=
    show field 0x10000000 31 24 = 0x10 by decide
  exact (field_of_toNat (formatB_toNat (by omega) (by omega) (by omega) (by omega) (by omega) (by omega))
    (by omega)).trans e.symm

theorem setbit (vd : VReg) (pos : Nat) (idx : Nat) (b : Bool) : Statement (.setbit vd pos idx b) := by
  intro h
  simp only [wellFormed, Bool.and_eq_true, decide_eq_true_eq] at h
  have h_vd := vreg_lt vd
  have h_b := flagCode_lt b
  have e : field (tableRow (.setbit vd pos idx b)).fixed 31 24 = 0x11 :=
    show field 0x11000000 31 24 = 0x11 by decide
  exact (field_of_toNat (formatB_toNat (by omega) (by omega) (by omega) (by omega) (by omega) (by omega))
    (by omega)).trans e.symm

theorem lsh (vd : VReg) (va : VReg) (d : ShiftDir) : Statement (.lsh vd va d) := by
  intro _
  have h_vd := vreg_lt vd
  have h_va := vreg_lt va
  have h_d := shiftDir_code_lt d
  have e : field (tableRow (.lsh vd va d)).fixed 31 24 = 0x12 :=
    show field 0x12000000 31 24 = 0x12 by decide
  exact (field_of_toNat (formatS_toNat (by omega) (by omega) (by omega) (by omega) (by omega))
    (by omega)).trans e.symm

theorem rot (vd : VReg) (va : VReg) (d : ShiftDir) (count : Nat) : Statement (.rot vd va d count) := by
  intro h
  simp only [wellFormed, decide_eq_true_eq] at h
  have h_vd := vreg_lt vd
  have h_va := vreg_lt va
  have h_d := shiftDir_code_lt d
  have e : field (tableRow (.rot vd va d count)).fixed 31 24 = 0x13 :=
    show field 0x13000000 31 24 = 0x13 by decide
  exact (field_of_toNat (formatS_toNat (by omega) (by omega) (by omega) (by omega) (by omega))
    (by omega)).trans e.symm

theorem xor (vd : VReg) (va : VReg) (vb : VReg) : Statement (.xor vd va vb) := by
  intro _
  have h_vd := vreg_lt vd
  have h_va := vreg_lt va
  have h_vb := vreg_lt vb
  have e : field (tableRow (.xor vd va vb)).fixed 31 24 = 0x18 :=
    show field 0x18000000 31 24 = 0x18 by decide
  exact (field_of_toNat (formatR_toNat (by omega) (by omega) (by omega) (by omega) (by omega))
    (by omega)).trans e.symm

theorem inv (vd : VReg) (va : VReg) : Statement (.inv vd va) := by
  intro _
  have h_vd := vreg_lt vd
  have h_va := vreg_lt va
  have e : field (tableRow (.inv vd va)).fixed 31 24 = 0x19 :=
    show field 0x19000000 31 24 = 0x19 by decide
  exact (field_of_toNat (formatR_toNat (by omega) (by omega) (by omega) (by omega) (by omega))
    (by omega)).trans e.symm

theorem madd (vd : VReg) (va : VReg) (vb : VReg) (nbits : Nat) : Statement (.madd vd va vb nbits) := by
  intro h
  simp only [wellFormed, decide_eq_true_eq] at h
  have h_vd := vreg_lt vd
  have h_va := vreg_lt va
  have h_vb := vreg_lt vb
  have e : field (tableRow (.madd vd va vb nbits)).fixed 31 24 = 0x1A :=
    show field 0x1A000000 31 24 = 0x1A by decide
  exact (field_of_toNat (formatR_toNat (by omega) (by omega) (by omega) (by omega) (by omega))
    (by omega)).trans e.symm

theorem initr (klen : Nat) (ft : FType) (mf : ModeField) : Statement (.initr klen ft mf) := by
  intro h
  simp only [wellFormed, decide_eq_true_eq] at h
  have h_ft := ftype_code_lt ft
  have h_mf := modeField_code_lt mf
  have e : field (tableRow (.initr klen ft mf)).fixed 31 24 = 0x20 :=
    show field 0x20000000 31 24 = 0x20 by decide
  exact (field_of_toNat (formatI_toNat (by omega) (by omega) (by omega) (by omega))
    (by omega)).trans e.symm

theorem initk (va : VReg) (ft : FType) (mf : ModeField) : Statement (.initk va ft mf) := by
  intro _
  have h_va := vreg_lt va
  have h_ft := ftype_code_lt ft
  have h_mf := modeField_code_lt mf
  have e : field (tableRow (.initk va ft mf)).fixed 31 24 = 0x21 :=
    show field 0x21000000 31 24 = 0x21 by decide
  exact (field_of_toNat (formatI_toNat (by omega) (by omega) (by omega) (by omega))
    (by omega)).trans e.symm

theorem rkey (vd : VReg) (o : SchedOrd) (j : Fin Config.nrounds) : Statement (.rkey vd o j) := by
  intro _
  have h_vd := vreg_lt vd
  have h_o := schedOrd_code_lt o
  have h_j : j.val < 4 := j.isLt
  have e : field (tableRow (.rkey vd o j)).fixed 31 24 = 0x22 :=
    show field 0x22000000 31 24 = 0x22 by decide
  exact (field_of_toNat (formatI_toNat (by omega) (by omega) (by omega) (by omega))
    (by omega)).trans e.symm

theorem rf (vd : VReg) (va : VReg) (vb : VReg) (nbits : Nat) : Statement (.rf vd va vb nbits) := by
  intro h
  simp only [wellFormed, decide_eq_true_eq] at h
  have h_vd := vreg_lt vd
  have h_va := vreg_lt va
  have h_vb := vreg_lt vb
  have e : field (tableRow (.rf vd va vb nbits)).fixed 31 24 = 0x28 :=
    show field 0x28000000 31 24 = 0x28 by decide
  exact (field_of_toNat (formatR_toNat (by omega) (by omega) (by omega) (by omega) (by omega))
    (by omega)).trans e.symm

theorem crnd (vd : VReg) (va : VReg) (vb : VReg) (last : Bool) : Statement (.crnd vd va vb last) := by
  intro _
  have h_vd := vreg_lt vd
  have h_va := vreg_lt va
  have h_vb := vreg_lt vb
  have h_last := flagCode_lt last
  have e : field (tableRow (.crnd vd va vb last)).fixed 31 24 = 0x30 :=
    show field 0x30000000 31 24 = 0x30 by decide
  exact (field_of_toNat (formatR_toNat (by omega) (by omega) (by omega) (by omega) (by omega))
    (by omega)).trans e.symm

theorem vrnd (vd : VReg) (va : VReg) (vb : VReg) (d : CipherDir) : Statement (.vrnd vd va vb d) := by
  intro _
  have h_vd := vreg_lt vd
  have h_va := vreg_lt va
  have h_vb := vreg_lt vb
  have h_d := cipherDir_code_lt d
  have e : field (tableRow (.vrnd vd va vb d)).fixed 31 24 = 0x31 :=
    show field 0x31000000 31 24 = 0x31 by decide
  exact (field_of_toNat (formatR_toNat (by omega) (by omega) (by omega) (by omega) (by omega))
    (by omega)).trans e.symm

theorem net (vd : VReg) (va : VReg) (d : CipherDir) (o : SchedOrd) : Statement (.net vd va d o) := by
  intro _
  have h_vd := vreg_lt vd
  have h_va := vreg_lt va
  have h_d := cipherDir_code_lt d
  have h_o := schedOrd_code_lt o
  have e : field (tableRow (.net vd va d o)).fixed 31 24 = 0x32 :=
    show field 0x32000000 31 24 = 0x32 by decide
  exact (field_of_toNat (formatI_toNat (by omega) (by omega) (by omega) (by omega))
    (by omega)).trans e.symm

theorem ivset (va : VReg) : Statement (.ivset va) := by
  intro _
  have h_va := vreg_lt va
  have e : field (tableRow (.ivset va)).fixed 31 24 = 0x38 :=
    show field 0x38000000 31 24 = 0x38 by decide
  exact (field_of_toNat (formatI_toNat (by omega) (by omega) (by omega) (by omega))
    (by omega)).trans e.symm

theorem ivget (vd : VReg) (sel : IvSel) : Statement (.ivget vd sel) := by
  intro _
  have h_vd := vreg_lt vd
  have h_sel := ivSel_code_lt sel
  have e : field (tableRow (.ivget vd sel)).fixed 31 24 = 0x39 :=
    show field 0x39000000 31 24 = 0x39 by decide
  exact (field_of_toNat (formatI_toNat (by omega) (by omega) (by omega) (by omega))
    (by omega)).trans e.symm

theorem mstart : Statement .mstart := by
  intro _
  decide

theorem blk (vd : VReg) (va : VReg) (d : CipherDir) : Statement (.blk vd va d) := by
  intro _
  have h_vd := vreg_lt vd
  have h_va := vreg_lt va
  have h_d := cipherDir_code_lt d
  have e : field (tableRow (.blk vd va d)).fixed 31 24 = 0x3B :=
    show field 0x3B000000 31 24 = 0x3B by decide
  exact (field_of_toNat (formatI_toNat (by omega) (by omega) (by omega) (by omega))
    (by omega)).trans e.symm

theorem msg (d : CipherDir) : Statement (.msg d) := by
  intro _
  have h_d := cipherDir_code_lt d
  have e : field (tableRow (.msg d)).fixed 31 24 = 0x3C :=
    show field 0x3C000000 31 24 = 0x3C by decide
  exact (field_of_toNat (formatI_toNat (by omega) (by omega) (by omega) (by omega))
    (by omega)).trans e.symm

end Sys2Proof.Laws.OpcodeOfRow
end

