-- ==== Sys2Proof/Machine/Assembler.lean ====
section
/-! DEFINITION. The assembler syntax of spec/30_encoding.md: the text of a command (R57), the pseudo-instructions and
their expansions (R58), and reading a line of text back. It is outside the engine; the host uses it to write words.
What R57 leaves open about the text (blanks, case, bounds, spellings of a number) is DESIGN CHOICE, log entry 10. -/

namespace Sys2Proof

/-- The pseudo-instructions of R58. -/
inductive Pseudo where
  | rol (vd va : VReg) (n : Nat)
  | ror (vd va : VReg) (n : Nat)
  | shl (vd va : VReg)
  | shr (vd va : VReg)
  | not (vd va : VReg)
  | clr (vd : VReg)
  | enc
  | dec
deriving DecidableEq, Repr

/-- The one command a pseudo-instruction expands to (R58). -/
def Pseudo.expand : Pseudo → Instr
  | .rol vd va n => .rot vd va .left n
  | .ror vd va n => .rot vd va .right n
  | .shl vd va => .lsh vd va .left
  | .shr vd va => .lsh vd va .right
  | .not vd va => .inv vd va
  | .clr vd => .ldv vd 0 0
  | .enc => .msg .encrypt
  | .dec => .msg .decrypt

/-! Printing (R57). -/

def asmReg (r : VReg) : String := "V" ++ toString r.val

def asmBit (b : Bool) : String := if b then "1" else "0"

def asmShiftDir : ShiftDir → String
  | .left => "L"
  | .right => "R"

def asmCipherDir : CipherDir → String
  | .encrypt => "E"
  | .decrypt => "D"

def asmOrd : SchedOrd → String
  | .forward => "FWD"
  | .reverse => "REV"

def asmFType : FType → String
  | .classic => "CLASSIC"
  | .variant1 => "VARIANT1"

def asmMode : ModeField → String
  | .none => "NONE"
  | .cbc => "CBC"
  | .cfb => "CFB"
  | .unrecognised => "3"

def asmSel : IvSel → String
  | .iv0 => "IV0"
  | .ivr => "IVR"

/-- Mnemonic, then operands separated by commas. -/
def asmLine (mnemonic : String) : List String → String
  | [] => mnemonic
  | ops => mnemonic ++ " " ++ String.intercalate ", " ops

/-- The text of a command, numbers in decimal (R57). -/
def asmText : Instr → String
  | .nop => asmLine "NOP" []
  | .clrerr => asmLine "CLRERR" []
  | .srst => asmLine "SRST" []
  | .mov vd va => asmLine "MOV" [asmReg vd, asmReg va]
  | .ldv vr addr len => asmLine "LDV" [asmReg vr, toString addr, toString len]
  | .stv vr addr => asmLine "STV" [asmReg vr, toString addr]
  | .setmlen n => asmLine "SETMLEN" [toString n]
  | .getbit va pos idx => asmLine "GETBIT" [asmReg va, toString pos, toString idx]
  | .setbit vd pos idx b => asmLine "SETBIT" [asmReg vd, toString pos, toString idx, asmBit b]
  | .lsh vd va sdir => asmLine "LSH" [asmReg vd, asmReg va, asmShiftDir sdir]
  | .rot vd va sdir count => asmLine "ROT" [asmReg vd, asmReg va, asmShiftDir sdir, toString count]
  | .xor vd va vb => asmLine "XOR" [asmReg vd, asmReg va, asmReg vb]
  | .inv vd va => asmLine "INV" [asmReg vd, asmReg va]
  | .madd vd va vb nbits => asmLine "MADD" [asmReg vd, asmReg va, asmReg vb, toString nbits]
  | .initr klen ftype mode => asmLine "INITR" [toString klen, asmFType ftype, asmMode mode]
  | .initk va ftype mode => asmLine "INITK" [asmReg va, asmFType ftype, asmMode mode]
  | .rkey vd ord i => asmLine "RKEY" [asmReg vd, asmOrd ord, toString i.val]
  | .rf vd va vb nbits => asmLine "RF" [asmReg vd, asmReg va, asmReg vb, toString nbits]
  | .crnd vd va vb last => asmLine "CRND" [asmReg vd, asmReg va, asmReg vb, asmBit last]
  | .vrnd vd va vb cdir => asmLine "VRND" [asmReg vd, asmReg va, asmReg vb, asmCipherDir cdir]
  | .net vd va cdir ord => asmLine "NET" [asmReg vd, asmReg va, asmCipherDir cdir, asmOrd ord]
  | .ivset va => asmLine "IVSET" [asmReg va]
  | .ivget vd sel => asmLine "IVGET" [asmReg vd, asmSel sel]
  | .mstart => asmLine "MSTART" []
  | .blk vd va cdir => asmLine "BLK" [asmReg vd, asmReg va, asmCipherDir cdir]
  | .msg cdir => asmLine "MSG" [asmCipherDir cdir]

/-! Reading a line (R57, R58). -/

def isBlank (c : Char) : Bool := c == ' ' || c == '\t'

def trimBlank (cs : List Char) : List Char :=
  ((cs.dropWhile isBlank).reverse.dropWhile isBlank).reverse

/-- The pieces between the commas. -/
def splitCommas : List Char → List (List Char)
  | [] => [[]]
  | c :: cs =>
    if c == ',' then [] :: splitCommas cs
    else
      match splitCommas cs with
      | [] => [[c]]
      | p :: ps => (c :: p) :: ps

def digitValue (c : Char) : Option Nat :=
  let n := c.toNat
  if 48 ≤ n ∧ n ≤ 57 then some (n - 48)
  else if 65 ≤ n ∧ n ≤ 70 then some (n - 55)
  else if 97 ≤ n ∧ n ≤ 102 then some (n - 87)
  else none

/-- The digits as a number in the base, if each is a digit of it. -/
def digitsValue (base : Nat) : List Char → Nat → Option Nat
  | [], acc => some acc
  | c :: cs, acc =>
    match digitValue c with
    | some d => if d < base then digitsValue base cs (acc * base + d) else none
    | none => none

/-- Decimal, or hexadecimal with `0x` (R57). -/
def readNumber : List Char → Option Nat
  | [] => none
  | '0' :: 'x' :: c :: cs => digitsValue 16 (c :: cs) 0
  | c :: cs => digitsValue 10 (c :: cs) 0

def readReg : List Char → Option VReg
  | 'V' :: c :: cs =>
    match digitsValue 10 (c :: cs) 0 with
    | some n => if h : n < 16 then some ⟨n, h⟩ else none
    | none => none
  | _ => none

/-- The value a word of text stands for, from a list of spellings. -/
def readWord {α : Type} (table : List (String × α)) (cs : List Char) : Option α :=
  match table with
  | [] => none
  | (name, x) :: rest => if name.toList = cs then some x else readWord rest cs

/-- A `last` or `b` operand, in the one spelling `0` or `1` (R57; that `00` or `0x1` is none is DESIGN CHOICE, log
entry 10). -/
def readBit : List Char → Option Bool := readWord [("0", false), ("1", true)]

def readShiftDir : List Char → Option ShiftDir := readWord [("L", .left), ("R", .right)]

def readCipherDir : List Char → Option CipherDir := readWord [("E", .encrypt), ("D", .decrypt)]

def readOrd : List Char → Option SchedOrd := readWord [("FWD", .forward), ("REV", .reverse)]

def readFType : List Char → Option FType := readWord [("CLASSIC", .classic), ("VARIANT1", .variant1)]

/-- A mode: a name, or the number 3 in the one spelling `3` (R57; that `0x3` and `03` are none is DESIGN CHOICE, log
entry 10). -/
def readMode : List Char → Option ModeField :=
  readWord [("NONE", .none), ("CBC", .cbc), ("CFB", .cfb), ("3", .unrecognised)]

def readSel : List Char → Option IvSel := readWord [("IV0", .iv0), ("IVR", .ivr)]

def readIndex (cs : List Char) : Option (Fin Config.nrounds) :=
  match readNumber cs with
  | some n => if h : n < 4 then some ⟨n, h⟩ else none
  | none => none

/-- The mnemonics and pseudo-mnemonics, by their operand lists. -/
inductive AsmName where
  | nop | clrerr | srst | mstart | enc | dec
  | mov | inv | shl | shr | not
  | ldv | stv | setmlen | clr
  | getbit | setbit | lsh | rot | rol | ror
  | xor | madd | rf | crnd | vrnd
  | initr | initk | rkey | net
  | ivset | ivget | blk | msg
deriving DecidableEq, Repr

def namesOfNone : List (String × AsmName) :=
  [("NOP", .nop), ("CLRERR", .clrerr), ("SRST", .srst), ("MSTART", .mstart), ("ENC", .enc), ("DEC", .dec)]

def namesOfTwoRegs : List (String × AsmName) :=
  [("MOV", .mov), ("INV", .inv), ("SHL", .shl), ("SHR", .shr), ("NOT", .not)]

def namesOfData : List (String × AsmName) :=
  [("LDV", .ldv), ("STV", .stv), ("SETMLEN", .setmlen), ("CLR", .clr)]

def namesOfBits : List (String × AsmName) :=
  [("GETBIT", .getbit), ("SETBIT", .setbit), ("LSH", .lsh), ("ROT", .rot), ("ROL", .rol), ("ROR", .ror)]

def namesOfThreeRegs : List (String × AsmName) :=
  [("XOR", .xor), ("MADD", .madd), ("RF", .rf), ("CRND", .crnd), ("VRND", .vrnd)]

def namesOfEngine : List (String × AsmName) :=
  [("INITR", .initr), ("INITK", .initk), ("RKEY", .rkey), ("NET", .net)]

def namesOfModes : List (String × AsmName) :=
  [("IVSET", .ivset), ("IVGET", .ivget), ("BLK", .blk), ("MSG", .msg)]

def asmNames : List (String × AsmName) :=
  namesOfNone ++ namesOfTwoRegs ++ namesOfData ++ namesOfBits ++ namesOfThreeRegs ++ namesOfEngine ++ namesOfModes

/-- The command of a mnemonic and its operands, if the operands are of its form. -/
def readOperands (name : AsmName) (ops : List (List Char)) : Option Instr :=
  match name, ops with
  | .nop, [] => some .nop
  | .clrerr, [] => some .clrerr
  | .srst, [] => some .srst
  | .mstart, [] => some .mstart
  | .enc, [] => some Pseudo.enc.expand
  | .dec, [] => some Pseudo.dec.expand
  | .mov, [d, a] => do return .mov (← readReg d) (← readReg a)
  | .inv, [d, a] => do return .inv (← readReg d) (← readReg a)
  | .shl, [d, a] => do return (Pseudo.shl (← readReg d) (← readReg a)).expand
  | .shr, [d, a] => do return (Pseudo.shr (← readReg d) (← readReg a)).expand
  | .not, [d, a] => do return (Pseudo.not (← readReg d) (← readReg a)).expand
  | .ldv, [d, x, n] => do return .ldv (← readReg d) (← readNumber x) (← readNumber n)
  | .stv, [r, x] => do return .stv (← readReg r) (← readNumber x)
  | .setmlen, [n] => do return .setmlen (← readNumber n)
  | .clr, [d] => do return (Pseudo.clr (← readReg d)).expand
  | .getbit, [a, p, i] => do return .getbit (← readReg a) (← readNumber p) (← readNumber i)
  | .setbit, [d, p, i, b] => do
    return .setbit (← readReg d) (← readNumber p) (← readNumber i) (← readBit b)
  | .lsh, [d, a, r] => do return .lsh (← readReg d) (← readReg a) (← readShiftDir r)
  | .rot, [d, a, r, n] => do
    return .rot (← readReg d) (← readReg a) (← readShiftDir r) (← readNumber n)
  | .rol, [d, a, n] => do return (Pseudo.rol (← readReg d) (← readReg a) (← readNumber n)).expand
  | .ror, [d, a, n] => do return (Pseudo.ror (← readReg d) (← readReg a) (← readNumber n)).expand
  | .xor, [d, a, b] => do return .xor (← readReg d) (← readReg a) (← readReg b)
  | .madd, [d, a, b, n] => do
    return .madd (← readReg d) (← readReg a) (← readReg b) (← readNumber n)
  | .rf, [d, a, b, n] => do return .rf (← readReg d) (← readReg a) (← readReg b) (← readNumber n)
  | .crnd, [d, a, b, l] => do return .crnd (← readReg d) (← readReg a) (← readReg b) (← readBit l)
  | .vrnd, [d, a, b, c] => do
    return .vrnd (← readReg d) (← readReg a) (← readReg b) (← readCipherDir c)
  | .initr, [n, f, m] => do return .initr (← readNumber n) (← readFType f) (← readMode m)
  | .initk, [a, f, m] => do return .initk (← readReg a) (← readFType f) (← readMode m)
  | .rkey, [d, o, i] => do return .rkey (← readReg d) (← readOrd o) (← readIndex i)
  | .net, [d, a, c, o] => do
    return .net (← readReg d) (← readReg a) (← readCipherDir c) (← readOrd o)
  | .ivset, [a] => do return .ivset (← readReg a)
  | .ivget, [d, i] => do return .ivget (← readReg d) (← readSel i)
  | .blk, [d, a, c] => do return .blk (← readReg d) (← readReg a) (← readCipherDir c)
  | .msg, [c] => do return .msg (← readCipherDir c)
  | _, _ => none

/-- A line of assembly as a command: mnemonic, operands separated by commas, a comment after `;` dropped (R57). -/
def readLine (line : String) : Option Instr :=
  let text := trimBlank (line.toList.takeWhile (fun c => c != ';'))
  let mnemonic := text.takeWhile (fun c => !isBlank c)
  let rest := trimBlank (text.dropWhile (fun c => !isBlank c))
  let ops := if rest.isEmpty then [] else (splitCommas rest).map trimBlank
  match readWord asmNames mnemonic with
  | some name => readOperands name ops
  | none => none

/-- The command word of a line of assembly, if it is one and its numbers fit their fields (R57). -/
def assemble (line : String) : Option Word :=
  match readLine line with
  | some i => if wellFormed i then some (encode i) else none
  | none => none

end Sys2Proof
end

