-- ==== Sys2Proof/Tests/Slice0.lean ====
section
/-! SUPPORT. The model's own tests. Expected values come from spec/: the worked encodings of R59 and the vectors of
spec/95_test_vectors.md (sections 1 and 2), cited by section. Then the witnesses: for every statement that has
hypotheses, states and operands that meet them, clause by clause, at the edges of their ranges. -/

namespace Sys2Proof.Tests

/- The theorems one after another: in parallel, each waiting kernel check holds a thread of its own. -/
set_option Elab.async false

open Sys2Proof.Machine

/-! Small states. -/

/-- A sequence from numbers. -/
def seq (l : List Nat) : Bytes := l.map (BitVec.ofNat 8)

/-- The key used throughout spec/95_test_vectors.md. -/
def keyK : Bytes := seq [0x01, 0x23, 0x45, 0x67]

/-- A fresh engine with some sequence registers set. -/
def fresh (l : List (VReg × Bytes)) : State := l.foldl (fun s p => writeV s p.1 p.2) State.reset

/-- An engine constructed with `keyK`, with some sequence registers set. -/
def engine (ft : FType) (m : Mode) (iv : Bytes) (l : List (VReg × Bytes)) : State :=
  install keyK ft m iv (fresh l)

/-- A text in `MEM` from address 0 on, and its length in `MLEN`. -/
def withText (t : Bytes) (s : State) : State := { memWrite s 0 t with mlen := BitVec.ofNat 13 t.length }

/-- The state after the host writes one word to `CMD`. -/
def after (w : Word) (s : State) : Option State :=
  match step (issueNext w s) with
  | .next t => some t
  | .fault _ => none
  | .refused _ => none

/-- A sequence register after one command word. -/
def regAfter (w : Word) (r : VReg) (s : State) : Option Bytes := (after w s).map (fun t => readV t r)

/-- The error kind and the offending word after one command word. -/
def errorAfter (w : Word) (s : State) : Option (Option ErrKind × Word) := (after w s).map (fun t => (t.err, t.ecw))

def iv8 : Bytes := seq [0xA0, 0xA1, 0xA2, 0xA3, 0xA4, 0xA5, 0xA6, 0xA7]

def testBlock : Bytes := seq [0x54, 0x45, 0x53, 0x54, 0, 0, 0, 0]

def quarters : Bytes :=
  seq [0x10, 0x11, 0x12, 0x13, 0x14, 0x15, 0x16, 0x17, 0x18, 0x19, 0x1A, 0x1B, 0x1C, 0x1D, 0x1E, 0x1F]

/-! WellFormed refuses an immediate that does not fit its field, and takes the largest that does. -/

theorem test_wellFormed_ldv_addr : wellFormed (.ldv 0 4096 0) = false ∧ wellFormed (.ldv 0 4095 255) = true := by decide
theorem test_wellFormed_ldv_len : wellFormed (.ldv 0 0 256) = false := by decide
theorem test_wellFormed_stv_addr : wellFormed (.stv 0 4096) = false ∧ wellFormed (.stv 0 4095) = true := by decide
theorem test_wellFormed_setmlen : wellFormed (.setmlen 8192) = false ∧ wellFormed (.setmlen 8191) = true := by decide
theorem test_wellFormed_getbit_pos : wellFormed (.getbit 0 256 0) = false := by decide
theorem test_wellFormed_getbit_idx : wellFormed (.getbit 0 0 16) = false ∧ wellFormed (.getbit 0 255 15) = true := by
  decide
theorem test_wellFormed_setbit_pos : wellFormed (.setbit 0 256 0 true) = false := by decide
theorem test_wellFormed_setbit_idx :
    wellFormed (.setbit 0 0 16 true) = false ∧ wellFormed (.setbit 0 255 15 true) = true := by decide
theorem test_wellFormed_rot_count :
    wellFormed (.rot 0 0 .left 32768) = false ∧ wellFormed (.rot 0 0 .left 32767) = true := by decide
theorem test_wellFormed_madd_nbits :
    wellFormed (.madd 0 0 0 4096) = false ∧ wellFormed (.madd 0 0 0 4095) = true := by decide
theorem test_wellFormed_initr_klen :
    wellFormed (.initr 256 .classic .none) = false ∧ wellFormed (.initr 255 .classic .none) = true := by decide
theorem test_wellFormed_rf_nbits : wellFormed (.rf 0 0 0 4096) = false ∧ wellFormed (.rf 0 0 0 4095) = true := by
  decide

/-! Words written out from the formats (R46 to R50) and the opcodes (R52): opcode, then the fields from bit 23 down. -/

theorem test_word_nop : decode 0b00000000_0000_0000_0000000000000000 = some .nop := by decide
theorem test_word_clrerr : decode 0b00000001_0000_0000_0000000000000000 = some .clrerr := by decide
theorem test_word_srst : decode 0b00000010_0000_0000_0000000000000000 = some .srst := by decide
/-- Format I: `vd` 23:20, `va` 19:16. -/
theorem test_word_mov : decode 0b00001000_0101_1010_0000000000000000 = some (.mov 5 10) := by decide
/-- Format M: `vr` 23:20, `len` 19:12, `addr` 11:0. -/
theorem test_word_ldv : decode 0b00001001_0001_10000001_100000000001 = some (.ldv 1 0x801 0x81) := by decide
theorem test_word_stv : decode 0b00001010_1111_00000000_111111111110 = some (.stv 15 0xFFE) := by decide
theorem test_word_setmlen : decode 0b00001011_0000_0000_0001000000000001 = some (.setmlen 0x1001) := by decide
/-- Format B: `va` 19:16, `pos` 15:8, `idx` 7:4. -/
theorem test_word_getbit : decode 0b00010000_0000_0010_10000001_0111_000_0 = some (.getbit 2 0x81 7) := by decide
/-- Format B: `vd` 23:20, `b` 0. -/
theorem test_word_setbit : decode 0b00010001_0001_0000_00000010_1000_000_1 = some (.setbit 1 2 8 true) := by decide
/-- Format S: `sdir` 15, `count` 14:0. -/
theorem test_word_lsh : decode 0b00010010_0100_0010_1_000000000000000 = some (.lsh 4 2 .right) := by decide
theorem test_word_rot : decode 0b00010011_1110_0101_0_100000000000001 = some (.rot 14 5 .left 0x4001) := by decide
/-- Format R: `vd` 23:20, `va` 19:16, `vb` 15:12, `imm12` 11:0. -/
theorem test_word_xor : decode 0b00011000_0011_0001_0010_000000000000 = some (.xor 3 1 2) := by decide
theorem test_word_inv : decode 0b00011001_0110_0001_0000_000000000000 = some (.inv 6 1) := by decide
theorem test_word_madd : decode 0b00011010_1111_1000_1001_100000000001 = some (.madd 15 8 9 0x801) := by decide
/-- `klen` 15:8, `ftype` 2, `mode` 1:0. -/
theorem test_word_initr : decode 0b00100000_0000_0000_10000100_00000_1_10 = some (.initr 0x84 .variant1 .cfb) := by
  decide
theorem test_word_initk : decode 0b00100001_0000_0111_00000000_00000_1_01 = some (.initk 7 .variant1 .cbc) := by decide
/-- `ord` 2, `i` 1:0. -/
theorem test_word_rkey : decode 0b00100010_0001_0000_0000000000000_1_10 = some (.rkey 1 .reverse 2) := by decide
theorem test_word_rf : decode 0b00101000_0110_0001_0010_000000001000 = some (.rf 6 1 2 8) := by decide
/-- `last` 0. -/
theorem test_word_crnd : decode 0b00110000_0110_0001_0010_00000000000_1 = some (.crnd 6 1 2 true) := by decide
theorem test_word_vrnd : decode 0b00110001_0100_0011_0010_00000000000_1 = some (.vrnd 4 3 2 .decrypt) := by decide
/-- `ord` 1, `cdir` 0. -/
theorem test_word_net : decode 0b00110010_0101_0010_00000000000000_1_0 = some (.net 5 2 .encrypt .reverse) := by decide
theorem test_word_ivset : decode 0b00111000_0000_0001_0000000000000000 = some (.ivset 1) := by decide
theorem test_word_ivget : decode 0b00111001_0100_0000_000000000000000_1 = some (.ivget 4 .ivr) := by decide
theorem test_word_mstart : decode 0b00111010_0000_0000_0000000000000000 = some .mstart := by decide
theorem test_word_blk : decode 0b00111011_0010_0011_000000000000000_1 = some (.blk 2 3 .decrypt) := by decide
theorem test_word_msg : decode 0b00111100_0000_0000_000000000000000_1 = some (.msg .decrypt) := by decide

/-- Unassigned opcodes and set must-be-zero bits are illegal (R54; section 2.11). -/
theorem test_word_illegal :
    ([0x03000000, 0xFFFFFFFF, 0x00000001, 0x01000001, 0x02010000, 0x08310001, 0x0A301020, 0x0B002000, 0x10020181,
      0x10020182, 0x11010070, 0x12108001] : List Word).all (fun w => (decode w).isNone) = true := by decide +kernel
theorem test_word_illegal_2 :
    ([0x18312001, 0x19651000, 0x20000408, 0x21100000, 0x22100008, 0x30312002, 0x31312002, 0x32100004, 0x38110000,
      0x39100002, 0x3A000001, 0x3B100002, 0x3C100000] : List Word).all (fun w => (decode w).isNone) = true := by
  decide +kernel

/-- The pseudo-instructions of R58 are words of core commands. -/
theorem test_pseudo : encode (Pseudo.rol 8 5 9).expand = 0x13850009 ∧ encode (Pseudo.ror 9 5 11).expand = 0x1395800B
    ∧ encode (Pseudo.not 6 1).expand = 0x19610000 ∧ encode Pseudo.dec.expand = 0x3C000001 := by decide

/-- R57, R59: text to word. -/
theorem test_assemble : assemble "ROR V1, V0, 7" = some 0x13108007 ∧ assemble "LDV V0, 0x010, 4" = some 0x09004010 := by
  decide +kernel

/-! One step each, from spec/95_test_vectors.md. -/

/-- Section 2.1. -/
theorem test_getbit : ((after 0x10020070 (fresh [(2, seq [0x80, 0x01])])).map (fun t => t.t) = some true)
    ∧ errorAfter 0x10020590 (fresh [(2, seq [0x80, 0x01])]) = some (some .indexOutOfRange, 0x10020590) := by decide +kernel
theorem test_setbit : regAfter 0x11100100 1 (fresh [(1, seq [0x80, 0xFF])]) = some (seq [0x80, 0xFE])
    ∧ errorAfter 0x11100271 (fresh [(1, seq [0x80, 0xFE])]) = some (some .invalidArgument, 0x11100271) := by
  decide +kernel
theorem test_lsh : regAfter 0x12320000 3 (fresh [(2, seq [0x80, 0x01])]) = some (seq [0x00, 0x02])
    ∧ regAfter 0x12428000 4 (fresh [(2, seq [0x80, 0x01])]) = some (seq [0x40, 0x00]) := by decide +kernel
theorem test_rot_left : regAfter 0x13F57FFF 15 (fresh [(5, seq [0x12, 0x34, 0x56, 0x78])])
    = some (seq [0x09, 0x1A, 0x2B, 0x3C]) := by decide +kernel
theorem test_rot_right : regAfter 0x1395800B 9 (fresh [(5, seq [0x12, 0x34, 0x56, 0x78])])
    = some (seq [0xCF, 0x02, 0x46, 0x8A]) := by decide +kernel

/-- Section 2.2. -/
theorem test_xor : regAfter 0x18312000 3 (fresh [(1, seq [0x12, 0x34, 0x56, 0x78]), (2, seq [0xFF, 0x00, 0xFF, 0x00])])
    = some (seq [0xED, 0x34, 0xA9, 0x78]) := by decide +kernel
theorem test_inv : regAfter 0x19210000 2 (fresh [(1, seq [0x00, 0x25, 0x77, 0xBC])])
    = some (seq [0xFF, 0xDA, 0x88, 0x43]) := by decide +kernel
theorem test_madd_8 : regAfter 0x1AD89008 13 (fresh [(8, seq [0x00, 0xFF, 0x80, 0xC8, 0xFF, 0x01, 0x64]),
    (9, seq [0x00, 0x01, 0x80, 0x64, 0xFF, 0xFF, 0x64])]) = some (seq [0x00, 0x00, 0x00, 0x2B, 0xFD, 0x00, 0xC8]) := by
  decide +kernel
theorem test_madd_7 : regAfter 0x1AC89007 12 (fresh [(8, seq [0x00, 0xFF, 0x80, 0xC8, 0xFF, 0x01, 0x64]),
    (9, seq [0x00, 0x01, 0x80, 0x64, 0xFF, 0xFF, 0x64])]) = some (seq [0x00, 0x7F, 0x7F, 0x2A, 0x7B, 0x7F, 0x47]) := by
  decide +kernel

/-- Section 2.3. -/
theorem test_initk : (after 0x21000004 (fresh [(0, keyK)])).map (fun t => (statusWord t, t.rk[3]))
    = some (0x00000428, seq [0x1A, 0x2B, 0x38, 0x09]) := by decide +kernel
theorem test_initk_mode_first : errorAfter 0x21000003 (fresh [(0, seq [0x01, 0x23, 0x45])])
    = some (some .invalidConfiguration, 0x21000003) := by decide +kernel
theorem test_initr : (after 0x20003E05 (fresh [])).map (fun t => (statusWord t, t.iv0.length, t.draws))
    = some (0x00003E68, 248, 310) := by decide +kernel
theorem test_initr_bad_key : errorAfter 0x20004000 (fresh []) = some (some .invalidKey, 0x20004000) := by decide +kernel
theorem test_rkey : regAfter 0x22100005 1 (engine .classic .none [] []) = some (seq [0x15, 0x9C, 0x04, 0x8D]) := by
  decide +kernel

/-- Section 2.4. -/
theorem test_rf : regAfter 0x28612008 6 (fresh [(1, seq [0x54, 0x45, 0x53, 0x54]), (2, keyK)])
    = some (seq [0x75, 0x7D, 0x20, 0xEB]) := by decide +kernel

/-- Section 2.5. -/
theorem test_crnd : regAfter 0x30512000 5 (fresh [(1, seq [0xA5, 0x5A]), (2, seq [0x3C])]) = some (seq [0xC2, 0xA5])
    ∧ regAfter 0x30612001 6 (fresh [(1, seq [0xA5, 0x5A]), (2, seq [0x3C])]) = some (seq [0xA5, 0xC2]) := by
  decide +kernel
theorem test_net_classic : regAfter 0x32210000 2 (engine .classic .none [] [(1, testBlock)])
    = some (seq [0x71, 0x67, 0x76, 0xCC, 0x56, 0xB6, 0x46, 0x5C]) := by decide +kernel

/-- Section 2.7. -/
theorem test_vrnd : regAfter 0x31512001 5 (fresh [(1, quarters), (2, keyK)]) = some (seq [0x1C, 0x1D, 0x1E, 0x1F, 0x1D,
    0x2F, 0x91, 0x53, 0x14, 0x15, 0x16, 0x17, 0x18, 0x19, 0x1A, 0x1B]) := by decide +kernel
theorem test_net_variant1 : regAfter 0x32410001 4 (engine .variant1 .none [] [(1, quarters)]) = some (seq [0x1D, 0x2F,
    0x91, 0x53, 0xAA, 0x9A, 0x99, 0x68, 0x68, 0x7D, 0x02, 0x5B, 0x38, 0xA4, 0x0D, 0xB3]) := by decide +kernel

/-- Section 2.6: the last round is found by position, with round keys 1 and 3 equal. -/
theorem test_last_round_by_position : classicNet (seq [0xDE, 0xAD, 0xBE, 0xEF])
    [seq [0xAA, 0xAA], seq [0x55, 0x55], seq [0xAA, 0xAA], seq [0x55, 0x55]] 32 = seq [0x66, 0xA5, 0x09, 0x25] := by
  decide +kernel

/-- Section 2.8. -/
theorem test_ivset : (after 0x38010000 (engine .classic .cfb [] [(1, iv8)])).map (fun t => (t.iv0, t.ivr))
    = some (iv8, iv8) := by decide +kernel
theorem test_ivget : regAfter 0x39400001 4 (engine .classic .cbc iv8 []) = some iv8 := by decide +kernel
theorem test_mstart : (after 0x3A000000 { engine .classic .cbc iv8 [] with ivr := testBlock }).map (fun t => t.ivr)
    = some iv8 := by decide +kernel
theorem test_blk_cbc : (after 0x3B220000 (engine .classic .cbc iv8 [(2, testBlock)])).map (fun t => (readV t 2, t.ivr))
    = some (seq [0x5C, 0xCC, 0x8D, 0x2C, 0xC8, 0x80, 0xC4, 0x8F], seq [0x5C, 0xCC, 0x8D, 0x2C, 0xC8, 0x80, 0xC4, 0x8F]) := by
  decide +kernel
theorem test_blk_cfb_decrypt : regAfter 0x3B220001 2
    (engine .classic .cfb iv8 [(2, seq [0x14, 0x5C, 0xBE, 0x18, 0xCA, 0x00, 0xB4, 0x63])]) = some testBlock := by
  decide +kernel

/-- Section 2.9, vector M10's shape with `keyK`: M5 encrypting, M1 decrypting. -/
theorem test_msg_encrypt : (after 0x3C000000 (withText (seq [0x41, 0x42, 0x43, 0x44, 0x45, 0x46, 0x47, 0x48, 0x49])
      (engine .classic .none [] []))).map (fun t => (t.mlen, memRead t 0 16))
    = some (16, seq [0x54, 0xD5, 0x1B, 0x5A, 0x20, 0x55, 0xB3, 0x6B, 0x74, 0xEE, 0x49, 0x78, 0x04, 0x4D, 0xEF, 0x6F]) := by
  decide +kernel
theorem test_msg_decrypt : (after 0x3C000001 (withText (seq [0x71, 0x67, 0x76, 0xCC, 0x56, 0xB6, 0x46, 0x5C])
      (engine .classic .none [] []))).map (fun t => (statusWord t, memRead t 0 8))
    = some (0x00040408, testBlock) := by decide +kernel

/-- Section 2.9, ranges. -/
theorem test_setmlen : (after 0x0B001000 State.reset).map (fun t => t.mlen) = some 0x1000
    ∧ errorAfter 0x0B001001 State.reset = some (some .memRange, 0x0B001001) := by decide +kernel

/-- Section 2.10. -/
theorem test_ldv : regAfter 0x09004010 0 (memWrite State.reset 0x10 keyK) = some keyK
    ∧ regAfter 0x09500FFF 5 (fresh [(5, keyK)]) = some [] := by decide +kernel
theorem test_stv : (after 0x0A000FFC (fresh [(0, keyK)])).map (fun t => memRead t 0xFFC 4) = some keyK
    ∧ errorAfter 0x0A000FFD (fresh [(0, keyK)]) = some (some .memRange, 0x0A000FFD) := by decide +kernel
theorem test_mov : regAfter 0x08210000 2 (fresh [(1, keyK)]) = some keyK := by decide +kernel
theorem test_nop : after 0x00000000 (fresh [(1, keyK)]) = some (fresh [(1, keyK)]) := by decide +kernel
theorem test_srst : after 0x02000000 (withText keyK (engine .variant1 .cfb iv8 [(1, keyK)]))
    = some (memWrite State.reset 0 keyK) := by decide +kernel

/-- Sections 2.11 and 3 (P5): a faulted engine ignores a rotation and the word `0x01000001`, and `CLRERR` frees it. -/
def faulted : State := { fresh [(2, seq [0x80, 0x01])] with err := some .indexOutOfRange, ecw := 0x10020180 }
theorem test_faulted : after 0x13320001 faulted = some faulted ∧ after 0x01000001 faulted = some faulted := by
  decide +kernel
/-- `STATUS` with each error latched: the codes of R140. -/
theorem test_status_error_codes :
    ([.invalidKey, .invalidConfiguration, .indexOutOfRange, .invalidArgument, .illegalCommand, .badState, .memRange]
      : List ErrKind).map (fun k => statusWord { State.reset with err := some k }) = [1, 2, 3, 4, 5, 6, 7] := by
  decide +kernel
theorem test_clrerr : after 0x01000000 faulted = some (fresh [(2, seq [0x80, 0x01])]) := by decide +kernel

/-! The memory list keeps its canonical form. -/

theorem test_memory_order : Memory.writeBytes (Memory.write [] 3 0xAA) 1 [1, 2, 3] = [(1, 1), (2, 2), (3, 3)] := by
  decide
theorem test_memory_reset : State.reset.mem.wf := by decide

/-! Witnesses: states and operands that meet the hypotheses of each statement, each clause at the edges of its range. -/

/-- A constructed engine with empty registers and an IV of the right length meets the invariant. -/
theorem inv_engine (ft : FType) (m : Mode) (iv : Bytes)
    (h : match m with
      | .none => iv.length = 0
      | .cbc => iv.length = blockBytes (constructedCfg keyK ft m)
      | .cfb => iv.length = blockBytes (constructedCfg keyK ft m)
          ∨ iv.length = 4 * blockBytes (constructedCfg keyK ft m)) : Inv (engine ft m iv []) where
  unconstructed := fun hr => absurd hr (by simp [engine, install, constructedCfg])
  keyLength := fun _ => by
    show keyK.length = (BitVec.ofNat 8 keyK.length).toNat ∧ (BitVec.ofNat 8 keyK.length).toNat % 2 = 0
      ∧ 2 ≤ (BitVec.ofNat 8 keyK.length).toNat ∧ (BitVec.ofNat 8 keyK.length).toNat ≤ Config.kmax
    decide
  schedule := fun _ i => roundKeys_getElem keyK i
  ivLength := h
  runningIv := rfl
  messageLength := by show (0 : BitVec 13).toNat ≤ 4096; decide
  registerLength := fun r => by
    have e : readV (engine ft m iv []) r = [] := by simp [engine, fresh, install, readV, State.reset]
    rw [e]
    exact Nat.zero_le _
  errorWord := fun _ => rfl
  memory := Memory.wf_nil

theorem inv_withText {s : State} (hi : Inv s) (t : Bytes) (ht : t.length ≤ 4096) : Inv (withText t s) where
  unconstructed := hi.unconstructed
  keyLength := hi.keyLength
  schedule := hi.schedule
  ivLength := hi.ivLength
  runningIv := hi.runningIv
  messageLength := by
    show (BitVec.ofNat 13 t.length).toNat ≤ 4096
    rw [BitVec.toNat_ofNat]
    omega
  registerLength := hi.registerLength
  errorWord := hi.errorWord
  memory := Memory.wf_writeBytes hi.memory (by rw [Nat.zero_add]; exact ht)

/-! Encoding and the step. -/

theorem witness_DecodeInvertsEncode : wellFormed (.rot 15 15 .right 32767) = true
    ∧ wellFormed (.initr 255 .variant1 .unrecognised) = true := by decide
theorem witness_EncodeInvertsDecode : decode 0x13FFFFFF = some (.rot 15 15 .right 32767) := by decide
theorem witness_DecodeReadsTheFieldsOfTheTable : HasFields 0x13108007 (.rot 1 0 .right 7) := by
  unfold HasFields
  decide
theorem witness_DecodeAcceptsExactlyTheTableRows : tableRow .nop ∈ opcodeTable ∧ tableRow (.msg .decrypt) ∈ opcodeTable
    ∧ (0x3C000001 : Word) &&& (tableRow (.msg .decrypt)).mask = (tableRow (.msg .decrypt)).fixed := by decide +kernel
theorem witness_StepRunsTheDecodedCommand :
    (issueNext 0x18312000 State.reset).pending = .write32 0 0x18312000 :: [] ∧ State.reset.err = none
      ∧ decode 0x18312000 = some (.xor 3 1 2) := by decide +kernel
theorem witness_StepRunsTheDecodedCommand_events :
    (launchWith [.hardReset, .read32 4]).pending = .hardReset :: [.read32 4]
      ∧ (launchWith [.write8 0x1FFF 7]).pending = .write8 0x1FFF 7 :: [] ∧ State.reset.pending = [] := ⟨rfl, rfl, rfl⟩
theorem witness_StepRunsTheDecodedCommand_fetch : State.reset.err = none
    ∧ decodeTableWord 32 0x13108007 = some (.rot 1 0 .right 7) := by decide
theorem witness_FaultedEngineIgnoresWords (cw : Word) : faulted.err = some .indexOutOfRange
    ∧ (issueNext cw faulted).pending = .write32 0 cw :: [] := ⟨rfl, rfl⟩
theorem witness_FaultedEngineIgnoresWords_words : (0x01000001 : Word) ≠ 0x01000000 ∧ (0x01000001 : Word) ≠ 0x02000000 := by
  decide
theorem witness_WordsOutsideTheTableRaiseIllegalCommand : State.reset.err = none
    ∧ ∀ row ∈ opcodeTable, (0x03000000 : Word) &&& row.mask ≠ row.fixed := by decide +kernel
theorem witness_RaisedErrorChangesOnlyErrAndEcw : State.reset.err = none
    ∧ ∃ t, runCommand 0x0B001001 State.reset = .next t ∧ t.err = some .memRange := ⟨rfl, _, rfl, rfl⟩
/-- One check of each kind fails first; the second is `GETBIT` at `idx` 8 with `pos` out of range too (R146). -/
theorem witness_FirstFailingCheckIsRaised :
    FirstFails (checksOf (.ldv 0 0xFFF 2) State.reset) .memRange
      ∧ FirstFails (checksOf (.getbit 0 0 8) State.reset) .indexOutOfRange
      ∧ FirstFails (checksOf (.getbit 0 0 7) State.reset) .invalidArgument
      ∧ FirstFails (checksOf (.initr 3 .classic .unrecognised) State.reset) .invalidConfiguration
      ∧ FirstFails (checksOf (.initr 3 .classic .none) State.reset) .invalidKey
      ∧ FirstFails (checksOf (.msg .encrypt) State.reset) .badState
      ∧ FirstFails (checksOf (.initr 4 .classic .none) (engine .classic .none [] [])) .badState
      ∧ FirstFails (checksOf (.ivset 0) (engine .classic .none [] [])) .badState := by
  refine ⟨?_, ?_, ?_, ?_, ?_, ?_, ?_, ?_⟩ <;>
    simp [FirstFails, checksOf, ownChecks, needsReady, needsUnready, keyLenRejected, readV, State.reset, Cfg.reset,
      engine, fresh, install, constructedCfg]
theorem witness_FirstFailingCheckIsRaised_words : faulted.err = some .indexOutOfRange
    ∧ (0x01000001 : Word) ≠ 0x01000000 ∧ (0x01000001 : Word) ≠ 0x02000000 ∧ State.reset.err = none
    ∧ decode 0xFFFFFFFF = none ∧ wellFormed (.getbit 0 0 8) = true := by decide
theorem witness_PassingChecksCompleteWithinTheFrame :
    AllPass (checksOf (.ldv 0 0xF01 255) State.reset) ∧ AllPass (checksOf (.initr 62 .variant1 .cbc) State.reset)
      ∧ AllPass (checksOf .mstart (engine .classic .none [] [])) := by
  refine ⟨?_, ?_, ?_⟩ <;>
    simp [AllPass, checksOf, ownChecks, needsReady, needsUnready, keyLenRejected, State.reset, Cfg.reset, engine,
      fresh, install, constructedCfg]

/-! Reset, the host window, runs. -/

theorem witness_ResetTable : (∃ s, hostEvent .hardReset (engine .classic .cbc iv8 []) = .next s)
    ∧ ∃ s, exec .srst (engine .classic .cbc iv8 []) = .next s := ⟨⟨_, rfl⟩, _, rfl⟩
/-- The reserved offsets at the edges of every gap between the three registers and `MEM`. -/
theorem witness_HostWindowTable : (0 : Nat) < 4096 ∧ 4095 < 4096
    ∧ ∀ o ∈ ([1, 3, 5, 7, 9, 0x0FFF] : List (BitVec 13)),
        o.toNat < 0x1000 ∧ o ≠ 0x0000 ∧ o ≠ 0x0004 ∧ o ≠ 0x0008 := by decide
theorem witness_OnlyUnlistedWidthsAreRefused : listedAccess (.write8 0x0000 1) = false
    ∧ listedAccess (.read32 0x1000) = false ∧ listedAccess (.write32 0x1FFF 1) = false
    ∧ listedAccess (.write8 0x1FFF 1) = true ∧ listedAccess (.read32 0x0FFC) = true
    ∧ listedAccess .hardReset = true := by decide
theorem witness_StatusShowsTheRegisters : State.reset.err = (fresh [(1, keyK)]).err
    ∧ State.reset.cfg = (fresh [(1, keyK)]).cfg ∧ State.reset.t = (fresh [(1, keyK)]).t
    ∧ State.reset.mlen = (fresh [(1, keyK)]).mlen := by decide
/-- Each error kind, topology and mode is that of some state. -/
theorem witness_StatusShowsTheRegisters_codes : (∀ k, ({ State.reset with err := some k } : State).err = some k)
    ∧ State.reset.err = none ∧ ∀ ft m, (engine ft m [] []).cfg.ftype = ft ∧ (engine ft m [] []).cfg.mode = m :=
  ⟨fun _ => rfl, rfl, fun _ _ => ⟨rfl, rfl⟩⟩
theorem witness_EveryFiniteRunEnds :
    (launchWith [.write8 0x1FFF 7, .write32 0 0x0B001000, .read32 4, .hardReset]).pending
      = [.write8 0x1FFF 7, .write32 0 0x0B001000, .read32 4, .hardReset]
    ∧ ∀ e ∈ ([.write8 0x1FFF 7, .write32 0 0x0B001000, .read32 4, .hardReset] : List HostEvent),
        listedAccess e = true := by decide
theorem witness_SystemCommands : State.reset.err = none ∧ State.reset.ecw = 0
    ∧ field (0x01000001 : Word) 31 24 = 0x01 ∧ (0x01000001 : Word) ≠ 0x01000000
    ∧ ({ State.reset with err := some .badState } : State).err ≠ none := by decide

/-! Data movement and bit primitives. -/

theorem witness_LdvLoadsARunOfBytes : 0xF02 + 255 > 4096 ∧ 0xF01 + 255 ≤ 4096 ∧ 0xFFF + 0 ≤ 4096 := by decide
theorem witness_StvStoresARunOfBytes : 0xFFD + (readV (fresh [(0, keyK)]) 0).length > 4096
    ∧ 0xFFC + (readV (fresh [(0, keyK)]) 0).length ≤ 4096 := by decide
theorem witness_SetmlenSetsTheLength : (4097 : Nat) > 4096 ∧ (4096 : Nat) ≤ 4096 := by decide
/-- `V[2]` has two bytes: `idx` 8; `idx` 7 with `pos` 2; `idx` 7 with `pos` 1. -/
theorem witness_GetbitReadsOneBit : (8 : Nat) ≥ 8 ∧ (7 : Nat) < 8
    ∧ 2 ≥ (readV (fresh [(2, seq [0x80, 0x01])]) 2).length ∧ 1 < (readV (fresh [(2, seq [0x80, 0x01])]) 2).length := by
  decide
theorem witness_SetbitReplacesOneBit : (8 : Nat) ≥ 8 ∧ (7 : Nat) < 8
    ∧ 2 ≥ (readV (fresh [(1, seq [0x00, 0xFF])]) 1).length ∧ 1 < (readV (fresh [(1, seq [0x00, 0xFF])]) 1).length
    ∧ (0 : Nat) ≠ 1 ∧ (0 : Nat) ≠ 7 := by decide
/-- `V[2]` has two bytes: byte 0 has a right neighbour, byte 1 is the last. -/
theorem witness_LshShiftsByOneBit : 0 + 1 < (readV (fresh [(2, seq [0x80, 0x01])]) 2).length
    ∧ 1 + 1 = (readV (fresh [(2, seq [0x80, 0x01])]) 2).length
    ∧ 0 < (readV (fresh [(2, seq [0x80, 0x01])]) 2).length := by decide
theorem witness_RotRotatesTheBitString : (readV State.reset 0).length = 0
    ∧ (readV (fresh [(1, seq [0xA5])]) 1).length ≠ 0 ∧ 0 < 8 * (readV (fresh [(1, seq [0xA5])]) 1).length
    ∧ 7 < 8 * (readV (fresh [(1, seq [0xA5])]) 1).length := by decide
theorem witness_RotationLaws : seq [0x81, 0x00, 0xFF] ≠ [] ∧ 0 < 1 ∧ ((255 : Byte) = 0 ∨ (255 : Byte) = 255) := by decide

/-! Arithmetic. -/

theorem witness_XorAddsBitsModTwo : (readV (fresh [(1, seq [1])]) 1).length ≠ (readV (fresh [(1, seq [1])]) 2).length
    ∧ (readV State.reset 1).length = (readV State.reset 2).length
    ∧ (readV (fresh [(1, seq [1]), (2, seq [2])]) 1).length = (readV (fresh [(1, seq [1]), (2, seq [2])]) 2).length := by
  decide
theorem witness_MaddAddsModuloThenNarrows :
    (readV (fresh [(1, seq [1])]) 1).length ≠ (readV (fresh [(1, seq [1])]) 2).length
    ∧ (readV (fresh [(1, seq [1]), (2, seq [2])]) 1).length = (readV (fresh [(1, seq [1]), (2, seq [2])]) 2).length := by
  decide
theorem witness_LargeModulusIsInert : (seq [0xFF]).length = (seq [0xFF]).length ∧ 9 ≤ 9
    ∧ Inv (engine .classic .none [] []) ∧ (engine .classic .none [] []).cfg.ready = true
    ∧ (seq [0x3C]).length ≠ 0 ∧ (seq [0xA5, 0x5A]).length = 2 * (seq [0x3C]).length :=
  ⟨rfl, le_refl _, inv_engine _ _ _ rfl, rfl, by decide, by decide⟩
theorem witness_XorAndInverseLaws : (seq [1, 2]).length = (seq [3, 4]).length := by decide

/-! Construction. -/

theorem witness_InitrConstructsFromADrawnKey :
    (engine .classic .none [] []).cfg.ready = true ∧ State.reset.cfg.ready = false
      ∧ keyLenRejected 0 ∧ keyLenRejected 63 ∧ keyLenRejected 64 ∧ ¬ keyLenRejected 2 ∧ ¬ keyLenRejected 62
      ∧ ModeField.none ≠ .unrecognised ∧ ModeField.cbc ≠ .unrecognised ∧ ModeField.cfb ≠ .unrecognised := by
  refine ⟨rfl, rfl, ?_, ?_, ?_, ?_, ?_, nofun, nofun, nofun⟩ <;> simp [keyLenRejected, Config.kmax]
theorem witness_InitkConstructsFromTheGivenKey :
    (engine .classic .none [] []).cfg.ready = true ∧ (fresh [(0, keyK)]).cfg.ready = false
      ∧ keyLenRejected (readV (fresh [(0, keyK)]) 1).length ∧ ¬ keyLenRejected (readV (fresh [(0, keyK)]) 0).length
      ∧ keyLenRejected (readV (fresh [(0, zeros 64)]) 0).length
      ∧ ¬ keyLenRejected (readV (fresh [(0, zeros 62)]) 0).length := by
  refine ⟨rfl, rfl, ?_, ?_, ?_, ?_⟩ <;>
    simp [keyLenRejected, Config.kmax, fresh, readV, State.reset, keyK, seq, zeros]
theorem witness_RkeyReadsTheSchedule : State.reset.cfg.ready = false ∧ (engine .classic .none [] []).cfg.ready = true
    ∧ (0 : Fin Config.nrounds).val + (3 : Fin Config.nrounds).val = 3
    ∧ (3 : Fin Config.nrounds).val + (0 : Fin Config.nrounds).val = 3 := by decide
theorem witness_KeyMaterialIsFixedWithinAnInstance : (engine .classic .cbc iv8 []).cfg.ready = true
    ∧ ∃ t, step (issueNext 0x3A000000 (engine .classic .cbc iv8 [])) = .next t ∧ t.cfg.ready = true := ⟨rfl, _, rfl, rfl⟩
theorem witness_OnlyASuccessfulConstructionDraws :
    ∃ t, exec (.initr 2 .classic .none) State.reset = .next t ∧ t.draws ≠ State.reset.draws :=
  ⟨_, rfl, by decide⟩
theorem witness_FlagIsWrittenByGetbitAndReadByNone : (∃ u, exec (.mov 1 2) State.reset = .next u)
    ∧ (∀ va pos idx, Instr.mov 1 2 ≠ .getbit va pos idx) ∧ Instr.mov 1 2 ≠ .srst
    ∧ 7 < 8 ∧ (readV (fresh [(2, seq [0x80, 0x01])]) 2)[1]? = some 0x01 :=
  ⟨⟨_, rfl⟩, fun _ _ _ => nofun, nofun, by decide, by decide⟩

/-! Round function and networks. -/

theorem witness_RfComputesTheRoundFunction :
    (readV (fresh [(1, seq [1])]) 1).length ≠ (readV (fresh [(1, seq [1])]) 2).length
    ∧ ((readV State.reset 1).length = (readV State.reset 2).length ∧ (readV State.reset 1).length = 0)
    ∧ (readV (fresh [(1, seq [1]), (2, seq [2])]) 1).length = (readV (fresh [(1, seq [1]), (2, seq [2])]) 2).length
    ∧ (readV (fresh [(1, seq [1]), (2, seq [2])]) 1).length ≠ 0 := by decide
theorem witness_CrndIsOneClassicRound : (readV State.reset 2).length = 0
    ∧ (readV (fresh [(2, seq [1])]) 1).length ≠ 2 * (readV (fresh [(2, seq [1])]) 2).length
    ∧ (readV (fresh [(1, seq [0xA5, 0x5A]), (2, seq [0x3C])]) 2).length ≠ 0
    ∧ (seq [0xA5]).length = (readV (fresh [(1, seq [0xA5, 0x5A]), (2, seq [0x3C])]) 2).length
    ∧ readV (fresh [(1, seq [0xA5, 0x5A]), (2, seq [0x3C])]) 1 = seq [0xA5] ++ seq [0x5A] := by decide
theorem witness_VrndIsOneVariantRound : (readV State.reset 2).length = 0
    ∧ (readV (fresh [(2, seq [1])]) 1).length ≠ 4 * (readV (fresh [(2, seq [1])]) 2).length
    ∧ (readV (fresh [(1, seq [1, 2, 3, 4]), (2, seq [0x3C])]) 2).length ≠ 0
    ∧ (seq [1]).length = (readV (fresh [(1, seq [1, 2, 3, 4]), (2, seq [0x3C])]) 2).length
    ∧ readV (fresh [(1, seq [1, 2, 3, 4]), (2, seq [0x3C])]) 1 = seq [1] ++ seq [2] ++ seq [3] ++ seq [4] := by decide
/-- A block of the right length, and one of the wrong length, on a constructed engine of either topology. -/
theorem witness_NetRunsFourRounds : State.reset.cfg.ready = false
    ∧ (readV (engine .classic .none [] [(1, testBlock)]) 2).length ≠ blockBytes (engine .classic .none [] []).cfg
    ∧ (readV (engine .classic .none [] [(1, testBlock)]) 1).length = blockBytes (engine .classic .none [] []).cfg
    ∧ (readV (engine .variant1 .none [] [(1, quarters)]) 1).length = blockBytes (engine .variant1 .none [] []).cfg
    ∧ (engine .variant1 .none [] [(1, quarters)]).cfg.ready = true := by decide
theorem witness_NetworksInvert : (seq [0x3C]).length = 1 ∧ (∀ j ∈ [seq [0x3C], seq [0x12]], j.length = 1)
    ∧ (seq [1, 2, 3, 4]).length = 4 * 1 ∧ (seq [1, 2]).length = 2 * 1 := by decide
theorem witness_NetDecryptRestoresNetEncrypt :
    Inv (writeV (engine .variant1 .none [] []) 1 quarters) ∧ (engine .variant1 .none [] []).cfg.ready = true
      ∧ (readV (writeV (engine .variant1 .none [] []) 1 quarters) 1).length
          = blockBytes (engine .variant1 .none [] []).cfg :=
  ⟨(inv_engine _ _ _ rfl).writeV 1 quarters (by decide), rfl, by decide⟩

/-! Mode wrapper. -/

theorem witness_IvsetInstallsAnIv : State.reset.cfg.ready = false ∧ (engine .classic .none [] []).cfg.mode = .none
    ∧ ((engine .classic .cbc iv8 []).cfg.ready = true ∧ (engine .classic .cbc iv8 []).cfg.mode ≠ .none
      ∧ (readV (engine .classic .cbc iv8 []) 1).length ≠ blockBytes (engine .classic .cbc iv8 []).cfg)
    ∧ (readV (engine .classic .cbc iv8 [(1, iv8)]) 1).length = blockBytes (engine .classic .cbc iv8 []).cfg := by decide
/-- An IV of 255 bytes is read and one of 256 bytes is not (section 2.8 has a run that makes one of 256). -/
theorem witness_IvgetReadsAnIv : State.reset.cfg.ready = false
    ∧ ((engine .variant1 .cfb (zeros 256) []).cfg.ready = true
      ∧ (engine .variant1 .cfb (zeros 256) []).iv0.length > 255)
    ∧ ((engine .variant1 .cfb (zeros 255) []).cfg.ready = true
      ∧ (engine .variant1 .cfb (zeros 255) []).ivr.length ≤ 255) := by decide +kernel
theorem witness_MstartReloadsTheRunningIv : State.reset.cfg.ready = false
    ∧ (engine .classic .cbc iv8 []).cfg.ready = true := by decide
theorem witness_BlkInModeNone : (engine .classic .none [] [(2, testBlock)]).cfg.ready = true
    ∧ (engine .classic .none [] [(2, testBlock)]).cfg.mode = .none
    ∧ (readV (engine .classic .none [] [(2, testBlock)]) 2).length = blockBytes (engine .classic .none [] []).cfg := by
  decide
theorem witness_BlkInModeCbc : (engine .classic .cbc iv8 [(2, testBlock)]).cfg.ready = true
    ∧ (engine .classic .cbc iv8 [(2, testBlock)]).cfg.mode = .cbc
    ∧ (readV (engine .classic .cbc iv8 [(2, testBlock)]) 2).length = blockBytes (engine .classic .cbc iv8 []).cfg
    ∧ (engine .classic .cbc iv8 [(2, testBlock)]).ivr.length = blockBytes (engine .classic .cbc iv8 []).cfg := by decide
theorem witness_BlkInModeCfb : (engine .classic .cfb iv8 [(2, testBlock)]).cfg.ready = true
    ∧ (engine .classic .cfb iv8 [(2, testBlock)]).cfg.mode = .cfb
    ∧ (readV (engine .classic .cfb iv8 [(2, testBlock)]) 2).length = blockBytes (engine .classic .cfb iv8 []).cfg
    ∧ (engine .classic .cfb iv8 [(2, testBlock)]).ivr.length = blockBytes (engine .classic .cfb iv8 []).cfg := by decide

/-- A text of 9 bytes: two blocks of 8 bytes, the second one padded. -/
def nine : Bytes := seq [0x41, 0x42, 0x43, 0x44, 0x45, 0x46, 0x47, 0x48, 0x49]

def nineCbc : State := withText nine (engine .classic .cbc iv8 [])

theorem inv_nineCbc : Inv nineCbc := inv_withText (inv_engine .classic .cbc iv8 (by decide)) nine (by decide)

theorem witness_MsgProcessesTheWholeText : Inv nineCbc ∧ nineCbc.cfg.ready = true
    ∧ 2 = (nineCbc.mlen.toNat + blockBytes nineCbc.cfg - 1) / blockBytes nineCbc.cfg
    ∧ 2 * blockBytes nineCbc.cfg ≤ 4096 ∧ nineCbc.iv0.length = blockBytes nineCbc.cfg :=
  ⟨inv_nineCbc, rfl, by decide, by decide, by decide⟩
/-- The empty text, and the text that fills `MEM`, which is 512 blocks. -/
theorem witness_MsgProcessesTheWholeText_edges : Inv (engine .classic .none [] [])
    ∧ 0 = ((0 : BitVec 13).toNat + blockBytes (engine .classic .none [] []).cfg - 1)
        / blockBytes (engine .classic .none [] []).cfg
    ∧ Inv (withText (zeros 4096) (engine .classic .none [] [])) ∧ 512 = (4096 + 8 - 1) / 8 ∧ 512 * 8 ≤ 4096 :=
  ⟨inv_engine _ _ _ rfl, by decide, inv_withText (inv_engine _ _ _ rfl) _ (le_of_eq List.length_replicate),
    by decide, by decide⟩
/-- A block of 12 bytes and a text of 4096, which does not fit padded; a direct-key CFB engine before `IVSET`. -/
theorem witness_MsgProcessesTheWholeText_checks : State.reset.cfg.ready = false
    ∧ (install (zeros 6) .classic .none [] State.reset).cfg.ready = true
    ∧ padLen (4096 : BitVec 13).toNat (blockBytes (install (zeros 6) .classic .none [] State.reset).cfg) > 4096
    ∧ (engine .classic .cfb (zeros 32) []).cfg.mode ≠ .none
    ∧ padLen (1 : BitVec 13).toNat (blockBytes (engine .classic .cfb (zeros 32) []).cfg) ≤ 4096
    ∧ padLen (1 : BitVec 13).toNat (blockBytes (engine .classic .cfb (zeros 32) []).cfg) > 0
    ∧ (engine .classic .cfb (zeros 32) []).iv0.length ≠ blockBytes (engine .classic .cfb (zeros 32) []).cfg := by
  decide
theorem witness_MsgAgreesWithBlkByBlk : Inv (withText testBlock (engine .classic .cfb iv8 []))
    ∧ (withText testBlock (engine .classic .cfb iv8 [])).cfg.ready = true
    ∧ (withText testBlock (engine .classic .cfb iv8 [])).mlen.toNat
        = 1 * blockBytes (withText testBlock (engine .classic .cfb iv8 [])).cfg
    ∧ (withText testBlock (engine .classic .cfb iv8 [])).iv0.length
        = blockBytes (withText testBlock (engine .classic .cfb iv8 [])).cfg :=
  ⟨inv_withText (inv_engine .classic .cfb iv8 (by decide)) _ (by decide), rfl, by decide, by decide⟩
/-- The empty text, with the `4*B` IV that CFB has after `INITK`. -/
theorem witness_MsgAgreesWithBlkByBlk_empty : Inv (engine .classic .cfb (zeros 32) [])
    ∧ (engine .classic .cfb (zeros 32) []).cfg.ready = true
    ∧ (engine .classic .cfb (zeros 32) []).mlen.toNat = 0 * blockBytes (engine .classic .cfb (zeros 32) []).cfg
    ∧ (0 < 0 → (engine .classic .cfb (zeros 32) []).cfg.mode ≠ .none →
        (engine .classic .cfb (zeros 32) []).iv0.length = blockBytes (engine .classic .cfb (zeros 32) []).cfg) :=
  ⟨inv_engine .classic .cfb (zeros 32) (by decide), rfl, by decide, fun h => absurd h (by decide)⟩
theorem witness_MessageRoundTrip : Inv nineCbc ∧ nineCbc.cfg.ready = true
    ∧ nineCbc.iv0.length = blockBytes nineCbc.cfg ∧ 9 = nineCbc.mlen.toNat
    ∧ 16 = padLen 9 (blockBytes nineCbc.cfg) ∧ 16 ≤ 4096 :=
  ⟨inv_nineCbc, rfl, by decide, by decide, by decide, by decide⟩

/-- Another engine with the same key, topology, mode and IV, given the ciphertext of `nineCbc` (section 2.9, M5's text
in CBC). -/
theorem witness_MessageRoundTrip_other : ∃ t t', exec (.msg .encrypt) nineCbc = .next t ∧ Inv t'
    ∧ t'.cfg = nineCbc.cfg ∧ t'.key = nineCbc.key ∧ t'.iv0 = nineCbc.iv0 ∧ t'.mlen = t.mlen
    ∧ ∀ a, a < 16 → memByte t' a = memByte t a := by
  refine ⟨_, withText (message nineCbc.cfg nineCbc.rk (memRead nineCbc 0 9) .encrypt iv8).1
    (engine .classic .cbc iv8 []), rfl, inv_withText (inv_engine .classic .cbc iv8 (by decide)) _ (by decide +kernel),
    rfl, rfl, rfl, ?_, ?_⟩ <;> decide +kernel

/-- The text of `nineCbc` with its first byte altered, and the same text on an engine with another IV. -/
def nineAltered : State := withText (nine.set 0 0xFF) (engine .classic .cbc iv8 [])

def nineOtherIv : State := withText nine (engine .classic .cbc testBlock [])

theorem witness_CbcErrorPropagation : Inv nineCbc ∧ Inv nineAltered ∧ nineCbc.cfg.ready = true
    ∧ nineCbc.cfg.mode = .cbc ∧ nineAltered.cfg = nineCbc.cfg ∧ nineAltered.rk = nineCbc.rk
    ∧ nineAltered.iv0 = nineCbc.iv0 ∧ nineAltered.mlen = nineCbc.mlen
    ∧ 16 = padLen nineCbc.mlen.toNat (blockBytes nineCbc.cfg) ∧ 16 ≤ 4096
    ∧ (∀ a, a < nineCbc.mlen.toNat → a / blockBytes nineCbc.cfg ≠ 0 → memByte nineAltered a = memByte nineCbc a)
    ∧ ∃ a, a < nineCbc.mlen.toNat ∧ a / blockBytes nineCbc.cfg = 0 ∧ memByte nineAltered a ≠ memByte nineCbc a :=
  ⟨inv_nineCbc, inv_withText (inv_engine .classic .cbc iv8 (by decide)) _ (by decide), rfl, rfl, rfl, rfl, rfl, rfl,
    by decide, by decide, by decide +kernel, 0, by decide +kernel⟩
theorem witness_OnlyTheFirstBlockDependsOnTheIv : Inv nineCbc ∧ Inv nineOtherIv ∧ nineCbc.cfg.ready = true
    ∧ nineCbc.cfg.mode ≠ .none ∧ nineOtherIv.cfg = nineCbc.cfg ∧ nineOtherIv.rk = nineCbc.rk
    ∧ nineOtherIv.mlen = nineCbc.mlen
    ∧ (∀ a, a < nineCbc.mlen.toNat → memByte nineOtherIv a = memByte nineCbc a)
    ∧ nineCbc.iv0.length = blockBytes nineCbc.cfg ∧ nineOtherIv.iv0.length = blockBytes nineCbc.cfg
    ∧ nineOtherIv.iv0 ≠ nineCbc.iv0 ∧ 0 < nineCbc.mlen.toNat
    ∧ 16 = padLen nineCbc.mlen.toNat (blockBytes nineCbc.cfg) ∧ 16 ≤ 4096 :=
  ⟨inv_nineCbc, inv_withText (inv_engine .classic .cbc testBlock (by decide)) _ (by decide), rfl, by decide, rfl, rfl,
    rfl, by decide +kernel, by decide, by decide, by decide, by decide, by decide, by decide⟩
/-- A direct-key CFB engine: an IV of 32 bytes for a block of 8, a register of one block, a text of one byte. -/
theorem witness_DirectKeyCfbNeedsAnIvset : (fresh [(0, keyK)]).cfg.ready = false
    ∧ ¬ keyLenRejected (readV (fresh [(0, keyK)]) 0).length
    ∧ (∃ t, exec (.initk 0 .classic .cfb) (fresh [(0, keyK)]) = .next t)
    ∧ (¬ keyLenRejected 2 ∧ ∃ t, exec (.initr 2 .classic .cfb) State.reset = .next t)
    ∧ Inv (withText [1] (writeV (engine .classic .cfb (zeros 32) []) 2 testBlock))
    ∧ (engine .classic .cfb (zeros 32) []).cfg.ready = true ∧ (engine .classic .cfb (zeros 32) []).cfg.mode = .cfb
    ∧ (engine .classic .cfb (zeros 32) []).iv0.length = 4 * blockBytes (engine .classic .cfb (zeros 32) []).cfg
    ∧ testBlock.length = blockBytes (engine .classic .cfb (zeros 32) []).cfg
    ∧ padLen 1 (blockBytes (engine .classic .cfb (zeros 32) []).cfg) ≤ 4096 :=
  ⟨rfl, by simp [keyLenRejected, Config.kmax, fresh, keyK, seq], ⟨_, rfl⟩,
    ⟨by simp [keyLenRejected, Config.kmax], _, rfl⟩,
    inv_withText ((inv_engine .classic .cfb (zeros 32) (.inr (by decide))).writeV 2 testBlock (by decide)) _ (by decide),
    rfl, rfl, by decide, by decide, by decide⟩

/-! The invariant, on a constructed engine with a text, an IV and a word to run. -/

theorem witness_EveryStepKeepsTheInvariant : Inv (issueNext 0x18312000 nineCbc)
    ∧ ∃ t, step (issueNext 0x18312000 nineCbc) = .next t :=
  ⟨{ inv_nineCbc with }, _, rfl⟩

end Sys2Proof.Tests
end

/-! SUPPORT. A command whose checks all pass completes inside its frame (R7, R55). First what passing the checks of a
command means, then the effect of each command that checks its operands, then the frames of the updates that have no
lemma yet, and last the 26 commands. -/

namespace Sys2Proof.Machine

/-! The checks. -/

@[simp] theorem allPass_nil : AllPass [] ↔ True := by simp [AllPass]

@[simp] theorem allPass_cons (c : Prop × ErrKind) (l : List (Prop × ErrKind)) :
    AllPass (c :: l) ↔ ¬ c.1 ∧ AllPass l := by simp [AllPass]

/-- Passing all checks of a command: step 3 of R55 in both its forms, and the checks of the command's own rule. -/
theorem allPass_checksOf {i : Instr} {s : State} :
    AllPass (checksOf i s) ↔ (needsReady i = true → s.cfg.ready = true)
      ∧ (needsUnready i = true → s.cfg.ready = false) ∧ AllPass (ownChecks s i) := by
  simp [checksOf]

theorem badKeyLen_of_not_rejected {n : Nat} (h : ¬ keyLenRejected n) : badKeyLen n = false := by
  rw [badKeyLen_false]
  unfold keyLenRejected at h
  omega

theorem modeOf_of_recognised {mf : ModeField} (h : mf ≠ .unrecognised) : ∃ m, modeOf mf = some m := by
  cases mf with
  | unrecognised => exact absurd rfl h
  | _ => exact ⟨_, rfl⟩

/-! With the checks passed, the effect: the commands outside step 3 of R55, and the two constructors. -/

theorem execLdv_ok {vr : VReg} {addr len : Nat} {s : State} (h : addr + len ≤ Config.msize) :
    exec (.ldv vr addr len) s = .next (writeV s vr (memRead s addr len)) := if_neg (Nat.not_lt.mpr h)

theorem execStv_ok {vr : VReg} {addr : Nat} {s : State} (h : addr + (readV s vr).length ≤ Config.msize) :
    exec (.stv vr addr) s = .next (memWrite s addr (readV s vr)) := if_neg (Nat.not_lt.mpr h)

theorem execSetmlen_ok {n : Nat} {s : State} (h : n ≤ Config.msize) :
    exec (.setmlen n) s = .next { s with mlen := BitVec.ofNat 13 n } := if_neg (Nat.not_lt.mpr h)

theorem execGetbit_ok {va : VReg} {pos idx : Nat} {s : State} (hi : idx < 8) (hp : pos < (readV s va).length) :
    exec (.getbit va pos idx) s = .next (writeT s (bitNat (readV s va)[pos] idx == 1)) := by
  simp [exec, execGetbit, hi, hp]

theorem execSetbit_ok {vd : VReg} {pos idx : Nat} {b : Bool} {s : State} (hi : idx < 8)
    (hp : pos < (readV s vd).length) :
    exec (.setbit vd pos idx b) s
      = .next (writeV s vd ((readV s vd).set pos (setBitOf (readV s vd)[pos] idx b))) := by
  simp [exec, execSetbit, hi, hp]

theorem execRot_ok {vd va : VReg} {d : ShiftDir} {c : Nat} {s : State} (h : (readV s va).length ≠ 0) :
    exec (.rot vd va d c) s = .next (writeV s vd (rot (readV s va) c d)) := if_neg h

theorem execXor_ok {vd va vb : VReg} {s : State} (h : (readV s va).length = (readV s vb).length) :
    exec (.xor vd va vb) s = .next (writeV s vd (xorB (readV s va) (readV s vb))) := if_neg (not_not.mpr h)

theorem execMadd_ok {vd va vb : VReg} {n : Nat} {s : State} (h : (readV s va).length = (readV s vb).length) :
    exec (.madd vd va vb n) s = .next (writeV s vd (modCombine (readV s va) (readV s vb) n)) :=
  if_neg (not_not.mpr h)

theorem execRf_ok {vd va vb : VReg} {n : Nat} {s : State} (h : (readV s va).length = (readV s vb).length)
    (h₀ : (readV s va).length ≠ 0) :
    exec (.rf vd va vb n) s = .next (writeV s vd (roundF (readV s va) (readV s vb) n)) :=
  (if_neg (not_not.mpr h)).trans (if_neg h₀)

theorem execCrnd_ok {vd va vb : VReg} {l : Bool} {s : State} (hk : (readV s vb).length ≠ 0)
    (hx : (readV s va).length = 2 * (readV s vb).length) :
    exec (.crnd vd va vb l) s
      = .next (writeV s vd (classicRound (readV s va) (readV s vb) l (8 * (readV s va).length))) :=
  if_neg (not_or.mpr ⟨hk, not_not.mpr hx⟩)

theorem execVrnd_ok {vd va vb : VReg} {d : CipherDir} {s : State} (hk : (readV s vb).length ≠ 0)
    (hx : (readV s va).length = 4 * (readV s vb).length) :
    exec (.vrnd vd va vb d) s
      = .next (writeV s vd (v1Round (readV s va) (readV s vb) d (8 * (readV s va).length))) :=
  if_neg (not_or.mpr ⟨hk, not_not.mpr hx⟩)

theorem execInitr_ok {n : Nat} {ft : FType} {mf : ModeField} {m : Mode} {s : State} (hr : s.cfg.ready = false)
    (hm : modeOf mf = some m) (hk : badKeyLen n = false) :
    exec (.initr n ft mf) s
      = .next (construct (rand s n).1 ft m (blockBytes (constructedCfg (rand s n).1 ft m)) (rand s n).2) := by
  simp [exec, execInitr, whenUnready, hr, hm, hk]

theorem execInitk_ok {va : VReg} {ft : FType} {mf : ModeField} {m : Mode} {s : State} (hr : s.cfg.ready = false)
    (hm : modeOf mf = some m) (hk : badKeyLen (readV s va).length = false) :
    exec (.initk va ft mf) s
      = .next (construct (readV s va) ft m (directIvLen (blockBytes (constructedCfg (readV s va) ft m)) m) s) := by
  simp [exec, execInitk, whenUnready, hr, hm, hk]

/-! The frames of the remaining updates. -/

theorem sameBut_mlen (s : State) (n : BitVec 13) : sameBut (fun p => p = .mlen) s { s with mlen := n } := by
  intro p hp
  cases p with
  | mlen => exact absurd rfl hp
  | _ => rfl

theorem sameBut_ivr (s : State) (x : Bytes) : sameBut (fun p => p = .ivr) s { s with ivr := x } := by
  intro p hp
  cases p with
  | ivr => exact absurd rfl hp
  | _ => rfl

theorem sameBut_iv0_ivr (s : State) (x y : Bytes) :
    sameBut (fun p => p = .iv0 ∨ p = .ivr) s { s with iv0 := x, ivr := y } := by
  intro p hp
  cases p with
  | iv0 | ivr => exact absurd (by simp) hp
  | _ => rfl

theorem sameBut_ivr_mlen (s : State) (x : Bytes) (n : BitVec 13) :
    sameBut (fun p => p = .ivr ∨ p = .mlen) s { s with ivr := x, mlen := n } := by
  intro p hp
  cases p with
  | ivr | mlen => exact absurd (by simp) hp
  | _ => rfl

theorem sameBut_rand_snd (s : State) (n : Nat) : sameBut (fun p => p = .draws) s (rand s n).2 := by
  intro p hp
  cases p with
  | draws => exact absurd rfl hp
  | _ => rfl

/-- `SRST` leaves `MEM`, the host's side and the counters of the free values (R29, R136). -/
theorem sameBut_resetRegisters (s : State) : sameBut (writesOf s .srst) s (resetRegisters s) := by
  intro p hp
  cases p with
  | mem | pending | answers | launch | draws => rfl
  | _ => exact absurd (by simp [writesOf]) hp

/-- A construction writes `CFG`, `KEY`, `RK`, `IV0`, `IVR`, and draws (R82, R85). -/
theorem sameBut_construct (k : Bytes) (ft : FType) (m : Mode) (n : Nat) (s : State) :
    sameBut (fun p => p = .cfg ∨ p = .key ∨ p = .rk ∨ p = .iv0 ∨ p = .ivr ∨ p = .draws) s (construct k ft m n s) := by
  intro p hp
  rw [construct_eq]
  cases p with
  | cfg | key | rk | iv0 | ivr | draws => exact absurd (by simp) hp
  | _ => rfl

/-- `MSG` stores its output inside the padded text, which starts at address 0 (R118, R123). -/
theorem sameBut_memWrite_message (s : State) (d : CipherDir) :
    sameBut (writesOf s (.msg d)) s (memWrite s 0 (message s.cfg s.rk (memRead s 0 s.mlen.toNat) d s.iv0).1) := by
  refine sameBut_mono ?_ (sameBut_memWrite s 0 _)
  rintro p ⟨j, hj, rfl⟩
  have hlen := message_length_le s.cfg s.rk (memRead s 0 s.mlen.toNat) d s.iv0
  rw [memRead_length] at hlen
  exact .inl ⟨0 + j, by omega, rfl⟩

/-! The commands. -/

/-- The command answers a next state that differs from the old one in the parts it is said to write only. -/
def CompletesWithinFrame (i : Instr) (s : State) : Prop :=
  ∃ t, exec i s = .next t ∧ sameBut (writesOf s i) s t

/-- The commands that end in one write of a sequence register. -/
theorem completes_writeV {i : Instr} {s : State} {vd : VReg} {x : Bytes} (h : exec i s = .next (writeV s vd x))
    (hw : writesOf s i (.v vd)) : CompletesWithinFrame i s :=
  ⟨_, h, sameBut_writeV_of s vd x hw⟩

theorem completes_initr {n : Nat} {ft : FType} {mf : ModeField} {s : State} (hr : s.cfg.ready = false)
    (hmf : mf ≠ .unrecognised) (hk : ¬ keyLenRejected n) : CompletesWithinFrame (.initr n ft mf) s := by
  obtain ⟨m, hm⟩ := modeOf_of_recognised hmf
  refine ⟨_, execInitr_ok hr hm (badKeyLen_of_not_rejected hk), sameBut_trans ?_ (sameBut_construct _ _ _ _ _)⟩
  exact sameBut_mono (by rintro p rfl; simp [writesOf]) (sameBut_rand_snd s n)

theorem completes_initk {va : VReg} {ft : FType} {mf : ModeField} {s : State} (hr : s.cfg.ready = false)
    (hmf : mf ≠ .unrecognised) (hk : ¬ keyLenRejected (readV s va).length) :
    CompletesWithinFrame (.initk va ft mf) s := by
  obtain ⟨m, hm⟩ := modeOf_of_recognised hmf
  exact ⟨_, execInitk_ok hr hm (badKeyLen_of_not_rejected hk), sameBut_construct _ _ _ _ _⟩

theorem completes_blk {vd va : VReg} {d : CipherDir} {s : State} (hr : s.cfg.ready = true)
    (hx : (readV s va).length = blockBytes s.cfg) (hiv : s.cfg.mode ≠ .none → s.ivr.length = blockBytes s.cfg) :
    CompletesWithinFrame (.blk vd va d) s :=
  ⟨_, execBlk_ok hr hx hiv, sameBut_trans (sameBut_writeV_of s vd _ (.inl rfl))
    (sameBut_mono (fun _ => .inr) (sameBut_ivr _ _))⟩

theorem completes_msg {d : CipherDir} {s : State} (hr : s.cfg.ready = true)
    (hp : padLen s.mlen.toNat (blockBytes s.cfg) ≤ Config.msize)
    (hiv : padLen s.mlen.toNat (blockBytes s.cfg) > 0 → s.cfg.mode ≠ .none → s.iv0.length = blockBytes s.cfg) :
    CompletesWithinFrame (.msg d) s :=
  ⟨_, execMsg_ok hr hp hiv, sameBut_trans (sameBut_memWrite_message s d)
    (sameBut_mono (fun _ => .inr) (sameBut_ivr_mlen _ _ _))⟩

theorem completesWithinFrame_of_allPass {i : Instr} {s : State} (h : AllPass (checksOf i s)) :
    CompletesWithinFrame i s := by
  obtain ⟨hr, hu, ho⟩ := allPass_checksOf.mp h
  cases i with
  | nop => exact ⟨s, rfl, sameBut_refl _ s⟩
  | clrerr => exact ⟨_, rfl, sameBut_clearError s⟩
  | srst => exact ⟨_, rfl, sameBut_resetRegisters s⟩
  | mov vd va => exact completes_writeV rfl rfl
  | ldv vr addr len => exact completes_writeV (execLdv_ok (by simpa [ownChecks] using ho)) rfl
  | stv vr addr => exact ⟨_, execStv_ok (by simpa [ownChecks] using ho), sameBut_memWrite s addr _⟩
  | setmlen n => exact ⟨_, execSetmlen_ok (by simpa [ownChecks] using ho), sameBut_mlen s _⟩
  | getbit va pos idx =>
    obtain ⟨hi, hp⟩ : idx < 8 ∧ pos < (readV s va).length := by simpa [ownChecks] using ho
    exact ⟨_, execGetbit_ok hi hp, sameBut_writeT s _⟩
  | setbit vd pos idx b =>
    obtain ⟨hi, hp⟩ : idx < 8 ∧ pos < (readV s vd).length := by simpa [ownChecks] using ho
    exact completes_writeV (execSetbit_ok hi hp) rfl
  | lsh vd va sdir => exact completes_writeV rfl rfl
  | rot vd va sdir count => exact completes_writeV (execRot_ok (by simpa [ownChecks] using ho)) rfl
  | xor vd va vb => exact completes_writeV (execXor_ok (by simpa [ownChecks] using ho)) rfl
  | inv vd va => exact completes_writeV rfl rfl
  | madd vd va vb nbits => exact completes_writeV (execMadd_ok (by simpa [ownChecks] using ho)) rfl
  | initr klen ftype mode =>
    obtain ⟨hm, hk⟩ : mode ≠ .unrecognised ∧ ¬ keyLenRejected klen := by simpa [ownChecks] using ho
    exact completes_initr (hu rfl) hm hk
  | initk va ftype mode =>
    obtain ⟨hm, hk⟩ : mode ≠ .unrecognised ∧ ¬ keyLenRejected (readV s va).length := by simpa [ownChecks] using ho
    exact completes_initk (hu rfl) hm hk
  | rkey vd ord j => exact completes_writeV (execRkey_ok (hr rfl)) rfl
  | rf vd va vb nbits =>
    obtain ⟨hl, h₀⟩ : (readV s va).length = (readV s vb).length ∧ (readV s va).length ≠ 0 := by
      simpa [ownChecks] using ho
    exact completes_writeV (execRf_ok hl h₀) rfl
  | crnd vd va vb last =>
    obtain ⟨hk, hx⟩ : (readV s vb).length ≠ 0 ∧ (readV s va).length = 2 * (readV s vb).length := by
      simpa [ownChecks] using ho
    exact completes_writeV (execCrnd_ok hk hx) rfl
  | vrnd vd va vb cdir =>
    obtain ⟨hk, hx⟩ : (readV s vb).length ≠ 0 ∧ (readV s va).length = 4 * (readV s vb).length := by
      simpa [ownChecks] using ho
    exact completes_writeV (execVrnd_ok hk hx) rfl
  | net vd va cdir ord => exact completes_writeV (execNet_ok (hr rfl) (by simpa [ownChecks] using ho)) rfl
  | ivset va =>
    obtain ⟨hm, hx⟩ : s.cfg.mode ≠ .none ∧ (readV s va).length = blockBytes s.cfg := by simpa [ownChecks] using ho
    exact ⟨_, execIvset_ok (hr rfl) hm hx, sameBut_iv0_ivr s _ _⟩
  | ivget vd sel =>
    have hl : (ivOf s sel).length ≤ Config.vmax := by cases sel <;> simpa [ownChecks, ivOf] using ho
    exact completes_writeV (execIvget_ok (hr rfl) hl) rfl
  | mstart => exact ⟨_, execMstart_ok (hr rfl), sameBut_ivr s _⟩
  | blk vd va cdir =>
    obtain ⟨hx, hiv⟩ : (readV s va).length = blockBytes s.cfg
        ∧ (s.cfg.mode ≠ .none → s.ivr.length = blockBytes s.cfg) := by simpa [ownChecks] using ho
    exact completes_blk (hr rfl) hx hiv
  | msg cdir =>
    obtain ⟨hp, hiv⟩ : padLen s.mlen.toNat (blockBytes s.cfg) ≤ Config.msize
        ∧ (padLen s.mlen.toNat (blockBytes s.cfg) > 0 → s.cfg.mode ≠ .none → s.iv0.length = blockBytes s.cfg) := by
      simpa [ownChecks] using ho
    exact completes_msg (hr rfl) hp hiv

/-- `CLRERR` and `SRST` clear `ERR`; it is in the frame of no other command (R135, R136). -/
theorem err_kept_or_cleared_of_frame {i : Instr} {s t : State} (h : exec i s = .next t)
    (hf : sameBut (writesOf s i) s t) : t.err = s.err ∨ t.err = none := by
  cases i with
  | clrerr => exact .inr (execClrerr_cases h ▸ rfl)
  | srst => exact .inr (execSrst_cases h ▸ rfl)
  | _ => exact .inl (hf .err (by simp [writesOf]))

/-- Settles O12: each command with its checks passed, by the effect it then has; `ERR` follows from the frame. -/
theorem passingChecksCompleteWithinTheFrame : Obligations.PassingChecksCompleteWithinTheFrame := by
  unfold Obligations.PassingChecksCompleteWithinTheFrame
  intro i s h
  obtain ⟨t, ht, hf⟩ := completesWithinFrame_of_allPass h
  exact ⟨t, ht, err_kept_or_cleared_of_frame ht hf, hf⟩

end Sys2Proof.Machine

/-! SUPPORT. Every step keeps the invariant of R28: the decoder answers well-formed commands only, each update of the
state keeps the invariant, so each command does, and so the command port and every other host event. -/

namespace Sys2Proof

/-! The fields that hold an immediate (R46 to R50). -/

@[simp] theorem posField_lt (w : Word) : posField w < 256 := field_lt w 15 8
@[simp] theorem idxField_lt (w : Word) : idxField w < 16 := field_lt w 7 4
@[simp] theorem countField_lt (w : Word) : countField w < 32768 := field_lt w 14 0
@[simp] theorem imm12Field_lt (w : Word) : imm12Field w < 4096 := field_lt w 11 0
@[simp] theorem lenField_lt (w : Word) : lenField w < 256 := field_lt w 19 12
@[simp] theorem addrField_lt (w : Word) : addrField w < 4096 := field_lt w 11 0

/-- What holds of the command holds of what `whenZero` answers: the command, or nothing (R54). -/
theorem all_whenZero (p : Instr → Bool) (l : List Nat) (i : Instr) :
    (whenZero l i).all p = (!l.all (fun f => f == 0) || p i) := by
  unfold whenZero
  cases l.all (fun f => f == 0) <;> rfl

/-- The decoder answers well-formed commands only: each immediate is a field of the word (R46 to R50, R52). -/
theorem decode_all_wellFormed (w : Word) : (decode w).all wellFormed = true := by
  have hn : field w 12 0 < 8192 := field_lt w 12 0
  have hk : field w 15 8 < 256 := field_lt w 15 8
  unfold decode
  split
  all_goals simp [all_whenZero, wellFormed, hn, hk]

theorem wellFormed_of_decode {w : Word} {i : Instr} (h : decode w = some i) : wellFormed i = true := by
  have hw := decode_all_wellFormed w
  rwa [h] at hw

end Sys2Proof

namespace Sys2Proof.Machine

/-! The updates of the state that keep the invariant. -/

/-- Nothing is constructed, every register is empty and no byte of `MEM` is listed (R29). -/
theorem inv_reset : Inv State.reset where
  unconstructed _ := ⟨rfl, rfl, fun i => by simp [State.reset], rfl, rfl⟩
  keyLength h := nomatch h
  schedule h := nomatch h
  ivLength := rfl
  runningIv := rfl
  messageLength := Nat.zero_le _
  registerLength r := by simp [readV, State.reset]
  errorWord _ := rfl
  memory := Memory.wf_nil

theorem Inv.resetRegisters {s : State} (hi : Inv s) : Inv (resetRegisters s) := { inv_reset with memory := hi.memory }

theorem inv_hardReset (s : State) : Inv (hardReset s) := { inv_reset with }

theorem Inv.clearError {s : State} (hi : Inv s) : Inv (clearError s) := { hi with errorWord := fun _ => rfl }

theorem Inv.writeT {s : State} (hi : Inv s) (x : Bool) : Inv (writeT s x) := { hi with }

theorem Inv.rand_snd {s : State} (hi : Inv s) (n : Nat) : Inv (rand s n).2 := { hi with }

theorem Inv.memWrite {s : State} (hi : Inv s) {a : Nat} {x : Bytes} (h : a + x.length ≤ Config.msize) :
    Inv (memWrite s a x) := { hi with memory := Memory.wf_writeBytes hi.memory h }

theorem Inv.mlen {s : State} (hi : Inv s) {n : Nat} (h : n ≤ Config.msize) :
    Inv { s with mlen := BitVec.ofNat 13 n } :=
  { hi with messageLength := (BitVec.toNat_ofNat n 13).trans_le ((Nat.mod_le _ _).trans h) }

theorem Inv.ivr {s : State} (hi : Inv s) (hr : s.cfg.ready = true) {x : Bytes} (h : x.length = s.iv0.length) :
    Inv { s with ivr := x } :=
  { hi with unconstructed := fun hn => absurd (hr.symm.trans hn) nofun, runningIv := h }

/-- An IV of one block in both IV registers, as `IVSET` leaves them (R119). -/
theorem Inv.iv {s : State} (hi : Inv s) (hr : s.cfg.ready = true) (hm : s.cfg.mode ≠ .none) {x : Bytes}
    (h : x.length = blockBytes s.cfg) : Inv { s with iv0 := x, ivr := x } where
  __ := hi
  unconstructed hn := absurd (hr.symm.trans hn) nofun
  ivLength := by
    show match s.cfg.mode with
      | .none => x.length = 0
      | .cbc => x.length = blockBytes s.cfg
      | .cfb => x.length = blockBytes s.cfg ∨ x.length = 4 * blockBytes s.cfg
    cases hc : s.cfg.mode with
    | none => exact absurd hc hm
    | cbc => exact h
    | cfb => exact .inl h
  runningIv := rfl

/-- A construction with a legal key and an IV of a legal length gives an engine that meets the invariant (R82). -/
theorem Inv.construct {s : State} (hi : Inv s) {k : Bytes} (ft : FType) (m : Mode) {n : Nat}
    (hk : badKeyLen k.length = false)
    (hn : n = blockBytes (constructedCfg k ft m) ∨ (m = .cfb ∧ n = 4 * blockBytes (constructedCfg k ft m))) :
    Inv (construct k ft m n s) := by
  obtain ⟨heven, hpos, hmax⟩ := badKeyLen_false.mp hk
  change k.length ≤ 62 at hmax
  have hklen : (BitVec.ofNat 8 k.length).toNat = k.length := by
    rw [BitVec.toNat_ofNat, Nat.mod_eq_of_lt (by omega)]
  rw [construct_eq]
  exact {
    unconstructed := nofun
    keyLength := fun _ => by
      simp only [install_key, install_cfg, constructedCfg, hklen, true_and]
      exact ⟨heven, by omega, hmax⟩
    schedule := fun _ => roundKeys_getElem k
    ivLength := by
      cases m with
      | none => rfl
      | cbc => simpa [constructIv, constructedCfg] using hn
      | cfb => simpa [constructIv, constructedCfg] using hn
    runningIv := rfl
    messageLength := hi.messageLength
    registerLength := hi.registerLength
    errorWord := hi.errorWord
    memory := hi.memory }

/-! Lengths of what the commands of a constructed engine write. -/

/-- Either order of the schedule holds the four round keys, so each element has the key's length (R28 (b), R81). -/
theorem Inv.scheduleKey_le_vmax {s : State} (hi : Inv s) (hr : s.cfg.ready = true) (o : SchedOrd)
    (i : Fin Config.nrounds) : (scheduleKey s.rk i o).length ≤ Config.vmax := by
  have hmax : s.cfg.klen.toNat ≤ Config.vmax := by
    obtain ⟨_, _, _, h⟩ := hi.keyLength hr
    exact h.trans (by decide)
  cases o with
  | forward => exact (hi.keysFit hr i).trans_le hmax
  | reverse => exact (hi.keysFit hr ⟨3 - i.val, by show 3 - i.val < 4; omega⟩).trans_le hmax

/-- The reported length of a message is at most the padded length (R118). -/
theorem message_count_le (cfg : Cfg) (rk : Vector Bytes Config.nrounds) (t : Bytes) (d : CipherDir) (iv : Bytes) :
    (message cfg rk t d iv).2.1 ≤ padLen t.length (blockBytes cfg) := by
  cases d with
  | encrypt => exact le_refl _
  | decrypt => exact (trimLen_le _).trans (message_length_le cfg rk t .decrypt iv)

/-- A message leaves a running IV as long as the one it starts from, also the empty one, whose IV is not tested (R118,
R123). -/
theorem message_iv_length {cfg : Cfg} {rk : Vector Bytes Config.nrounds} {t iv : Bytes} (d : CipherDir)
    (hk : KeysFit cfg rk) (hb : 0 < blockBytes cfg)
    (hiv : padLen t.length (blockBytes cfg) > 0 → cfg.mode ≠ .none → iv.length = blockBytes cfg) :
    (message cfg rk t d iv).2.2.length = iv.length := by
  rw [message_iv]
  rcases Nat.eq_zero_or_pos (padLen t.length (blockBytes cfg)) with hp | hp
  · simp [messageBlocks, hp, blocksOf, chain]
  · refine (chain_length cfg rk d _ iv hk (blocksOf_block_length _ _ _ ?_) (hiv hp)).2.2
    rw [padText_length _ _ hb]
    exact Nat.div_mul_le_self _ _

/-! The commands. -/

theorem Inv.of_isRaise {i : Instr} {s u : State} (hi : Inv s) (h : IsRaise i s u) : Inv u := by
  obtain ⟨k, rfl⟩ := h
  exact hi.raise k (encode i)

theorem execInitr_keeps_inv {n : Nat} {ft : FType} {mf : ModeField} {s u : State} (hi : Inv s)
    (h : exec (.initr n ft mf) s = .next u) : Inv u := by
  obtain hx | ⟨_, hk, m, _, rfl⟩ := execInitr_cases h
  · exact hi.of_isRaise hx
  · exact (hi.rand_snd n).construct ft m (by simpa [rand] using hk) (.inl rfl)

theorem execInitk_keeps_inv {va : VReg} {ft : FType} {mf : ModeField} {s u : State} (hi : Inv s)
    (h : exec (.initk va ft mf) s = .next u) : Inv u := by
  obtain hx | ⟨_, hk, m, _, rfl⟩ := execInitk_cases h
  · exact hi.of_isRaise hx
  · refine hi.construct ft m hk ?_
    cases m with
    | none => exact .inl rfl
    | cbc => exact .inl rfl
    | cfb => exact .inr ⟨rfl, rfl⟩

theorem execBlk_keeps_inv {vd va : VReg} {d : CipherDir} {s u : State} (hi : Inv s)
    (h : exec (.blk vd va d) s = .next u) : Inv u := by
  obtain hx | ⟨hr, hx, hiv, rfl⟩ := execBlk_cases h
  · exact hi.of_isRaise hx
  · obtain ⟨hy, hz⟩ := blockStep_length s.cfg s.rk (readV s va) d s.ivr (hi.keysFit hr) hx hiv
    exact (hi.writeV vd _ (hy.trans_le (hi.blockBytes_le_vmax hr))).ivr hr (hz.trans hi.runningIv)

theorem execMsg_keeps_inv {d : CipherDir} {s u : State} (hi : Inv s) (h : exec (.msg d) s = .next u) : Inv u := by
  obtain hx | ⟨hr, hp, hiv, rfl⟩ := execMsg_cases h
  · exact hi.of_isRaise hx
  · have hlen := message_length_le s.cfg s.rk (memRead s 0 s.mlen.toNat) d s.iv0
    have hcount := message_count_le s.cfg s.rk (memRead s 0 s.mlen.toNat) d s.iv0
    rw [memRead_length] at hlen hcount
    have hivr := message_iv_length (t := memRead s 0 s.mlen.toNat) d (hi.keysFit hr) (hi.blockBytes_bounds hr).1
      (by simpa using hiv)
    have hmem : Inv (memWrite s 0 (message s.cfg s.rk (memRead s 0 s.mlen.toNat) d s.iv0).1) :=
      hi.memWrite (by omega)
    exact (hmem.ivr hr hivr).mlen (hcount.trans hp)

/-- A command that the decoder can answer keeps the invariant: it raises, or it writes values of legal lengths. -/
theorem exec_keeps_inv {i : Instr} {s u : State} (hi : Inv s) (hw : wellFormed i = true) (h : exec i s = .next u) :
    Inv u := by
  cases i with
  | nop => exact execNop_cases h ▸ hi
  | clrerr => exact execClrerr_cases h ▸ hi.clearError
  | srst => exact execSrst_cases h ▸ hi.resetRegisters
  | mov vd va => exact execMov_cases h ▸ hi.writeV vd _ (hi.registerLength va)
  | ldv vr addr len =>
    obtain hx | ⟨_, rfl⟩ := execLdv_cases h
    · exact hi.of_isRaise hx
    · obtain ⟨_, hlen⟩ : addr < 4096 ∧ len < 256 := by simpa [wellFormed] using hw
      exact hi.writeV vr _ ((memRead_length s addr len).trans_le (Nat.le_of_lt_succ hlen))
  | stv vr addr =>
    obtain hx | ⟨ha, rfl⟩ := execStv_cases h
    · exact hi.of_isRaise hx
    · exact hi.memWrite ha
  | setmlen n =>
    obtain hx | ⟨hn, rfl⟩ := execSetmlen_cases h
    · exact hi.of_isRaise hx
    · exact hi.mlen hn
  | getbit va pos idx =>
    obtain hx | ⟨_, b, _, rfl⟩ := execGetbit_cases h
    · exact hi.of_isRaise hx
    · exact hi.writeT _
  | setbit vd pos idx b =>
    obtain hx | ⟨_, old, _, rfl⟩ := execSetbit_cases h
    · exact hi.of_isRaise hx
    · exact hi.writeV vd _ ((List.length_set ..).trans_le (hi.registerLength vd))
  | lsh vd va d => exact execLsh_cases h ▸ hi.writeV vd _ ((lsh_length _ d).trans_le (hi.registerLength va))
  | rot vd va d c =>
    obtain hx | ⟨_, rfl⟩ := execRot_cases h
    · exact hi.of_isRaise hx
    · exact hi.writeV vd _ ((rot_length _ c d).trans_le (hi.registerLength va))
  | xor vd va vb =>
    obtain hx | ⟨_, rfl⟩ := execXor_cases h
    · exact hi.of_isRaise hx
    · exact hi.writeV vd _ ((xorB_length_le_left _ _).trans (hi.registerLength va))
  | inv vd va => exact execInv_cases h ▸ hi.writeV vd _ ((invB_length _).trans_le (hi.registerLength va))
  | madd vd va vb n =>
    obtain hx | ⟨hl, rfl⟩ := execMadd_cases h
    · exact hi.of_isRaise hx
    · exact hi.writeV vd _ ((modCombine_length _ _ n hl).trans_le (hi.registerLength va))
  | initr n ft mf => exact execInitr_keeps_inv hi h
  | initk va ft mf => exact execInitk_keeps_inv hi h
  | rkey vd o j =>
    obtain hx | ⟨hr, rfl⟩ := execRkey_cases h
    · exact hi.of_isRaise hx
    · exact hi.writeV vd _ (hi.scheduleKey_le_vmax hr o j)
  | rf vd va vb n =>
    obtain hx | ⟨hl, _, rfl⟩ := execRf_cases h
    · exact hi.of_isRaise hx
    · exact hi.writeV vd _ ((roundF_length _ _ n hl).trans_le (hi.registerLength va))
  | crnd vd va vb l =>
    obtain hx | ⟨_, _, rfl⟩ := execCrnd_cases h
    · exact hi.of_isRaise hx
    · exact hi.writeV vd _ ((classicRound_length_le _ _ l _).trans (hi.registerLength va))
  | vrnd vd va vb d =>
    obtain hx | ⟨_, _, rfl⟩ := execVrnd_cases h
    · exact hi.of_isRaise hx
    · exact hi.writeV vd _ ((v1Round_length_le _ _ d _).trans (hi.registerLength va))
  | net vd va d o =>
    obtain hx | ⟨_, _, rfl⟩ := execNet_cases h
    · exact hi.of_isRaise hx
    · exact hi.writeV vd _ ((netOf_length_le _ _ _ d _).trans (hi.registerLength va))
  | ivset va =>
    obtain hx | ⟨hr, hm, hl, rfl⟩ := execIvset_cases h
    · exact hi.of_isRaise hx
    · exact hi.iv hr hm hl
  | ivget vd sel =>
    obtain hx | ⟨_, hl, rfl⟩ := execIvget_cases h
    · exact hi.of_isRaise hx
    · exact hi.writeV vd _ hl
  | mstart =>
    obtain hx | ⟨hr, rfl⟩ := execMstart_cases h
    · exact hi.of_isRaise hx
    · exact hi.ivr hr rfl
  | blk vd va d => exact execBlk_keeps_inv hi h
  | msg d => exact execMsg_keeps_inv hi h

/-! The command port and the host window: what each can do, said once. -/

/-- A command word changes nothing, raises `IllegalCommand`, or executes a well-formed command (R55). -/
theorem runCommand_cases {cw : Word} {s u : State} (h : runCommand cw s = .next u) :
    u = s ∨ (s.err = none ∧ u = { s with err := some .illegalCommand, ecw := cw })
      ∨ ∃ i, wellFormed i = true ∧ exec i s = .next u := by
  unfold runCommand at h
  split at h
  · split at h
    · exact .inr (.inr ⟨.clrerr, rfl, h⟩)
    · split at h
      · exact .inr (.inr ⟨.srst, rfl, h⟩)
      · cases h; exact .inl rfl
  · split at h
    · cases h; exact .inr (.inl ⟨‹_›, rfl⟩)
    · rename_i i hd
      exact .inr (.inr ⟨i, wellFormed_of_decode hd, h⟩)

theorem windowRow_mem_lt {o : BitVec 13} {a : Nat} (h : windowRow o = .mem a) : a < Config.msize := by
  unfold windowRow at h
  split_ifs at h with _ _ _ hr
  exact WindowRow.mem.inj h ▸ hr.2

/-- A host event that answers a next state is a hard reset, a command word, a byte written inside `MEM`, a read, or
without effect (R41, R160). -/
theorem hostEvent_cases {e : HostEvent} {s u : State} (h : hostEvent e s = .next u) :
    u = hardReset s ∨ (∃ cw, runCommand cw s = .next u) ∨ (∃ a x, a < Config.msize ∧ u = memWrite s a [x])
      ∨ (∃ x, u = { s with answers := x :: s.answers }) ∨ u = s := by
  cases e with
  | hardReset => cases h; exact .inl rfl
  | write32 o x =>
    simp only [hostEvent, hostWrite32] at h
    split at h
    · exact .inr (.inl ⟨x, h⟩)
    all_goals cases h
    all_goals exact .inr (.inr (.inr (.inr rfl)))
  | read32 o =>
    simp only [hostEvent, hostRead32, answer] at h
    split at h <;> cases h <;> exact .inr (.inr (.inr (.inl ⟨_, rfl⟩)))
  | write8 o x =>
    simp only [hostEvent, hostWrite8] at h
    split at h <;> cases h
    · exact .inr (.inr (.inl ⟨_, x, windowRow_mem_lt ‹_›, rfl⟩))
    · exact .inr (.inr (.inr (.inr rfl)))
  | read8 o =>
    simp only [hostEvent, hostRead8, answer] at h
    split at h <;> cases h <;> exact .inr (.inr (.inr (.inl ⟨_, rfl⟩)))

theorem runCommand_keeps_inv {cw : Word} {s u : State} (hi : Inv s) (h : runCommand cw s = .next u) : Inv u := by
  obtain rfl | ⟨_, rfl⟩ | ⟨i, hw, hx⟩ := runCommand_cases h
  · exact hi
  · exact hi.raise .illegalCommand cw
  · exact exec_keeps_inv hi hw hx

theorem hostEvent_keeps_inv {e : HostEvent} {s u : State} (hi : Inv s) (h : hostEvent e s = .next u) : Inv u := by
  obtain rfl | ⟨cw, hc⟩ | ⟨a, x, ha, rfl⟩ | ⟨x, rfl⟩ | rfl := hostEvent_cases h
  · exact inv_hardReset s
  · exact runCommand_keeps_inv hi hc
  · exact hi.memWrite ha
  · exact { hi with }
  · exact hi

/-- Settles O58: taking an event off the host's list touches no register, and the event itself keeps the invariant. -/
theorem everyStepKeepsTheInvariant : Obligations.EveryStepKeepsTheInvariant := by
  unfold Obligations.EveryStepKeepsTheInvariant
  intro s t hi h
  unfold step nextEvent at h
  split at h
  · cases h; exact hi
  · rename_i e rest _
    have hrest : Inv { s with pending := rest } := { hi with }
    exact hostEvent_keeps_inv hrest h

/-- Settles O57: every register is empty, no error is latched and nothing is written to `MEM`. -/
theorem resetMeetsTheInvariant : Obligations.ResetMeetsTheInvariant := inv_reset

end Sys2Proof.Machine

/-! SUPPORT. The fields of `STATUS` (R25), the reset table (R29), and the flag `T`, which no command reads (R12). -/

namespace Sys2Proof.Machine

/-! The fields of `STATUS` (R25). -/

theorem statusWord_err (s : State) : (statusWord s).extractLsb' 0 3 = errCode s.err := by
  simp (disch := omega) only [statusWord, BitVec.extractLsb'_append_eq_of_add_le, BitVec.extractLsb'_eq_self]

theorem statusWord_ready (s : State) : (statusWord s).getLsbD 3 = s.cfg.ready := by
  simp only [statusWord, BitVec.getLsbD_append]
  simp

theorem statusWord_t (s : State) : (statusWord s).getLsbD 4 = s.t := by
  simp only [statusWord, BitVec.getLsbD_append]
  simp

theorem statusWord_ftype (s : State) : (statusWord s).extractLsb' 5 1 = BitVec.ofNat 1 s.cfg.ftype.code := by
  simp (disch := omega) only [statusWord, BitVec.extractLsb'_append_eq_of_add_le, BitVec.extractLsb'_append_eq_of_le,
    Nat.reduceSub, BitVec.extractLsb'_eq_self]

theorem statusWord_mode (s : State) : (statusWord s).extractLsb' 6 2 = BitVec.ofNat 2 s.cfg.mode.code := by
  simp (disch := omega) only [statusWord, BitVec.extractLsb'_append_eq_of_add_le, BitVec.extractLsb'_append_eq_of_le,
    Nat.reduceSub, BitVec.extractLsb'_eq_self]

theorem statusWord_klen (s : State) : (statusWord s).extractLsb' 8 8 = s.cfg.klen := by
  simp (disch := omega) only [statusWord, BitVec.extractLsb'_append_eq_of_add_le, BitVec.extractLsb'_append_eq_of_le,
    Nat.reduceSub, BitVec.extractLsb'_eq_self]

theorem statusWord_mlen (s : State) : (statusWord s).extractLsb' 16 13 = s.mlen := by
  simp (disch := omega) only [statusWord, BitVec.extractLsb'_append_eq_of_add_le, BitVec.extractLsb'_append_eq_of_le,
    Nat.reduceSub, BitVec.extractLsb'_eq_self]

theorem statusWord_zero (s : State) : (statusWord s).extractLsb' 29 3 = 0 := by
  simp (disch := omega) only [statusWord, BitVec.extractLsb'_append_eq_of_le, Nat.reduceSub, BitVec.extractLsb'_eq_self]
  rfl

theorem sameBut_answers (s : State) (l : List Word) : sameBut (fun p => p = .answers) s { s with answers := l } := by
  intro p hp
  cases p with
  | answers => exact absurd rfl hp
  | _ => rfl

/-- `STATUS` and `ECW` are read without any other effect (R25, R41). -/
theorem hostRead_status_ecw (s : State) {o : BitVec 13} (ho : o = 0x0004 ∨ o = 0x0008) :
    ∃ t, hostEvent (.read32 o) s = .next t ∧ sameBut (fun p => p = .answers) s t := by
  obtain rfl | rfl := ho
  · exact ⟨_, rfl, sameBut_answers s _⟩
  · exact ⟨_, rfl, sameBut_answers s _⟩

theorem statusWord_congr {s u : State} (he : s.err = u.err) (hc : s.cfg = u.cfg) (ht : s.t = u.t)
    (hm : s.mlen = u.mlen) : statusWord s = statusWord u := by
  simp only [statusWord, he, hc, ht, hm]

/-- Settles O16: each field of `STATUS` by its lemma, the codes of the enumerations by computing them. -/
theorem statusShowsTheRegisters : Obligations.StatusShowsTheRegisters := by
  unfold Obligations.StatusShowsTheRegisters
  refine ⟨fun s => ?_, fun s u he hc ht hm => statusWord_congr he hc ht hm⟩
  have hftype : (BitVec.ofNat 1 s.cfg.ftype.code).toNat = s.cfg.ftype.code := by cases s.cfg.ftype <;> rfl
  have hmode : (BitVec.ofNat 2 s.cfg.mode.code).toNat = s.cfg.mode.code := by cases s.cfg.mode <;> rfl
  rw [statusWord_err, statusWord_ftype, statusWord_mode]
  refine ⟨?_, ?_, ?_, ?_, ?_, ?_, ?_, ?_, rfl, statusWord_ready s, statusWord_t s, ?_, ?_, ?_, ?_, ?_, hftype, hmode,
    statusWord_klen s, statusWord_mlen s, statusWord_zero s, fun o => hostRead_status_ecw s⟩
  all_goals intro h; rw [h]; rfl

/-! The reset table (R29). -/

/-- Every reset leaves the engine's registers as in the state after reset; the rest is `MEM`, the host's side and the
counters of the free values. -/
theorem eq_reset_but_rest {s : State}
    (h : s = State.reset ∨ (∃ u, hostEvent .hardReset u = .next s) ∨ ∃ u, exec .srst u = .next s) :
    ∃ m p a l d, s = { State.reset with mem := m, pending := p, answers := a, launch := l, draws := d } := by
  obtain rfl | ⟨u, hu⟩ | ⟨u, hu⟩ := h
  · exact ⟨_, _, _, _, _, rfl⟩
  · cases hu
    exact ⟨_, _, _, _, _, rfl⟩
  · rw [execSrst_cases hu]
    exact ⟨_, _, _, _, _, rfl⟩

/-- Settles O13: the registers by the state after reset; neither reset moves the counter of drawn bytes. -/
theorem resetTable : Obligations.ResetTable := by
  unfold Obligations.ResetTable
  refine ⟨fun s hs => ?_, fun u => ⟨_, rfl, fun _ => rfl, rfl⟩, fun u => ⟨_, rfl, rfl⟩⟩
  obtain ⟨m, p, a, l, d, rfl⟩ := eq_reset_but_rest hs
  refine ⟨fun r => ?_, rfl, rfl, rfl, fun i => ?_, rfl, rfl, rfl, rfl, rfl⟩
  · simp [readV, State.reset]
  · simp [State.reset]

/-! The flag (R12). -/

/-- A result with `b` in `T` instead of what it has there. -/
def withT (b : Bool) : Result → Result
  | .next u => .next (writeT u b)
  | .fault r => .fault r
  | .refused r => .refused r

theorem withT_ite (b : Bool) (c : Prop) [Decidable c] (x y : Result) :
    withT b (if c then x else y) = if c then withT b x else withT b y := apply_ite (withT b) c x y

theorem withT_whenReady (b : Bool) (cw : Word) (s : State) (k : Result) :
    withT b (whenReady cw s k) = whenReady cw (writeT s b) (withT b k) := withT_ite b _ _ _

theorem withT_whenUnready (b : Bool) (cw : Word) (s : State) (k : Result) :
    withT b (whenUnready cw s k) = whenUnready cw (writeT s b) (withT b k) := withT_ite b _ _ _

/-- Every command but `GETBIT` and `SRST` does the same with another value in `T`, and passes it through: its checks
and its operands do not look at `T`, and its writes do not touch it. -/
theorem exec_writeT {i : Instr} (s : State) (b : Bool) (hg : ∀ va pos idx, i ≠ .getbit va pos idx) (hs : i ≠ .srst) :
    exec i (writeT s b) = withT b (exec i s) := by
  cases i with
  | getbit va pos idx => exact absurd rfl (hg va pos idx)
  | srst => exact absurd rfl hs
  | nop | clrerr | mov | lsh | inv => rfl
  | ldv | stv | setmlen | rot | xor | madd | rf | crnd | vrnd =>
    simp only [exec, execLdv, execStv, execSetmlen, execRot, execXor, execMadd, execRf, execCrnd, execVrnd, withT_ite]
    rfl
  | setbit vd pos idx x =>
    simp only [exec, execSetbit, withT_ite, readV_writeT]
    cases (readV s vd)[pos]? <;> rfl
  | initr n ft mf =>
    cases mf <;> simp only [exec, execInitr, modeOf, withT_whenUnready, withT_ite] <;> rfl
  | initk va ft mf =>
    cases mf <;> simp only [exec, execInitk, modeOf, withT_whenUnready, withT_ite] <;> rfl
  | rkey | net | ivset | ivget | mstart | blk | msg =>
    simp only [exec, execRkey, execNet, execIvset, execIvget, execMstart, execBlk, execMsg, withT_whenReady, withT_ite]
    rfl

/-- A command that answers the same for every value of `T` keeps `T`: take the value that is there. -/
theorem t_kept_of_exec {i : Instr} {s u : State} (h : exec i s = .next u)
    (hg : ∀ va pos idx, i ≠ .getbit va pos idx) (hs : i ≠ .srst) : u.t = s.t := by
  have hself : exec i s = withT s.t (exec i s) := exec_writeT s s.t hg hs
  rw [h] at hself
  have hu : u = writeT u s.t := Host.Outcome.next.inj hself
  calc u.t = (writeT u s.t).t := congrArg State.t hu
    _ = s.t := rfl

theorem execGetbit_writeT (va : VReg) (pos idx : Nat) (s : State) (b : Bool) :
    ∃ c, exec (.getbit va pos idx) (writeT s b) = withT c (exec (.getbit va pos idx) s) := by
  simp only [exec, execGetbit, readV_writeT]
  split
  · exact ⟨b, rfl⟩
  · split
    · exact ⟨b, rfl⟩
    · exact ⟨_, rfl⟩

/-- With another value in `T`, every command answers the same but for `T`; `GETBIT` and `SRST` overwrite it. -/
theorem exec_writeT_same_but_t (i : Instr) (s : State) (b : Bool) :
    ∃ c, exec i (writeT s b) = withT c (exec i s)
      ∧ ((∀ va pos idx, i ≠ .getbit va pos idx) → i ≠ .srst → c = b) := by
  by_cases hg : ∀ va pos idx, i ≠ .getbit va pos idx
  · by_cases hs : i = .srst
    · subst hs
      exact ⟨false, rfl, fun _ hs => absurd rfl hs⟩
    · exact ⟨b, exec_writeT s b hg hs, fun _ _ => rfl⟩
  · push Not at hg
    obtain ⟨va, pos, idx, rfl⟩ := hg
    obtain ⟨c, hc⟩ := execGetbit_writeT va pos idx s b
    exact ⟨c, hc, fun hg => absurd rfl (hg va pos idx)⟩

theorem bitNat_beq_one (x : Byte) (idx : Nat) : (bitNat x idx == 1) = x.getLsbD idx := by
  rw [BitVec.getLsbD, Nat.testBit_eq_decide_div_mod_eq]
  rfl

/-- Settles O38: the other value of `T` by `exec_writeT_same_but_t`, the bit that `GETBIT` writes by its effect. -/
theorem flagIsWrittenByGetbitAndReadByNone : Obligations.FlagIsWrittenByGetbitAndReadByNone := by
  unfold Obligations.FlagIsWrittenByGetbitAndReadByNone
  refine ⟨fun i s u b h => ?_, fun va pos idx s x hidx hx => ?_, statusWord_t, rfl⟩
  · obtain ⟨c, hc, hb⟩ := exec_writeT_same_but_t i s b
    rw [h] at hc
    exact ⟨c, hc, fun hg hs => ⟨hb hg hs, t_kept_of_exec h hg hs⟩⟩
  · obtain ⟨hpos, rfl⟩ := List.getElem?_eq_some_iff.mp hx
    rw [execGetbit_ok hidx hpos, bitNat_beq_one]

end Sys2Proof.Machine

/-! SUPPORT. The host window, row by row (R41), and that every command word, hence every host access of a listed width,
answers a next state and leaves the host's pending events. -/

namespace Sys2Proof.Machine

/-! The rows: the bytes of `MEM`, and the reserved offsets for both widths. -/

theorem windowRow_mem {a : Nat} (h : a < 4096) : windowRow (BitVec.ofNat 13 (0x1000 + a)) = .mem a := by
  have ho : (BitVec.ofNat 13 (0x1000 + a)).toNat = 0x1000 + a := by
    rw [BitVec.toNat_ofNat, Nat.mod_eq_of_lt (by omega)]
  have hreg : ∀ r : BitVec 13, r.toNat < 0x1000 → BitVec.ofNat 13 (0x1000 + a) ≠ r := by
    rintro r hr rfl
    omega
  rw [windowRow, if_neg (hreg _ (by decide)), if_neg (hreg _ (by decide)), if_neg (hreg _ (by decide)), ho,
    Nat.add_sub_cancel_left, if_pos ⟨Nat.le_add_right _ _, h⟩]

theorem windowRow_reserved {o : BitVec 13} (h : o.toNat < 0x1000) (hcmd : o ≠ 0x0000) (hstatus : o ≠ 0x0004)
    (hecw : o ≠ 0x0008) : windowRow o = .reserved := by
  rw [windowRow, if_neg hcmd, if_neg hstatus, if_neg hecw, if_neg (fun hm => Nat.not_lt.mpr hm.1 h)]

theorem hostEvent_read8_mem {o : BitVec 13} {a : Nat} (h : windowRow o = .mem a) (s : State) :
    hostEvent (.read8 o) s = .next { s with answers := (memByte s a).setWidth 32 :: s.answers } := by
  simp only [hostEvent, hostRead8, h, answer]

theorem hostEvent_write8_mem {o : BitVec 13} {a : Nat} (h : windowRow o = .mem a) (x : Byte) (s : State) :
    hostEvent (.write8 o x) s = .next (memWrite s a [x]) := by
  simp only [hostEvent, hostWrite8, h]

theorem hostEvent_write_reserved {o : BitVec 13} (h : windowRow o = .reserved) (s : State) :
    (∀ x, hostEvent (.write32 o x) s = .next s) ∧ ∀ x, hostEvent (.write8 o x) s = .next s := by
  simp only [hostEvent, hostWrite32, hostWrite8, h, implies_true, and_self]

theorem hostEvent_read_reserved {o : BitVec 13} (h : windowRow o = .reserved) (s : State) :
    hostEvent (.read32 o) s = .next { s with answers := 0 :: s.answers }
      ∧ hostEvent (.read8 o) s = .next { s with answers := 0 :: s.answers } := by
  simp only [hostEvent, hostRead32, hostRead8, h, answer, and_self]

/-- One byte stored is read back, and is all that changed (R33). -/
theorem memWrite_byte (s : State) (a : Nat) (x : Byte) :
    memByte (memWrite s a [x]) a = x ∧ sameBut (fun p => p = .mem a) s (memWrite s a [x]) := by
  refine ⟨memByte_memWrite_in s a [x] 0 Nat.zero_lt_one, sameBut_mono ?_ (sameBut_memWrite s a [x])⟩
  rintro p ⟨j, hj, rfl⟩
  obtain rfl : j = 0 := Nat.lt_one_iff.mp hj
  rfl

/-- Settles O14: the three registers by their fixed offsets, `MEM` and the reserved offsets by the row they fall in. -/
theorem hostWindowTable : Obligations.HostWindowTable := by
  unfold Obligations.HostWindowTable
  intro s
  refine ⟨fun _ => rfl, rfl, rfl, rfl, fun _ => ⟨rfl, rfl⟩, fun a ha => ?read, fun a x ha => ?write,
    fun o ho hcmd hstatus hecw => ?reserved⟩
  case read => exact hostEvent_read8_mem (windowRow_mem ha) s
  case write => exact ⟨_, hostEvent_write8_mem (windowRow_mem ha) x s, memWrite_byte s a x⟩
  case reserved =>
    have hrow := windowRow_reserved ho hcmd hstatus hecw
    obtain ⟨hw32, hw8⟩ := hostEvent_write_reserved hrow s
    exact ⟨hw32, hw8, hostEvent_read_reserved hrow s⟩

/-! Every command answers a next state and does not touch the host's list (R40, R144). -/

/-- The result is a next state, with the pending events of `s`. -/
def KeepsPending (s : State) (r : Result) : Prop := ∃ t, r = .next t ∧ t.pending = s.pending

theorem keepsPending_raise (s : State) (k : ErrKind) (cw : Word) : KeepsPending s (raise k cw s) := ⟨_, rfl, rfl⟩

/-- One check of a command: raise if it fails, else go on. -/
theorem keepsPending_check {s : State} {c : Prop} [Decidable c] {k : ErrKind} {cw : Word} {r : Result}
    (h : KeepsPending s r) : KeepsPending s (if c then raise k cw s else r) := by
  split
  · exact keepsPending_raise s k cw
  · exact h

theorem keepsPending_whenReady {s : State} {cw : Word} {r : Result} (h : KeepsPending s r) :
    KeepsPending s (whenReady cw s r) := by
  unfold whenReady
  split
  · exact h
  · exact keepsPending_raise s .badState cw

theorem keepsPending_whenUnready {s : State} {cw : Word} {r : Result} (h : KeepsPending s r) :
    KeepsPending s (whenUnready cw s r) := keepsPending_check h

theorem construct_pending (k : Bytes) (ft : FType) (m : Mode) (n : Nat) (s : State) :
    (construct k ft m n s).pending = s.pending := by
  rw [construct_eq, install_pending]

/-- The cases are the commands by the checks they make before their effect. -/
theorem exec_keepsPending (i : Instr) (s : State) : KeepsPending s (exec i s) := by
  cases i with
  | nop | clrerr | srst | mov | lsh | inv => exact ⟨_, rfl, rfl⟩
  | ldv | stv | setmlen | rot | xor | madd | crnd | vrnd => exact keepsPending_check ⟨_, rfl, rfl⟩
  | rf => exact keepsPending_check (keepsPending_check ⟨_, rfl, rfl⟩)
  | getbit | setbit =>
    refine keepsPending_check ?_
    split
    · exact keepsPending_raise s _ _
    · exact ⟨_, rfl, rfl⟩
  | initr | initk =>
    refine keepsPending_whenUnready ?_
    split
    · exact keepsPending_raise s _ _
    · exact keepsPending_check ⟨_, rfl, construct_pending _ _ _ _ _⟩
  | rkey | mstart => exact keepsPending_whenReady ⟨_, rfl, rfl⟩
  | net | ivget => exact keepsPending_whenReady (keepsPending_check ⟨_, rfl, rfl⟩)
  | ivset | blk | msg => exact keepsPending_whenReady (keepsPending_check (keepsPending_check ⟨_, rfl, rfl⟩))

/-- A faulted engine executes the two words of R145 and ignores the others; an engine without an error executes what
the word decodes to, or raises (R55). -/
theorem runCommand_keepsPending (cw : Word) (s : State) : KeepsPending s (runCommand cw s) := by
  unfold runCommand
  cases s.err with
  | some k =>
    dsimp only
    split_ifs
    · exact exec_keepsPending .clrerr s
    · exact exec_keepsPending .srst s
    · exact ⟨s, rfl, rfl⟩
  | none =>
    cases decode cw with
    | none => exact keepsPending_raise s .illegalCommand cw
    | some i => exact exec_keepsPending i s

/-! The widths: a word access fits every row but `MEM`, a byte access fits `MEM` and the reserved offsets (R41). -/

theorem hostEvent_unlisted {e : HostEvent} (h : listedAccess e = false) (s : State) :
    hostEvent e s = .refused .hostAccessWidth := by
  revert h
  cases e with
  | hardReset => exact nofun
  | write32 o x | read32 o =>
    simp only [listedAccess, hostEvent, hostWrite32, hostRead32]
    cases windowRow o with
    | mem a => exact fun _ => rfl
    | cmd | status | ecw | reserved => exact nofun
  | write8 o x | read8 o =>
    simp only [listedAccess, hostEvent, hostWrite8, hostRead8]
    cases windowRow o with
    | cmd | status | ecw => exact fun _ => rfl
    | mem | reserved => exact nofun

theorem hostEvent_listed_keepsPending {e : HostEvent} (h : listedAccess e = true) (s : State) :
    KeepsPending s (hostEvent e s) := by
  revert h
  cases e with
  | hardReset => exact fun _ => ⟨hardReset s, rfl, rfl⟩
  | write32 o x =>
    simp only [listedAccess, hostEvent, hostWrite32]
    cases windowRow o with
    | cmd => exact fun _ => runCommand_keepsPending x s
    | mem a => exact nofun
    | status | ecw | reserved => exact fun _ => ⟨s, rfl, rfl⟩
  | read32 o =>
    simp only [listedAccess, hostEvent, hostRead32]
    cases windowRow o with
    | mem a => exact nofun
    | cmd | status | ecw | reserved => exact fun _ => ⟨_, rfl, rfl⟩
  | write8 o x | read8 o =>
    simp only [listedAccess, hostEvent, hostWrite8, hostRead8]
    cases windowRow o with
    | cmd | status | ecw => exact nofun
    | mem | reserved => exact fun _ => ⟨_, rfl, rfl⟩

/-- Settles O15: a width that is not listed, and one that is. -/
theorem onlyUnlistedWidthsAreRefused : Obligations.OnlyUnlistedWidthsAreRefused := by
  unfold Obligations.OnlyUnlistedWidthsAreRefused
  exact fun e s => ⟨fun h => hostEvent_unlisted h s, fun h => hostEvent_listed_keepsPending h s⟩

end Sys2Proof.Machine

/-! SUPPORT. Decode and encode agree (30_encoding.md). The fields of a command's line of R52 lie side by side and make
up the word, so exactly one word has them, the encoding (`hasFields_iff`); and a word decodes to a command exactly if it
has them (`decode_eq_some_iff`). The round trips, the rows of the table and the worked encodings follow. -/

namespace Sys2Proof.Machine

/-! The number that a list of adjacent fields makes up. -/

/-- The fields lie side by side, the first ending below bit `top` and the last at bit 0. -/
def Tiles : Nat → List WordField → Prop
  | top, [] => top = 0
  | top, (hi, lo, _) :: l => hi + 1 = top ∧ lo ≤ hi ∧ Tiles lo l

/-- The value fits the field. -/
def FitsField (f : WordField) : Prop := f.2.2 < 2 ^ (f.1 + 1 - f.2.1)

/-- The number with each field at its value and no other bit. -/
def fieldsNumber : List WordField → Nat
  | [] => 0
  | (_, lo, v) :: l => v * 2 ^ lo + fieldsNumber l

theorem two_pow_field_mul {hi lo : Nat} (h : lo ≤ hi) : 2 ^ (hi + 1 - lo) * 2 ^ lo = 2 ^ (hi + 1) := by
  rw [← pow_add, Nat.sub_add_cancel (Nat.le_succ_of_le h)]

/-- The bits up to `hi`: the field and the bits below it. -/
theorem toNat_mod_eq_field_add (w : Word) {hi lo : Nat} (h : lo ≤ hi) :
    w.toNat % 2 ^ (hi + 1) = field w hi lo * 2 ^ lo + w.toNat % 2 ^ lo := by
  rw [← two_pow_field_mul h, Nat.mul_comm, Nat.mod_mul, field_eq, Nat.mul_comm, Nat.add_comm]

theorem fieldsNumber_lt {top : Nat} {l : List WordField} (ht : Tiles top l) (hf : ∀ f ∈ l, FitsField f) :
    fieldsNumber l < 2 ^ top := by
  induction l generalizing top with
  | nil => exact Nat.two_pow_pos top
  | cons f l ih =>
    obtain ⟨hi, lo, v⟩ := f
    obtain ⟨rfl, hlo, ht⟩ := ht
    obtain ⟨hv, hl⟩ := List.forall_mem_cons.mp hf
    calc v * 2 ^ lo + fieldsNumber l < v * 2 ^ lo + 2 ^ lo := Nat.add_lt_add_left (ih ht hl) _
      _ = (v + 1) * 2 ^ lo := (Nat.succ_mul ..).symm
      _ ≤ 2 ^ (hi + 1) := two_pow_field_mul hlo ▸ Nat.mul_le_mul_right _ hv

/-- Two numbers in base `b`, each a high part and a digit, are equal if and only if both parts are. -/
theorem mul_add_eq_mul_add_iff {b q r p s : Nat} (hr : r < b) (hs : s < b) :
    q * b + r = p * b + s ↔ q = p ∧ r = s := by
  refine ⟨fun h => ?_, fun ⟨hq, he⟩ => by rw [hq, he]⟩
  have hq : q = p := by
    have := congrArg (· / b) h
    simpa [Nat.mul_comm _ b, Nat.mul_add_div (Nat.zero_lt_of_lt hr), Nat.div_eq_of_lt hr, Nat.div_eq_of_lt hs]
      using this
  subst hq
  exact ⟨rfl, Nat.add_left_cancel h⟩

/-- A word has adjacent fields at given values if and only if the values fit and make up its bits below `top`. -/
theorem fields_iff_number {w : Word} {top : Nat} {l : List WordField} (ht : Tiles top l) :
    (∀ f ∈ l, field w f.1 f.2.1 = f.2.2) ↔ (∀ f ∈ l, FitsField f) ∧ w.toNat % 2 ^ top = fieldsNumber l := by
  induction l generalizing top with
  | nil =>
    obtain rfl : top = 0 := ht
    simp [fieldsNumber, Nat.mod_one]
  | cons f l ih =>
    obtain ⟨hi, lo, v⟩ := f
    obtain ⟨rfl, hlo, ht⟩ := ht
    have hlow : w.toNat % 2 ^ lo < 2 ^ lo := Nat.mod_lt _ (Nat.two_pow_pos lo)
    simp only [List.forall_mem_cons, ih ht, toNat_mod_eq_field_add w hlo, fieldsNumber]
    constructor
    · rintro ⟨hv, hl, hn⟩
      exact ⟨⟨hv ▸ field_lt w hi lo, hl⟩, by rw [hv, hn]⟩
    · rintro ⟨⟨_, hl⟩, hn⟩
      obtain ⟨hv, hn⟩ := (mul_add_eq_mul_add_iff hlow (fieldsNumber_lt ht hl)).mp hn
      exact ⟨hv, hl, hn⟩

/-! The word of a command is made up of its fields. -/

theorem tiles_wordFields (i : Instr) : Tiles 32 (wordFields i) := by
  cases i <;> simp [Tiles, wordFields]

theorem fitsField_iff {hi lo v : Nat} : FitsField (hi, lo, v) ↔ v < 2 ^ (hi + 1 - lo) := Iff.rfl

/-- The immediates are the only values that their types do not make fit. -/
theorem wellFormed_iff_fits (i : Instr) : wellFormed i = true ↔ ∀ f ∈ wordFields i, FitsField f := by
  cases i <;> simp only [wellFormed, wordFields, List.forall_mem_cons, List.not_mem_nil, IsEmpty.forall_iff,
    implies_true, fitsField_iff, Nat.reduceAdd, Nat.reduceSub, Nat.reducePow, Nat.reduceLT, Fin.is_lt, shiftDir_code_lt,
    cipherDir_code_lt, schedOrd_code_lt, ftype_code_lt, modeField_code_lt, ivSel_code_lt, flagCode_lt,
    Bool.and_eq_true, decide_eq_true_eq, and_true, true_and, and_comm]

/-- The formats (R46 to R50) shift each field to its place. -/
theorem encode_eq_fieldsNumber (i : Instr) : encode i = BitVec.ofNat 32 (fieldsNumber (wordFields i)) := by
  cases i <;> refine congrArg (BitVec.ofNat 32) ?_ <;> simp only [wordFields, fieldsNumber] <;> omega

/-- Exactly one word has the fields of a command, its encoding, and only if the command is well formed. -/
theorem hasFields_iff {w : Word} {i : Instr} : HasFields w i ↔ wellFormed i = true ∧ encode i = w := by
  rw [HasFields, fields_iff_number (tiles_wordFields i), Nat.mod_eq_of_lt w.isLt, wellFormed_iff_fits,
    encode_eq_fieldsNumber]
  refine and_congr_right fun hf => ⟨fun h => ?_, fun h => ?_⟩
  · rw [← h, BitVec.ofNat_toNat, BitVec.setWidth_eq]
  · rw [← h, BitVec.toNat_ofNat, Nat.mod_eq_of_lt (fieldsNumber_lt (tiles_wordFields i) hf)]

/-! An operand that the decoder reads has its field as its code, so reading drops no bit (R51, R52). -/

@[simp] theorem val_regOf_vd (w : Word) : (regOf (field w 23 20)).val = field w 23 20 := val_regOf (field_lt w 23 20)
@[simp] theorem val_regOf_va (w : Word) : (regOf (field w 19 16)).val = field w 19 16 := val_regOf (field_lt w 19 16)
@[simp] theorem val_regOf_vb (w : Word) : (regOf (field w 15 12)).val = field w 15 12 := val_regOf (field_lt w 15 12)

theorem field_bit_lt (w : Word) (k : Nat) : field w k k < 2 := by
  simpa only [Nat.add_sub_cancel_left, pow_one] using field_lt w k k

@[simp] theorem code_shiftDirOf_bit (w : Word) (k : Nat) : (shiftDirOf (field w k k)).code = field w k k :=
  code_shiftDirOf (field_bit_lt w k)
@[simp] theorem code_cipherDirOf_bit (w : Word) (k : Nat) : (cipherDirOf (field w k k)).code = field w k k :=
  code_cipherDirOf (field_bit_lt w k)
@[simp] theorem code_schedOrdOf_bit (w : Word) (k : Nat) : (schedOrdOf (field w k k)).code = field w k k :=
  code_schedOrdOf (field_bit_lt w k)
@[simp] theorem code_ftypeOf_bit (w : Word) (k : Nat) : (ftypeOf (field w k k)).code = field w k k :=
  code_ftypeOf (field_bit_lt w k)
@[simp] theorem code_ivSelOf_bit (w : Word) (k : Nat) : (ivSelOf (field w k k)).code = field w k k :=
  code_ivSelOf (field_bit_lt w k)
@[simp] theorem flagCode_flagOf_bit (w : Word) (k : Nat) : flagCode (flagOf (field w k k)) = field w k k :=
  code_flagOf (field_bit_lt w k)
@[simp] theorem code_modeFieldOf_field (w : Word) : (modeFieldOf (field w 1 0)).code = field w 1 0 :=
  code_modeFieldOf (field_lt w 1 0)
@[simp] theorem field_mod_nrounds (w : Word) : field w 1 0 % Config.nrounds = field w 1 0 :=
  Nat.mod_eq_of_lt (field_lt w 1 0)

/-! The decoder reads the fields of the table. -/

/-- The decoder's named fields, by their bits (R46 to R50). -/
theorem namedFields (w : Word) : opField w = field w 31 24 ∧ vdField w = field w 23 20 ∧ vaField w = field w 19 16
    ∧ vbField w = field w 15 12 ∧ imm12Field w = field w 11 0 ∧ imm16Field w = field w 15 0
    ∧ sdirField w = field w 15 15 ∧ countField w = field w 14 0 ∧ posField w = field w 15 8 ∧ idxField w = field w 7 4
    ∧ zeroField w = field w 3 1 ∧ bField w = field w 0 0 ∧ lenField w = field w 19 12 ∧ addrField w = field w 11 0 :=
  ⟨rfl, rfl, rfl, rfl, rfl, rfl, rfl, rfl, rfl, rfl, rfl, rfl, rfl, rfl⟩

/-- The cases are the decoder's: the four rows without a must-be-zero field (`LDV`, `ROT`, `MADD`, `RF`), the unassigned
opcodes, and the rows that test their must-be-zero fields. -/
theorem hasFields_of_decode {w : Word} {i : Instr} (h : decode w = some i) : HasFields w i := by
  simp only [decode, namedFields] at h
  split at h
  case h_5 | h_11 | h_14 | h_18 =>
    cases h
    simp_all [HasFields, wordFields]
  case h_27 => cases h
  all_goals
    obtain ⟨hz, rfl⟩ := whenZero_eq_some.mp h
    simp_all [HasFields, wordFields]

/-- The opcode selects the decoder's row, and each field of the word is the code of the operand it is read as. -/
theorem decode_of_hasFields {w : Word} {i : Instr} (h : HasFields w i) : decode w = some i := by
  cases i <;> simp only [HasFields, wordFields, List.forall_mem_cons] at h <;> simp [decode, namedFields, whenZero, h]

theorem decode_eq_some_iff {w : Word} {i : Instr} : decode w = some i ↔ HasFields w i :=
  ⟨hasFields_of_decode, decode_of_hasFields⟩

/-- Settles O1: the encoding has the fields of the command. -/
theorem decodeInvertsEncode : Obligations.DecodeInvertsEncode := by
  unfold Obligations.DecodeInvertsEncode
  intro i hw
  exact decode_eq_some_iff.mpr (hasFields_iff.mpr ⟨hw, rfl⟩)

/-- Settles O2: a word that decodes to a command has its fields, and only the encoding has them. -/
theorem encodeInvertsDecode : Obligations.EncodeInvertsDecode := by
  unfold Obligations.EncodeInvertsDecode
  intro w i h
  exact hasFields_iff.mp (decode_eq_some_iff.mp h)

/-- Settles O4: the fields by `decode_eq_some_iff`, the codes of the enumerations by computing them. -/
theorem decodeReadsTheFieldsOfTheTable : Obligations.DecodeReadsTheFieldsOfTheTable := by
  unfold Obligations.DecodeReadsTheFieldsOfTheTable
  exact ⟨fun _ _ => decode_eq_some_iff, rfl, rfl, rfl, rfl, rfl, rfl, rfl, rfl, rfl, rfl, rfl, rfl, rfl, rfl, rfl, rfl⟩

/-- Settles O5: the words are the encodings, and decoding inverts encoding. -/
theorem workedEncodingsOfTheSpec : Obligations.WorkedEncodingsOfTheSpec := by
  unfold Obligations.WorkedEncodingsOfTheSpec
  intro p hp
  have hword : wellFormed p.1 = true ∧ encode p.1 = p.2 := by
    revert p
    decide
  obtain ⟨hw, he⟩ := hword
  exact ⟨he, he ▸ decodeInvertsEncode p.1 hw⟩

/-! The rows of the opcode table (R53): the mask of a row covers the opcode and the must-be-zero fields. -/

/-- The must-be-zero fields of a command's word, each by its high bit and its low bit (R52). -/
def zeroFields : Instr → List (Nat × Nat)
  | .nop | .clrerr | .srst | .mstart => [(23, 20), (19, 16), (15, 0)]
  | .mov _ _ => [(15, 0)]
  | .ldv _ _ _ | .rot _ _ _ _ | .madd _ _ _ _ | .rf _ _ _ _ => []
  | .stv _ _ => [(19, 12)]
  | .setmlen _ => [(23, 20), (19, 16), (15, 13)]
  | .getbit _ _ _ => [(23, 20), (3, 1), (0, 0)]
  | .setbit _ _ _ _ => [(19, 16), (3, 1)]
  | .lsh _ _ _ => [(14, 0)]
  | .xor _ _ _ => [(11, 0)]
  | .inv _ _ => [(15, 12), (11, 0)]
  | .initr _ _ _ => [(23, 20), (19, 16), (7, 3)]
  | .initk _ _ _ => [(23, 20), (15, 3)]
  | .rkey _ _ _ => [(19, 16), (15, 3)]
  | .crnd _ _ _ _ | .vrnd _ _ _ _ => [(11, 1)]
  | .net _ _ _ _ => [(15, 2)]
  | .ivset _ => [(23, 20), (15, 0)]
  | .ivget _ _ => [(19, 16), (15, 1)]
  | .blk _ _ _ => [(15, 1)]
  | .msg _ => [(23, 20), (19, 16), (15, 1)]

/-- The mask of a list of fields. -/
def fieldsMask (l : List (Nat × Nat)) : Word := l.foldr (fun f m => fieldMask f.1 f.2 ||| m) 0

theorem and_fieldsMask (w : Word) {l : List (Nat × Nat)} (h : ∀ f ∈ l, f.1 < 32) :
    w &&& fieldsMask l = 0 ↔ ∀ f ∈ l, field w f.1 f.2 = 0 := by
  induction l with
  | nil => simp [fieldsMask]
  | cons f l ih =>
    obtain ⟨hf, hl⟩ := List.forall_mem_cons.mp h
    rw [List.forall_mem_cons, ← and_zeroField w f.1 f.2 hf, ← ih hl]
    change w &&& (fieldMask f.1 f.2 ||| fieldsMask l) = 0 ↔ _
    rw [BitVec.and_or_distrib_left]
    exact BitVec.or_eq_zero_iff

theorem tableRow_mask (i : Instr) : (tableRow i).mask = fieldMask 31 24 ||| fieldsMask (zeroFields i) := by
  cases i <;> simp only [tableRow, zeroFields] <;> decide

theorem tableRow_fixed (i : Instr) :
    (tableRow i).fixed = BitVec.ofNat 32 (field (tableRow i).fixed 31 24 * 2 ^ 24) := by
  cases i <;> simp only [tableRow] <;> decide

theorem tableRow_fixed_and_opcodeMask (i : Instr) : (tableRow i).fixed &&& fieldMask 31 24 = (tableRow i).fixed := by
  cases i <;> simp only [tableRow] <;> decide

theorem opcodeMask_and_zeroFields (i : Instr) : fieldMask 31 24 &&& fieldsMask (zeroFields i) = 0 := by
  cases i <;> simp only [zeroFields] <;> decide

theorem zeroFields_lt (i : Instr) : ∀ f ∈ zeroFields i, f.1 < 32 := by
  cases i <;> simp only [zeroFields] <;> decide

/-- A word matches a row if and only if it has the row's opcode and each must-be-zero field is zero (R53, R54). -/
theorem matches_row_iff (w : Word) (i : Instr) : w &&& (tableRow i).mask = (tableRow i).fixed
    ↔ field w 31 24 = field (tableRow i).fixed 31 24 ∧ ∀ f ∈ zeroFields i, field w f.1 f.2 = 0 := by
  rw [tableRow_mask, and_zero_mask w _ _ _ (opcodeMask_and_zeroFields i) (tableRow_fixed_and_opcodeMask i),
    and_fieldsMask w (zeroFields_lt i), ← and_fieldMask w 31 24 _ (by omega) (field_lt _ 31 24), ← tableRow_fixed]

theorem opcode_mem_wordFields (i : Instr) : (31, 24, field (tableRow i).fixed 31 24) ∈ wordFields i := by
  cases i <;> refine List.mem_cons.mpr (.inl (congrArg (fun op => (31, 24, op)) ?_)) <;> simp only [tableRow] <;> decide

theorem zeroFields_mem_wordFields (i : Instr) : ∀ f ∈ zeroFields i, (f.1, f.2, 0) ∈ wordFields i := by
  cases i <;> simp [zeroFields, wordFields]

theorem matches_row_of_hasFields {w : Word} {i : Instr} (h : HasFields w i) :
    w &&& (tableRow i).mask = (tableRow i).fixed :=
  (matches_row_iff w i).mpr ⟨h _ (opcode_mem_wordFields i), fun f hf => h _ (zeroFields_mem_wordFields i f hf)⟩

/-- The opcode selects the decoder's row, and the row tests no other field than the must-be-zero ones. -/
theorem decode_map_tableRow_of_matches {w : Word} {r : Instr} (h : w &&& (tableRow r).mask = (tableRow r).fixed) :
    (decode w).map tableRow = some (tableRow r) := by
  obtain ⟨hop, hz⟩ := (matches_row_iff w r).mp h
  cases r <;> simp only [zeroFields, tableRow, List.forall_mem_cons] at hop hz
    <;> simp [decode, namedFields, whenZero, tableRow, field_eq (BitVec.ofNat _ _), hop, hz]

theorem decode_row_iff (w : Word) (r : Instr) : (∃ i, decode w = some i ∧ tableRow i = tableRow r)
    ↔ w &&& (tableRow r).mask = (tableRow r).fixed := by
  constructor
  · rintro ⟨i, hd, hr⟩
    exact hr ▸ matches_row_of_hasFields (hasFields_of_decode hd)
  · exact fun h => Option.map_eq_some_iff.mp (decode_map_tableRow_of_matches h)

theorem tableRow_mem_opcodeTable (i : Instr) : tableRow i ∈ opcodeTable := by
  cases i <;> simp only [tableRow] <;> decide

/-- Settles O3: a row of the table is the row of a command, and `decode_row_iff` speaks of every command's row. -/
theorem decodeAcceptsExactlyTheTableRows : Obligations.DecodeAcceptsExactlyTheTableRows := by
  unfold Obligations.DecodeAcceptsExactlyTheTableRows
  refine ⟨fun row hrow w => ?_, fun _ i _ => tableRow_mem_opcodeTable i, by decide, rfl⟩
  obtain ⟨r, _, rfl⟩ := List.mem_map.mp hrow
  exact decode_row_iff w r

end Sys2Proof.Machine

/-! SUPPORT. What a command word does (R54, R55), and that a step performs the next host event (R40). -/

namespace Sys2Proof.Machine

/-! An engine with no error latched. -/

theorem runCommand_of_decode {cw : Word} {i : Instr} {s : State} (hs : s.err = none) (hd : decode cw = some i) :
    runCommand cw s = exec i s := by
  simp only [runCommand, hs, hd]

theorem runCommand_of_decode_none {cw : Word} {s : State} (hs : s.err = none) (hd : decode cw = none) :
    runCommand cw s = .next { s with err := some .illegalCommand, ecw := cw } := by
  simp only [runCommand, hs, hd, raise]

/-- Settles O9: a word outside the table does not decode, since what decodes matches its command's row. -/
theorem wordsOutsideTheTableRaiseIllegalCommand : Obligations.WordsOutsideTheTableRaiseIllegalCommand := by
  unfold Obligations.WordsOutsideTheTableRaiseIllegalCommand
  intro cw s hs hrows
  refine runCommand_of_decode_none hs (Option.eq_none_iff_forall_ne_some.mpr fun i hd => ?_)
  exact hrows _ (tableRow_mem_opcodeTable i) (matches_row_of_hasFields (hasFields_of_decode hd))

/-- A command that starts without an error raises one, or ends without an error: no effect writes a kind to `ERR`. -/
theorem isRaise_or_no_error {i : Instr} {s t : State} (hs : s.err = none) (h : exec i s = .next t) :
    IsRaise i s t ∨ t.err = none := by
  cases i with
  | nop => exact .inr (execNop_cases h ▸ hs)
  | clrerr => exact .inr (execClrerr_cases h ▸ rfl)
  | srst => exact .inr (execSrst_cases h ▸ rfl)
  | mov => exact .inr (execMov_cases h ▸ hs)
  | lsh => exact .inr (execLsh_cases h ▸ hs)
  | inv => exact .inr (execInv_cases h ▸ hs)
  | ldv => exact (execLdv_cases h).imp_right fun ⟨_, e⟩ => e ▸ hs
  | stv => exact (execStv_cases h).imp_right fun ⟨_, e⟩ => e ▸ hs
  | setmlen => exact (execSetmlen_cases h).imp_right fun ⟨_, e⟩ => e ▸ hs
  | getbit => exact (execGetbit_cases h).imp_right fun ⟨_, _, _, e⟩ => e ▸ hs
  | setbit => exact (execSetbit_cases h).imp_right fun ⟨_, _, _, e⟩ => e ▸ hs
  | rot => exact (execRot_cases h).imp_right fun ⟨_, e⟩ => e ▸ hs
  | xor => exact (execXor_cases h).imp_right fun ⟨_, e⟩ => e ▸ hs
  | madd => exact (execMadd_cases h).imp_right fun ⟨_, e⟩ => e ▸ hs
  | initr =>
    refine (execInitr_cases h).imp_right fun ⟨_, _, _, _, e⟩ => ?_
    rw [e, construct_eq, install_err]
    exact hs
  | initk =>
    refine (execInitk_cases h).imp_right fun ⟨_, _, _, _, e⟩ => ?_
    rw [e, construct_eq, install_err]
    exact hs
  | rkey => exact (execRkey_cases h).imp_right fun ⟨_, e⟩ => e ▸ hs
  | rf => exact (execRf_cases h).imp_right fun ⟨_, _, e⟩ => e ▸ hs
  | crnd => exact (execCrnd_cases h).imp_right fun ⟨_, _, e⟩ => e ▸ hs
  | vrnd => exact (execVrnd_cases h).imp_right fun ⟨_, _, e⟩ => e ▸ hs
  | net => exact (execNet_cases h).imp_right fun ⟨_, _, e⟩ => e ▸ hs
  | ivset => exact (execIvset_cases h).imp_right fun ⟨_, _, _, e⟩ => e ▸ hs
  | ivget => exact (execIvget_cases h).imp_right fun ⟨_, _, e⟩ => e ▸ hs
  | mstart => exact (execMstart_cases h).imp_right fun ⟨_, e⟩ => e ▸ hs
  | blk => exact (execBlk_cases h).imp_right fun ⟨_, _, _, e⟩ => e ▸ hs
  | msg => exact (execMsg_cases h).imp_right fun ⟨_, _, _, e⟩ => e ▸ hs

/-! A faulted engine (R145). -/

theorem runCommand_clrerrWord (s : State) : runCommand 0x01000000 s = .next (clearError s) := by
  cases hs : s.err with
  | none => exact runCommand_of_decode hs (i := .clrerr) (decodeInvertsEncode .clrerr rfl)
  | some k => simp only [runCommand, hs]; rfl

theorem runCommand_srstWord (s : State) : runCommand 0x02000000 s = .next (resetRegisters s) := by
  cases hs : s.err with
  | none => exact runCommand_of_decode hs (i := .srst) (decodeInvertsEncode .srst rfl)
  | some k => simp only [runCommand, hs]; rfl

theorem runCommand_ignored {cw : Word} {s : State} (hs : s.err ≠ none) (hc : cw ≠ 0x01000000) (hr : cw ≠ 0x02000000) :
    runCommand cw s = .next s := by
  obtain ⟨k, hk⟩ := Option.ne_none_iff_exists'.mp hs
  simp only [runCommand, hk]
  exact (if_neg hc).trans (if_neg hr)

/-- Settles O8: the two words that are always executed; else a faulted engine ignores the word, and an engine without an
error raises `IllegalCommand` on it, or executes what it decodes to, whose encoding is the word. -/
theorem everyWordHasOneOutcome : Obligations.EveryWordHasOneOutcome := by
  unfold Obligations.EveryWordHasOneOutcome
  intro cw s
  by_cases hc : cw = 0x01000000
  · subst hc
    exact ⟨_, runCommand_clrerrWord s, .inr (.inr ⟨rfl, .clrerr, decodeInvertsEncode .clrerr rfl, rfl⟩)⟩
  by_cases hr : cw = 0x02000000
  · subst hr
    exact ⟨_, runCommand_srstWord s, .inr (.inr ⟨rfl, .srst, decodeInvertsEncode .srst rfl, rfl⟩)⟩
  by_cases hs : s.err = none
  · cases hd : decode cw with
    | none => exact ⟨_, runCommand_of_decode_none hs hd, .inr (.inl ⟨hs, _, rfl⟩)⟩
    | some i =>
      obtain ⟨t, ht, _⟩ := exec_keepsPending i s
      refine ⟨t, (runCommand_of_decode hs hd).trans ht, .inr ?_⟩
      obtain ⟨k, rfl⟩ | hn := isRaise_or_no_error hs ht
      · obtain ⟨_, rfl⟩ := encodeInvertsDecode cw i hd
        exact .inl ⟨hs, k, rfl⟩
      · exact .inr ⟨hn, i, rfl, ht⟩
  · exact ⟨s, runCommand_ignored hs hc hr, .inl ⟨hs, hc, hr, rfl⟩⟩

/-! A step. -/

theorem step_of_pending {s : State} {e : HostEvent} {rest : List HostEvent} (h : s.pending = e :: rest) :
    step s = hostEvent e { s with pending := rest } := by
  simp only [step, nextEvent, h]

theorem step_of_idle {s : State} (h : s.pending = []) : step s = .next s := by
  simp only [step, nextEvent, h]

/-- The next event writes to `CMD` a word that decodes, and no error is latched. -/
theorem step_of_decode {s : State} {cw : Word} {rest : List HostEvent} {i : Instr}
    (hp : s.pending = .write32 0 cw :: rest) (hs : s.err = none) (hd : decode cw = some i) :
    step s = exec i { s with pending := rest } :=
  (step_of_pending hp).trans (runCommand_of_decode (s := { s with pending := rest }) hs hd)

/-- Settles O6: `withFetchWord` is one more write to `CMD` in front of the events of the state. -/
theorem stepRunsTheDecodedCommand : Obligations.StepRunsTheDecodedCommand := by
  unfold Obligations.StepRunsTheDecodedCommand
  refine ⟨fun _ _ _ => step_of_pending, fun _ => step_of_idle, fun _ _ _ _ => step_of_decode,
    fun s nbits w i hs hd => ?_⟩
  exact step_of_decode (s := s.withFetchWord nbits w) rfl hs hd

end Sys2Proof.Machine

/-! SUPPORT. Bit primitives (40_bit_primitives.md). One bit of one byte for `GETBIT` and `SETBIT`; the bytes of a
written number for `LSH`; `ROT` as the rotation of the bit string, from which the laws of R66 follow. -/

namespace Sys2Proof.Machine

/-! One bit of one byte (R60, R61): `idx` is tested before `pos`. -/

theorem byteNat_of_lt {x : Bytes} {j : Nat} (h : j < x.length) : byteNat x j = x[j].toNat := by
  simp [byteNat, h]

theorem execGetbit_idx {va : VReg} {pos idx : Nat} {s : State} (hi : idx ≥ 8) :
    exec (.getbit va pos idx) s = .next (raisedState .indexOutOfRange (.getbit va pos idx) s) := if_pos hi

theorem execGetbit_pos {va : VReg} {pos idx : Nat} {s : State} (hi : idx < 8) (hp : pos ≥ (readV s va).length) :
    exec (.getbit va pos idx) s = .next (raisedState .invalidArgument (.getbit va pos idx) s) := by
  simp [exec, execGetbit, raise, raisedState, hi, hp]

theorem execSetbit_idx {vd : VReg} {pos idx : Nat} {b : Bool} {s : State} (hi : idx ≥ 8) :
    exec (.setbit vd pos idx b) s = .next (raisedState .indexOutOfRange (.setbit vd pos idx b) s) := if_pos hi

theorem execSetbit_pos {vd : VReg} {pos idx : Nat} {b : Bool} {s : State} (hi : idx < 8)
    (hp : pos ≥ (readV s vd).length) :
    exec (.setbit vd pos idx b) s = .next (raisedState .invalidArgument (.setbit vd pos idx b) s) := by
  simp [exec, execSetbit, raise, raisedState, hi, hp]

/-- Settles O23: the two raises in the order of the checks, then the bit that is written to `T`. -/
theorem getbitReadsOneBit : Obligations.GetbitReadsOneBit := by
  unfold Obligations.GetbitReadsOneBit
  refine fun va pos idx s => ⟨execGetbit_idx, execGetbit_pos, fun hi hp => ?_⟩
  refine ⟨_, execGetbit_ok hi hp, ?_, sameBut_writeT s _⟩
  rw [byteNat_of_lt hp]
  exact beq_iff_eq

/-- Bit `i` of `n` replaced by `c`: below it stands `n % 2 ^ i`, above it `n / 2 ^ i / 2`. -/
theorem testBit_replaceBit (n i m : Nat) (c : Bool) :
    (n - n / 2 ^ i % 2 * 2 ^ i + flagCode c * 2 ^ i).testBit m = if m = i then c else n.testBit m := by
  have hn : n = 2 ^ i * (2 * (n / 2 ^ i / 2)) + n / 2 ^ i % 2 * 2 ^ i + n % 2 ^ i := by
    calc n = 2 ^ i * (n / 2 ^ i) + n % 2 ^ i := (Nat.div_add_mod n _).symm
      _ = 2 ^ i * (2 * (n / 2 ^ i / 2) + n / 2 ^ i % 2) + n % 2 ^ i := by rw [Nat.div_add_mod (n / 2 ^ i)]
      _ = _ := by ring
  have hnew : n - n / 2 ^ i % 2 * 2 ^ i + flagCode c * 2 ^ i
      = 2 ^ i * (2 * (n / 2 ^ i / 2) + flagCode c) + n % 2 ^ i := by
    rw [Nat.mul_add, Nat.mul_comm _ (flagCode c)]
    omega
  rw [hnew, Nat.testBit_two_pow_mul_add _ (Nat.mod_lt _ (Nat.two_pow_pos i))]
  obtain h | rfl | h := Nat.lt_trichotomy m i
  · simp [h, h.ne, Nat.testBit_mod_two_pow]
  · cases c <;> simp [flagCode]
  · obtain ⟨k, rfl⟩ := Nat.exists_eq_add_of_lt h
    have habove : (2 * (n / 2 ^ i / 2) + flagCode c) / 2 = n / 2 ^ (i + 1) := by
      have hc : flagCode c < 2 := by cases c <;> decide
      rw [pow_succ, ← Nat.div_div_eq_div_mul]
      omega
    rw [if_neg (by omega), if_neg (by omega), show i + k + 1 - i = k + 1 by omega, Nat.testBit_succ, habove,
      Nat.testBit_div_two_pow]
    congr 1
    omega

theorem getLsbD_setBitOf (old : Byte) {idx : Nat} (x : Bool) (m : Nat) (hi : idx < 8) :
    (setBitOf old idx x).getLsbD m = if m = idx then x else old.getLsbD m := by
  have hbit := testBit_replaceBit old.toNat idx m x
  rw [BitVec.testBit_toNat] at hbit
  rw [setBitOf, bitNat, BitVec.getLsbD_ofNat, hbit]
  by_cases hm : m < 8
  · simp [hm]
  · simp [hm, show m ≠ idx by omega, old.getLsbD_of_ge m (by omega)]

/-- Settles O24: the two raises in the order of the checks, then one byte is replaced, and in it one bit. -/
theorem setbitReplacesOneBit : Obligations.SetbitReplacesOneBit := by
  unfold Obligations.SetbitReplacesOneBit
  refine fun vd pos idx b s => ⟨execSetbit_idx, execSetbit_pos, fun hi hp => ?_⟩
  refine ⟨_, execSetbit_ok hi hp, ?_⟩
  rw [readV_writeV_same]
  have hbyte : ((readV s vd).set pos (setBitOf (readV s vd)[pos] idx b)).getD pos 0
      = setBitOf (readV s vd)[pos] idx b := by simp [hp]
  have hold : (readV s vd).getD pos 0 = (readV s vd)[pos] := by simp [hp]
  rw [hbyte, hold]
  refine ⟨List.length_set, fun j hj => List.getElem?_set_ne hj.symm, ?_, fun m hm => ?_, sameBut_writeV s vd _⟩
  · rw [getLsbD_setBitOf _ _ _ hi, if_pos rfl]
  · rw [getLsbD_setBitOf _ _ _ hi, if_neg hm]

/-! The shift by one bit (R62). -/

/-- Byte `j` of a sequence is a digit of its integer. -/
theorem byteNat_eq_digit {x : Bytes} {j : Nat} (h : j < x.length) :
    byteNat x j = intOf x / 256 ^ (x.length - 1 - j) % 256 := by
  rw [byteNat_of_lt h, getElem_toNat]

/-- The same digit, from the place of the byte after it. -/
theorem byteNat_eq_digit_above {x : Bytes} {j : Nat} (h : j + 1 < x.length) :
    byteNat x j = intOf x / 256 ^ (x.length - 1 - (j + 1)) / 256 % 256 := by
  rw [byteNat_eq_digit (by omega), Nat.div_div_eq_div_mul, ← pow_succ]
  congr 3
  omega

theorem byteNat_seqOf (v : Nat) {n j : Nat} (h : j < n) : byteNat (seqOf v n) j = v / 256 ^ (n - 1 - j) % 256 := by
  rw [byteNat_of_lt (by simpa using h), seqOf_getElem]
  rfl

/-- Writing a number keeps the digits there are. -/
theorem seqOf_mod (v n : Nat) : seqOf (v % 256 ^ n) n = seqOf v n :=
  eq_of_intOf_eq (by simp) (by simp [intOf_seqOf])

theorem lsh_left (x : Bytes) : lsh x .left = seqOf (2 * intOf x) x.length := seqOf_mod _ _

theorem intOf_lsh_left (x : Bytes) : intOf (lsh x .left) = 2 * intOf x % 256 ^ x.length := by
  rw [lsh_left, intOf_seqOf]

theorem intOf_lsh_right (x : Bytes) : intOf (lsh x .right) = intOf x / 2 := by
  rw [lsh, intOf_seqOf]
  exact Nat.mod_eq_of_lt ((Nat.div_le_self _ 2).trans_lt (intOf_lt x))

theorem byteNat_lsh_left {x : Bytes} {j : Nat} (h : j + 1 < x.length) :
    byteNat (lsh x .left) j = 2 * byteNat x j % 256 + byteNat x (j + 1) / 2 ^ 7 % 2 := by
  have hdigit : 2 * intOf x / 256 ^ (x.length - 1 - j) = intOf x / 256 ^ (x.length - 1 - (j + 1)) / 128 := by
    rw [Nat.div_div_eq_div_mul, show x.length - 1 - j = x.length - 1 - (j + 1) + 1 by omega,
      show ∀ k, 256 ^ (k + 1) = 2 * (256 ^ k * 128) by intro k; ring, Nat.mul_div_mul_left _ _ (by norm_num)]
  rw [lsh_left, byteNat_seqOf _ (by omega), hdigit, byteNat_eq_digit h, byteNat_eq_digit_above h]
  omega

theorem byteNat_lsh_left_last {x : Bytes} {j : Nat} (h : j + 1 = x.length) :
    byteNat (lsh x .left) j = 2 * byteNat x j % 256 := by
  have hk : x.length - 1 - j = 0 := by omega
  rw [lsh_left, byteNat_seqOf _ (by omega), byteNat_eq_digit (by omega), hk]
  omega

theorem byteNat_lsh_right {x : Bytes} {j : Nat} (h : j + 1 < x.length) :
    byteNat (lsh x .right) (j + 1) = byteNat x (j + 1) / 2 + 128 * (byteNat x j % 2) := by
  rw [lsh, byteNat_seqOf _ h, byteNat_eq_digit h, byteNat_eq_digit_above h, Nat.div_right_comm]
  omega

theorem byteNat_lsh_right_first {x : Bytes} (h : 0 < x.length) :
    byteNat (lsh x .right) 0 = byteNat x 0 / 2 := by
  have hfirst : intOf x / 256 ^ (x.length - 1 - 0) < 256 := by
    apply Nat.div_lt_of_lt_mul
    rw [← pow_succ, show x.length - 1 - 0 + 1 = x.length by omega]
    exact intOf_lt x
  rw [lsh, byteNat_seqOf _ h, byteNat_eq_digit h, Nat.div_right_comm]
  rw [Nat.mod_eq_of_lt hfirst]
  exact Nat.mod_eq_of_lt ((Nat.div_le_self _ 2).trans_lt hfirst)

/-- Settles O25: the integer of the shifted sequence, and its bytes, whose carry is a digit of the same integer. -/
theorem lshShiftsByOneBit : Obligations.LshShiftsByOneBit := by
  unfold Obligations.LshShiftsByOneBit
  refine fun vd va s => ⟨⟨_, rfl, ?_⟩, ⟨_, rfl, ?_⟩⟩
  · rw [readV_writeV_same]
    exact ⟨lsh_length _ _, intOf_lsh_left _, fun _ => byteNat_lsh_left, fun _ => byteNat_lsh_left_last,
      sameBut_writeV s vd _⟩
  · rw [readV_writeV_same]
    exact ⟨lsh_length _ _, intOf_lsh_right _, fun _ => byteNat_lsh_right, byteNat_lsh_right_first,
      sameBut_writeV s vd _⟩

/-! Rotation (R64, R66): `Rol` rotates the bit string, and the bit string determines the sequence. -/

theorem bitsOf_injective : Function.Injective bitsOf := by
  intro x y h
  have hl : x.length = y.length := by simpa using congrArg List.length h
  exact eq_of_bitsOf_eq hl fun i hi => List.getElem_of_eq h _

theorem bitsOf_rol_eq_rotate (x : Bytes) (c : Nat) : bitsOf (rol x c) = (bitsOf x).rotate c := by
  apply List.ext_getElem
  · simp
  · intro i h₁ h₂
    rw [bitsOf_rol x c i (by simpa using h₁), List.getElem_rotate]
    simp only [bitsOf_length]

theorem rol_zero (x : Bytes) : rol x 0 = x := bitsOf_injective (by rw [bitsOf_rol_eq_rotate, List.rotate_zero])

theorem rol_mod (x : Bytes) (c : Nat) : rol x (c % (8 * x.length)) = rol x c :=
  bitsOf_injective (by simp only [bitsOf_rol_eq_rotate, ← bitsOf_length x, List.rotate_mod])

theorem rol_rol (x : Bytes) (c e : Nat) : rol (rol x c) e = rol x (c + e) :=
  bitsOf_injective (by simp only [bitsOf_rol_eq_rotate, List.rotate_rotate])

/-- A left rotation by a multiple of the width is the identity. -/
theorem rol_of_dvd {x : Bytes} {c : Nat} (h : 8 * x.length ∣ c) : rol x c = x := by
  rw [← rol_mod, Nat.mod_eq_zero_of_dvd h, rol_zero]

/-- A count and its complement make up a multiple of the width. -/
theorem dvd_add_complement {w : Nat} (hw : 0 < w) (c : Nat) : w ∣ c + (w - c % w) % w := by
  have hsum : c + (w - c % w) = w * (c / w + 1) := by
    have := Nat.mod_lt c hw
    have := Nat.div_add_mod c w
    rw [Nat.mul_succ]
    omega
  rw [Nat.dvd_iff_mod_eq_zero, Nat.add_mod_mod, hsum, Nat.mul_mod_right]

theorem rol_add_complement {x : Bytes} (h : x ≠ []) (c : Nat) :
    rol x (c + (8 * x.length - c % (8 * x.length)) % (8 * x.length)) = x := by
  have hn : 0 < x.length := List.length_pos_of_ne_nil h
  exact rol_of_dvd (dvd_add_complement (by omega) c)

/-- Right undoes left. -/
theorem ror_rol {x : Bytes} (h : x ≠ []) (c : Nat) : ror (rol x c) c = x := by
  rw [ror, rol_length, rol_rol, rol_add_complement h]

/-- Left undoes right. -/
theorem rol_ror {x : Bytes} (h : x ≠ []) (c : Nat) : rol (ror x c) c = x := by
  rw [ror, rol_rol, Nat.add_comm, rol_add_complement h]

/-- Left is right by the complement: going on to the left by the complement completes the width. -/
theorem rol_eq_ror_complement {x : Bytes} (h : x ≠ []) (c : Nat) :
    rol x c = ror x ((8 * x.length - c % (8 * x.length)) % (8 * x.length)) := by
  have hrol : rol x c ≠ [] := List.ne_nil_of_length_pos (by simpa using List.length_pos_of_ne_nil h)
  rw [← ror_rol hrol ((8 * x.length - c % (8 * x.length)) % (8 * x.length)), rol_rol, rol_add_complement h]

/-- A rotation in either direction is a left rotation. -/
theorem exists_rot_eq_rol (x : Bytes) (c : Nat) (d : ShiftDir) : ∃ e, rot x c d = rol x e := by
  cases d with
  | left => exact ⟨_, rfl⟩
  | right => exact ⟨_, rfl⟩

theorem rot_of_dvd {x : Bytes} {c : Nat} (hx : x ≠ []) (h : 8 * x.length ∣ c) (d : ShiftDir) : rot x c d = x := by
  cases d with
  | left => exact rol_of_dvd h
  | right =>
    calc ror x c = ror (rol x c) c := by rw [rol_of_dvd h]
      _ = x := ror_rol hx c

theorem rot_mod (x : Bytes) (c : Nat) (d : ShiftDir) : rot x (c % (8 * x.length)) d = rot x c d := by
  cases d with
  | left => exact rol_mod x c
  | right => simp only [rot, ror, Nat.mod_mod]

theorem count_bitsOf_rot (x : Bytes) (c : Nat) (d : ShiftDir) (b : Bool) :
    (bitsOf (rot x c d)).count b = (bitsOf x).count b := by
  obtain ⟨e, he⟩ := exists_rot_eq_rol x c d
  rw [he, bitsOf_rol_eq_rotate]
  exact (List.rotate_perm _ e).count_eq b

/-- Bytes whose eight bits are equal make a bit string that no rotation changes. -/
theorem rot_replicate {b : Byte} {v : Bool} (hb : bitsOfByte b = List.replicate 8 v) (n c : Nat) (d : ShiftDir) :
    rot (List.replicate n b) c d = List.replicate n b := by
  obtain ⟨e, he⟩ := exists_rot_eq_rol (List.replicate n b) c d
  have hbits : bitsOf (List.replicate n b) = List.replicate (n * 8) v := by
    rw [bitsOf, List.flatMap, List.map_replicate, hb, List.flatten_replicate_replicate]
  apply bitsOf_injective
  rw [he, bitsOf_rol_eq_rotate, hbits, List.rotate_replicate]

/-- Settles O27: each law by its lemma; all-00 and all-FF are the sequences whose bits are equal. -/
theorem rotationLaws : Obligations.RotationLaws := by
  unfold Obligations.RotationLaws
  refine fun x c e hx => ⟨fun d => ⟨rot_of_dvd hx (Nat.dvd_zero _) d, rot_of_dvd hx (Nat.dvd_refl _) d,
    (rot_mod x c d).symm, rot_length x c d, count_bitsOf_rot x c d true, fun n b _ hb => ?_⟩, rol_rol x c e,
    ror_rol hx c, rol_eq_ror_complement hx c⟩
  obtain rfl | rfl := hb
  · exact rot_replicate (v := false) (by decide) n c d
  · exact rot_replicate (v := true) (by decide) n c d

theorem execRot_empty {vd va : VReg} {d : ShiftDir} {c : Nat} {s : State} (h : (readV s va).length = 0) :
    exec (.rot vd va d c) s = .next (raisedState .invalidArgument (.rot vd va d c) s) := if_pos h

theorem bitsOf_rol_getElem? (x : Bytes) (c : Nat) {i : Nat} (hi : i < 8 * x.length) :
    (bitsOf (rol x c))[i]? = (bitsOf x)[(i + c) % (8 * x.length)]? := by
  rw [bitsOf_rol_eq_rotate, List.getElem?_rotate (by simpa using hi), bitsOf_length]

/-- A right rotation moves bit `i` to `(i + c) mod w`: read the bits of what left makes of it. -/
theorem bitsOf_ror_getElem? (x : Bytes) (c : Nat) {i : Nat} (hi : i < 8 * x.length) :
    (bitsOf (ror x c))[(i + c) % (8 * x.length)]? = (bitsOf x)[i]? := by
  have hx : x ≠ [] := by rintro rfl; simp at hi
  have h := bitsOf_rol_getElem? (ror x c) c (i := i) (by simpa using hi)
  rw [rol_ror hx, ror_length] at h
  exact h.symm

/-- Settles O26: the raise on the empty operand, the integer by `intOf_rol`, the bits by those of a rotated list. -/
theorem rotRotatesTheBitString : Obligations.RotRotatesTheBitString := by
  unfold Obligations.RotRotatesTheBitString
  refine fun vd va count s =>
    ⟨fun d => execRot_empty, fun h => ⟨_, execRot_ok h, ?_⟩, fun h => ⟨_, execRot_ok h, ?_⟩⟩
  · rw [readV_writeV_same]
    exact ⟨rot_length _ _ _, intOf_rol _ _ (List.ne_nil_of_length_pos (Nat.pos_of_ne_zero h)),
      fun _ => bitsOf_rol_getElem? _ _, sameBut_writeV s vd _⟩
  · rw [readV_writeV_same]
    exact ⟨rot_length _ _ _, fun _ => bitsOf_ror_getElem? _ _, sameBut_writeV s vd _⟩

end Sys2Proof.Machine

/-! SUPPORT. Arithmetic primitives (41_arithmetic.md). First byte `j` of what each primitive gives, then the raise on
operands of two lengths, and from these what the commands do; then the laws of R79, and the modulus of R77. -/

namespace Sys2Proof.Machine

/-! Byte `j` of a result depends on byte `j` of the operands only (R70, R72, R74). -/

theorem byteNat_xorB {a b : Bytes} (h : a.length = b.length) {j : Nat} (hj : j < a.length) :
    byteNat (xorB a b) j = byteNat a j ^^^ byteNat b j := by
  rw [byteNat_of_lt (by rwa [xorB_length a b h]), byteNat_of_lt hj, byteNat_of_lt (h ▸ hj), xorB_getElem,
    BitVec.toNat_xor]

/-- The largest byte is 255, so flipping its bits is `255 -` the byte. -/
theorem byteNat_invB {a : Bytes} {j : Nat} (hj : j < a.length) : byteNat (invB a) j = 255 - byteNat a j := by
  rw [byteNat_of_lt (by rwa [invB_length]), byteNat_of_lt hj]
  simp [invB]

theorem byteNat_modCombine {a b : Bytes} (h : a.length = b.length) (nbits : Nat) {j : Nat} (hj : j < a.length) :
    byteNat (modCombine a b nbits) j = (byteNat a j + byteNat b j) % (2 ^ nbits + 1) % 256 := by
  rw [byteNat_of_lt (by rwa [modCombine_length a b nbits h]), byteNat_of_lt hj, byteNat_of_lt (h ▸ hj)]
  simp [modCombine, modCombineByte]

theorem byteNat_lt (x : Bytes) (j : Nat) : byteNat x j < 256 := (x.getD j 0).isLt

/-- XOR is addition without carry: modulo 2 at each bit (R70). -/
theorem bit_xor_eq_add_mod_two (x y i : Nat) :
    (x ^^^ y) / 2 ^ i % 2 = (x / 2 ^ i % 2 + y / 2 ^ i % 2) % 2 := by
  rw [← Nat.shiftRight_eq_div_pow, Nat.shiftRight_xor_distrib, Nat.xor_mod_two_eq, Nat.add_mod,
    Nat.shiftRight_eq_div_pow, Nat.shiftRight_eq_div_pow]

/-! The commands (R71, R73, R75). -/

theorem execXor_length {vd va vb : VReg} {s : State} (h : (readV s va).length ≠ (readV s vb).length) :
    exec (.xor vd va vb) s = .next (raisedState .invalidArgument (.xor vd va vb) s) := if_pos h

theorem execMadd_length {vd va vb : VReg} {n : Nat} {s : State} (h : (readV s va).length ≠ (readV s vb).length) :
    exec (.madd vd va vb n) s = .next (raisedState .invalidArgument (.madd vd va vb n) s) := if_pos h

theorem execInv_eq (vd va : VReg) (s : State) : exec (.inv vd va) s = .next (writeV s vd (invB (readV s va))) := rfl

/-- Settles O28: the raise on two lengths, else `byteNat_xorB` and the parity of the two bits. -/
theorem xorAddsBitsModTwo : Obligations.XorAddsBitsModTwo := by
  unfold Obligations.XorAddsBitsModTwo
  refine fun vd va vb s => ⟨execXor_length, fun h => ⟨_, execXor_ok h, ?_⟩⟩
  rw [readV_writeV_same]
  refine ⟨xorB_length _ _ h, fun j i hj _ => ?_, sameBut_writeV s vd _⟩
  rw [byteNat_xorB h hj, bit_xor_eq_add_mod_two]

/-- Settles O29: `INV` has no check, and its bytes are those of `byteNat_invB`. -/
theorem invComplementsEveryByte : Obligations.InvComplementsEveryByte := by
  unfold Obligations.InvComplementsEveryByte
  refine fun vd va s => ⟨_, execInv_eq vd va s, ?_⟩
  rw [readV_writeV_same]
  exact ⟨invB_length _, fun _ => byteNat_invB, sameBut_writeV s vd _⟩

/-- Settles O30: the raise on two lengths, else the bytes of `byteNat_modCombine`. -/
theorem maddAddsModuloThenNarrows : Obligations.MaddAddsModuloThenNarrows := by
  unfold Obligations.MaddAddsModuloThenNarrows
  refine fun vd va vb nbits s => ⟨execMadd_length, fun h => ⟨_, execMadd_ok h, ?_⟩⟩
  rw [readV_writeV_same]
  exact ⟨modCombine_length _ _ _ h, fun _ => byteNat_modCombine h nbits, sameBut_writeV s vd _⟩

/-! The laws of R79. `xorB_cancel_right` is the first of them. -/

theorem invB_invB (a : Bytes) : invB (invB a) = a := by
  simp [invB, Function.comp_def]

theorem xorB_self (a : Bytes) : xorB a a = zeros a.length := by
  simp [xorB, zeros, List.zipWith_self, List.map_const']

theorem xorB_zeros (a : Bytes) : xorB a (zeros a.length) = a := by
  calc xorB a (zeros a.length) = xorB a (xorB a a) := by rw [xorB_self]
    _ = a := xorB_cancel_left a a rfl

/-- Flipping the bits commutes with XOR, byte by byte. -/
theorem invB_xorB (a b : Bytes) : invB (xorB a b) = xorB (invB a) b := by
  simp [invB, xorB, List.map_zipWith, List.zipWith_map_left, BitVec.not_xor_left]

/-- The inverse is XOR with all-FF, the inverse of zeros. -/
theorem xorB_invB_zeros (a : Bytes) : xorB a (invB (zeros a.length)) = invB a := by
  calc xorB a (invB (zeros a.length)) = invB (xorB (zeros a.length) a) := by rw [xorB_comm, invB_xorB]
    _ = invB a := by rw [xorB_comm, xorB_zeros]

/-- Settles O32: each law by its lemma. -/
theorem xorAndInverseLaws : Obligations.XorAndInverseLaws := by
  unfold Obligations.XorAndInverseLaws
  exact fun a b h => ⟨xorB_cancel_right a b h, invB_invB a, xorB_self a, xorB_zeros a, xorB_invB_zeros a,
    invB_xorB a b⟩

/-! From `nbits = 9` on the modulus exceeds every sum of two bytes (R77). -/

theorem byteNat_modCombine_of_large {a b : Bytes} (h : a.length = b.length) {nbits : Nat} (hn : 9 ≤ nbits) {j : Nat}
    (hj : j < a.length) : byteNat (modCombine a b nbits) j = (byteNat a j + byteNat b j) % 256 := by
  have hmod : byteNat a j + byteNat b j < 2 ^ nbits + 1 := by
    calc byteNat a j + byteNat b j < 2 ^ 9 := by have := byteNat_lt a j; have := byteNat_lt b j; omega
      _ ≤ 2 ^ nbits := Nat.pow_le_pow_right (by omega) hn
      _ < 2 ^ nbits + 1 := Nat.lt_succ_self _
  rw [byteNat_modCombine h nbits hj, Nat.mod_eq_of_lt hmod]

/-- One byte of the round function (R90): the data half rotated, the key rotated and added to the unrotated half. -/
theorem byteNat_roundF {h k : Bytes} (hl : h.length = k.length) (nbits : Nat) {j : Nat} (hj : j < h.length) :
    byteNat (roundF h k nbits) j
      = byteNat (rol h 9) j ^^^ (255 - byteNat (modCombine (ror k 11) h nbits) j) := by
  have hror : (ror k 11).length = h.length := by rw [ror_length, hl]
  have hcomb : (modCombine (ror k 11) h nbits).length = h.length := by rw [modCombine_length _ _ _ hror, hror]
  have hrol : (rol h 9).length = h.length := rol_length h 9
  calc byteNat (roundF h k nbits) j
      = byteNat (rol h 9) j ^^^ byteNat (invB (modCombine (ror k 11) h nbits)) j :=
        byteNat_xorB (by rw [hrol, invB_length, hcomb]) (by rwa [hrol])
    _ = _ := by rw [byteNat_invB (by rwa [hcomb])]

/-- `BBITS` of a constructed engine: `KLEN` is at least 2 and a block at least twice as long (R15, R28 (b)). -/
theorem Inv.blockBits_ge {s : State} (hi : Inv s) (hr : s.cfg.ready = true) : 32 ≤ blockBits s.cfg := by
  obtain ⟨-, -, hk, -⟩ := hi.keyLength hr
  unfold blockBits blockBytes
  cases s.cfg.ftype <;> simp only <;> omega

/-- Settles O31: the modulus exceeds every sum of two bytes, and the engine's block has at least 4 bytes. -/
theorem largeModulusIsInert : Obligations.LargeModulusIsInert := by
  unfold Obligations.LargeModulusIsInert
  refine ⟨fun a b nbits h hn => ⟨fun _ => byteNat_modCombine_of_large h hn, fun j hj => ?_⟩,
    fun _ => Inv.blockBits_ge, fun k x hk hx => by omega⟩
  have hror : (ror b 11).length = a.length := by rw [ror_length, h]
  rw [byteNat_roundF h nbits hj, byteNat_modCombine_of_large hror hn (hror ▸ hj)]

end Sys2Proof.Machine

/-! SUPPORT. Construction and key schedule (42_key_schedule.md). The parts of the state after `Construct` (R82), from
which `INITR` and `INITK` follow; then, once for all commands, that a command raises or passes its checks and stays
inside its frame, from which key material is fixed after construction (R86) and only a construction draws (R85). -/

namespace Sys2Proof.Machine

/-! The key length and the mode field (R82, R83). -/

theorem badKeyLen_of_rejected {n : Nat} (h : keyLenRejected n) : badKeyLen n = true := by
  by_contra hn
  obtain ⟨heven, hpos, hmax⟩ := badKeyLen_false.mp (Bool.eq_false_iff.mpr hn)
  unfold keyLenRejected at h
  omega

theorem not_rejected_of_badKeyLen_false {n : Nat} (h : badKeyLen n = false) : ¬ keyLenRejected n :=
  fun hr => Bool.false_ne_true (h.symm.trans (badKeyLen_of_rejected hr))

theorem recognised_of_modeOf {mf : ModeField} {m : Mode} (h : modeOf mf = some m) : mf ≠ .unrecognised := by
  rintro rfl
  cases h

/-! The parts of the state after `Construct` (R82). -/

@[simp] theorem construct_cfg (k : Bytes) (ft : FType) (m : Mode) (n : Nat) (s : State) :
    (construct k ft m n s).cfg = constructedCfg k ft m := by rw [construct_eq, install_cfg]

@[simp] theorem construct_key (k : Bytes) (ft : FType) (m : Mode) (n : Nat) (s : State) :
    (construct k ft m n s).key = k := by rw [construct_eq, install_key]

@[simp] theorem construct_rk (k : Bytes) (ft : FType) (m : Mode) (n : Nat) (s : State) :
    (construct k ft m n s).rk = roundKeys k := by rw [construct_eq, install_rk]

@[simp] theorem construct_iv0 (k : Bytes) (ft : FType) (m : Mode) (n : Nat) (s : State) :
    (construct k ft m n s).iv0 = constructIv m n s := by rw [construct_eq, install_iv0]

@[simp] theorem construct_ivr (k : Bytes) (ft : FType) (m : Mode) (n : Nat) (s : State) :
    (construct k ft m n s).ivr = constructIv m n s := by rw [construct_eq, install_ivr]

@[simp] theorem construct_draws (k : Bytes) (ft : FType) (m : Mode) (n : Nat) (s : State) :
    (construct k ft m n s).draws = s.draws + constructDraw m n := by rw [construct_eq]

@[simp] theorem constructedCfg_ready (k : Bytes) (ft : FType) (m : Mode) : (constructedCfg k ft m).ready = true := rfl
@[simp] theorem constructedCfg_ftype (k : Bytes) (ft : FType) (m : Mode) : (constructedCfg k ft m).ftype = ft := rfl
@[simp] theorem constructedCfg_mode (k : Bytes) (ft : FType) (m : Mode) : (constructedCfg k ft m).mode = m := rfl

/-- A legal key length fits the 8 bits of `KLEN` (R14). -/
theorem constructedCfg_klen {k : Bytes} (h : badKeyLen k.length = false) (ft : FType) (m : Mode) :
    (constructedCfg k ft m).klen.toNat = k.length := by
  obtain ⟨-, -, hmax⟩ := badKeyLen_false.mp h
  exact Nat.mod_eq_of_lt (hmax.trans_lt (by decide))

/-- The block size by the topology (R4, R15). -/
theorem blockBytes_constructedCfg {k : Bytes} (h : badKeyLen k.length = false) (ft : FType) (m : Mode) :
    blockBytes (constructedCfg k ft m) = (if ft = .classic then 2 else 4) * k.length := by
  unfold blockBytes
  rw [constructedCfg_klen h]
  cases ft <;> rfl

/-! The checks of the two constructors, in their order (R83, R84). -/

theorem execInitr_badState {n : Nat} {ft : FType} {mf : ModeField} {s : State} (hr : s.cfg.ready = true) :
    exec (.initr n ft mf) s = .next (raisedState .badState (.initr n ft mf) s) := if_pos hr

theorem execInitk_badState {va : VReg} {ft : FType} {mf : ModeField} {s : State} (hr : s.cfg.ready = true) :
    exec (.initk va ft mf) s = .next (raisedState .badState (.initk va ft mf) s) := if_pos hr

theorem execInitr_mode {n : Nat} {ft : FType} {s : State} (hr : s.cfg.ready = false) :
    exec (.initr n ft .unrecognised) s
      = .next (raisedState .invalidConfiguration (.initr n ft .unrecognised) s) := if_neg (Bool.eq_false_iff.mp hr)

theorem execInitk_mode {va : VReg} {ft : FType} {s : State} (hr : s.cfg.ready = false) :
    exec (.initk va ft .unrecognised) s
      = .next (raisedState .invalidConfiguration (.initk va ft .unrecognised) s) := if_neg (Bool.eq_false_iff.mp hr)

theorem execInitr_key {n : Nat} {ft : FType} {mf : ModeField} {s : State} (hr : s.cfg.ready = false)
    (hmf : mf ≠ .unrecognised) (hk : keyLenRejected n) :
    exec (.initr n ft mf) s = .next (raisedState .invalidKey (.initr n ft mf) s) := by
  obtain ⟨m, hm⟩ := modeOf_of_recognised hmf
  simp [exec, execInitr, whenUnready, raise, raisedState, hr, hm, badKeyLen_of_rejected hk]

theorem execInitk_key {va : VReg} {ft : FType} {mf : ModeField} {s : State} (hr : s.cfg.ready = false)
    (hmf : mf ≠ .unrecognised) (hk : keyLenRejected (readV s va).length) :
    exec (.initk va ft mf) s = .next (raisedState .invalidKey (.initk va ft mf) s) := by
  obtain ⟨m, hm⟩ := modeOf_of_recognised hmf
  simp [exec, execInitk, whenUnready, raise, raisedState, hr, hm, badKeyLen_of_rejected hk]

/-! Every command raises, or passes its checks and stays inside its frame (R55, R141). -/

/-- The checks of a command outside step 3 of R55. -/
theorem allPass_of_ownChecks {i : Instr} {s : State} (hr : needsReady i = false) (hu : needsUnready i = false)
    (ho : AllPass (ownChecks s i)) : AllPass (checksOf i s) :=
  allPass_checksOf.mpr ⟨by simp [hr], by simp [hu], ho⟩

/-- The checks of a command that needs a constructed engine. -/
theorem allPass_of_ready {i : Instr} {s : State} (hr : s.cfg.ready = true) (hu : needsUnready i = false)
    (ho : AllPass (ownChecks s i)) : AllPass (checksOf i s) :=
  allPass_checksOf.mpr ⟨fun _ => hr, by simp [hu], ho⟩

/-- The checks of a constructor. -/
theorem allPass_of_unready {i : Instr} {s : State} (hr : s.cfg.ready = false) (hn : needsReady i = false)
    (ho : AllPass (ownChecks s i)) : AllPass (checksOf i s) :=
  allPass_checksOf.mpr ⟨by simp [hn], fun _ => hr, ho⟩

theorem isRaise_or_allPass {i : Instr} {s t : State} (h : exec i s = .next t) :
    IsRaise i s t ∨ AllPass (checksOf i s) := by
  cases i with
  | nop | clrerr | srst | mov | lsh | inv => exact .inr (allPass_of_ownChecks rfl rfl (allPass_nil.mpr trivial))
  | ldv => exact (execLdv_cases h).imp_right fun ⟨hl, _⟩ => allPass_of_ownChecks rfl rfl (by simpa [ownChecks] using hl)
  | stv => exact (execStv_cases h).imp_right fun ⟨hl, _⟩ => allPass_of_ownChecks rfl rfl (by simpa [ownChecks] using hl)
  | setmlen =>
    exact (execSetmlen_cases h).imp_right fun ⟨hn, _⟩ => allPass_of_ownChecks rfl rfl (by simpa [ownChecks] using hn)
  | getbit =>
    refine (execGetbit_cases h).imp_right fun ⟨hi, b, hb, _⟩ => allPass_of_ownChecks rfl rfl ?_
    simpa [ownChecks, hi] using (List.getElem?_eq_some_iff.mp hb).1
  | setbit =>
    refine (execSetbit_cases h).imp_right fun ⟨hi, b, hb, _⟩ => allPass_of_ownChecks rfl rfl ?_
    simpa [ownChecks, hi] using (List.getElem?_eq_some_iff.mp hb).1
  | rot => exact (execRot_cases h).imp_right fun ⟨hl, _⟩ => allPass_of_ownChecks rfl rfl (by simpa [ownChecks] using hl)
  | xor => exact (execXor_cases h).imp_right fun ⟨hl, _⟩ => allPass_of_ownChecks rfl rfl (by simpa [ownChecks] using hl)
  | madd =>
    exact (execMadd_cases h).imp_right fun ⟨hl, _⟩ => allPass_of_ownChecks rfl rfl (by simpa [ownChecks] using hl)
  | initr =>
    refine (execInitr_cases h).imp_right fun ⟨hr, hk, m, hm, _⟩ => allPass_of_unready hr rfl ?_
    simpa [ownChecks] using And.intro (recognised_of_modeOf hm) (not_rejected_of_badKeyLen_false hk)
  | initk =>
    refine (execInitk_cases h).imp_right fun ⟨hr, hk, m, hm, _⟩ => allPass_of_unready hr rfl ?_
    simpa [ownChecks] using And.intro (recognised_of_modeOf hm) (not_rejected_of_badKeyLen_false hk)
  | rkey => exact (execRkey_cases h).imp_right fun ⟨hr, _⟩ => allPass_of_ready hr rfl (allPass_nil.mpr trivial)
  | rf =>
    exact (execRf_cases h).imp_right fun ⟨hl, h₀, _⟩ =>
      allPass_of_ownChecks rfl rfl (by simpa [ownChecks] using And.intro hl h₀)
  | crnd =>
    exact (execCrnd_cases h).imp_right fun ⟨hk, hx, _⟩ =>
      allPass_of_ownChecks rfl rfl (by simpa [ownChecks] using And.intro hk hx)
  | vrnd =>
    exact (execVrnd_cases h).imp_right fun ⟨hk, hx, _⟩ =>
      allPass_of_ownChecks rfl rfl (by simpa [ownChecks] using And.intro hk hx)
  | net =>
    exact (execNet_cases h).imp_right fun ⟨hr, hx, _⟩ => allPass_of_ready hr rfl (by simpa [ownChecks] using hx)
  | ivset =>
    exact (execIvset_cases h).imp_right fun ⟨hr, hm, hx, _⟩ =>
      allPass_of_ready hr rfl (by simpa [ownChecks] using And.intro hm hx)
  | ivget vd sel =>
    refine (execIvget_cases h).imp_right fun ⟨hr, hl, _⟩ => allPass_of_ready hr rfl ?_
    cases sel <;> simpa [ownChecks, ivOf] using hl
  | mstart => exact (execMstart_cases h).imp_right fun ⟨hr, _⟩ => allPass_of_ready hr rfl (allPass_nil.mpr trivial)
  | blk =>
    exact (execBlk_cases h).imp_right fun ⟨hr, hx, hiv, _⟩ =>
      allPass_of_ready hr rfl (by simpa [ownChecks] using And.intro hx hiv)
  | msg =>
    exact (execMsg_cases h).imp_right fun ⟨hr, hp, hiv, _⟩ =>
      allPass_of_ready hr rfl (by simpa [ownChecks] using And.intro hp hiv)

/-- What a command that completes within its frame answers. -/
theorem frame_of_completes {i : Instr} {s t : State} (hc : CompletesWithinFrame i s) (h : exec i s = .next t) :
    sameBut (writesOf s i) s t := by
  obtain ⟨u, hu, hf⟩ := hc
  cases hu.symm.trans h
  exact hf

/-! The two constructors and the schedule. -/

/-- The mode field names the mode that is stored (R14, R51). -/
theorem mode_of_modeOf {mf : ModeField} {m : Mode} (h : modeOf mf = some m) :
    (mf = .none → m = .none) ∧ (mf = .cbc → m = .cbc) ∧ (mf = .cfb → m = .cfb) := by
  refine ⟨?_, ?_, ?_⟩ <;> (rintro rfl; cases h; rfl)

theorem mode_ne_none_of_modeOf {mf : ModeField} {m : Mode} (h : modeOf mf = some m) (hmf : mf ≠ .none) :
    m ≠ .none := by
  rintro rfl
  cases mf with
  | none => exact hmf rfl
  | _ => cases h

/-- In CBC and CFB a construction draws its IV (R85). -/
theorem constructIv_of_ne_none {m : Mode} (hm : m ≠ .none) (n : Nat) (s : State) :
    constructIv m n s = randBytes s.draws n ∧ constructDraw m n = n := by
  cases m with
  | none => exact absurd rfl hm
  | cbc | cfb => exact ⟨rfl, rfl⟩

/-- Settles O33: the checks in turn, then the parts of the state after `Construct`. -/
theorem initrConstructsFromADrawnKey : Obligations.InitrConstructsFromADrawnKey := by
  unfold Obligations.InitrConstructsFromADrawnKey
  refine fun klen ft mf s => ⟨execInitr_badState, fun hr hmf => hmf ▸ execInitr_mode hr, execInitr_key,
    fun hr hmf hlen => ?_⟩
  have hk : badKeyLen klen = false := badKeyLen_of_not_rejected hlen
  obtain ⟨m, hm⟩ := modeOf_of_recognised hmf
  have ht := execInitr_ok (ft := ft) hr hm hk
  have hf := frame_of_completes (completes_initr hr hmf hlen) ht
  obtain ⟨key, hkey, hkl⟩ : ∃ key, (rand s klen).1 = key ∧ key.length = klen := ⟨_, rfl, randBytes_length _ _⟩
  rw [hkey] at ht hf
  rw [← hkl] at hk
  obtain ⟨hnone, hcbc, hcfb⟩ := mode_of_modeOf hm
  refine ⟨_, ht, by simp, by simp, ?_, by simpa using hnone, by simpa using hcbc, by simpa using hcfb, ?_, ?_,
    fun i => ?_, by simp, fun h => ?_, fun h => ?_, hf⟩
  · rw [construct_cfg, constructedCfg_klen hk, hkl]
  · exact (construct_key ..).trans hkey.symm
  · rw [construct_key, hkl]
  · simpa using roundKeys_getElem key i
  · simp [hnone h, constructIv, constructDraw]
  · obtain ⟨hiv, hdraw⟩ := constructIv_of_ne_none (mode_ne_none_of_modeOf hm h)
      (blockBytes (constructedCfg key ft m)) (rand s klen).2
    rw [construct_iv0, construct_draws, hiv, hdraw, blockBytes_constructedCfg hk, hkl]
    exact ⟨rfl, rfl⟩

/-- Settles O34: the checks in turn, then the parts of the state after `Construct`. -/
theorem initkConstructsFromTheGivenKey : Obligations.InitkConstructsFromTheGivenKey := by
  unfold Obligations.InitkConstructsFromTheGivenKey
  refine fun va ft mf s => ⟨execInitk_badState, fun hr hmf => hmf ▸ execInitk_mode hr, execInitk_key,
    fun hr hmf hlen => ?_⟩
  have hk : badKeyLen (readV s va).length = false := badKeyLen_of_not_rejected hlen
  obtain ⟨m, hm⟩ := modeOf_of_recognised hmf
  have ht := execInitk_ok (ft := ft) hr hm hk
  have hf := frame_of_completes (completes_initk hr hmf hlen) ht
  obtain ⟨hnone, hcbc, hcfb⟩ := mode_of_modeOf hm
  refine ⟨_, ht, by simp, by simp, ?_, by simpa using hnone, by simpa using hcbc, by simpa using hcfb, by simp,
    fun i => ?_, by simp, fun h => ?_, fun h => ?_, fun h => ?_, ?_, hf⟩
  · rw [construct_cfg, constructedCfg_klen hk]
  · simpa using roundKeys_getElem (readV s va) i
  · simp [hnone h, constructIv, constructDraw]
  · simp [hcbc h, constructIv, constructDraw, directIvLen]
  · simp [hcfb h, constructIv, constructDraw, directIvLen]
  · rw [construct_cfg, blockBytes_constructedCfg hk]

/-- Settles O35: with the lifecycle check passed, `RKEY` writes the chosen element to `V[vd]`. -/
theorem rkeyReadsTheSchedule : Obligations.RkeyReadsTheSchedule := by
  unfold Obligations.RkeyReadsTheSchedule
  refine fun vd i s => ⟨fun o hr => if_neg (Bool.eq_false_iff.mp hr), fun hr => ?_, fun j hij hr => ?_⟩
  · exact ⟨_, execRkey_ok hr, readV_writeV_same s vd _, sameBut_writeV s vd _⟩
  · have hi : 3 - i.val = j.val := by omega
    have hj : scheduleKey s.rk i .reverse = s.rk[j.val] := by simp only [scheduleKey, hi]
    exact ⟨_, execRkey_ok hr, (readV_writeV_same s vd _).trans hj, sameBut_writeV s vd _⟩

/-! Key material after construction (R86). -/

/-- `KEY`, `RK` and `CFG` are the same in both states. -/
def SameKeyMaterial (s t : State) : Prop := t.key = s.key ∧ t.rk = s.rk ∧ t.cfg = s.cfg

/-- `SRST` leaves the engine unconstructed, a constructor finds it so, and the other commands write no key material. -/
theorem exec_keeps_keyMaterial {i : Instr} {s t : State} (hs : s.cfg.ready = true) (h : exec i s = .next t)
    (ht : t.cfg.ready = true) : SameKeyMaterial s t := by
  obtain ⟨k, rfl⟩ | hp := isRaise_or_allPass h
  · exact ⟨rfl, rfl, rfl⟩
  have hf := frame_of_completes (completesWithinFrame_of_allPass hp) h
  obtain ⟨-, hu, -⟩ := allPass_checksOf.mp hp
  cases i with
  | srst =>
    cases execSrst_cases h
    exact absurd ht Bool.false_ne_true
  | initr | initk => exact nomatch hs.symm.trans (hu rfl)
  | _ => exact ⟨hf .key (by simp [writesOf]), hf .rk (by simp [writesOf]), hf .cfg (by simp [writesOf])⟩

theorem runCommand_keeps_keyMaterial {cw : Word} {s t : State} (hs : s.cfg.ready = true)
    (h : runCommand cw s = .next t) (ht : t.cfg.ready = true) : SameKeyMaterial s t := by
  obtain rfl | ⟨_, rfl⟩ | ⟨i, _, hx⟩ := runCommand_cases h
  · exact ⟨rfl, rfl, rfl⟩
  · exact ⟨rfl, rfl, rfl⟩
  · exact exec_keeps_keyMaterial hs hx ht

theorem hostEvent_keeps_keyMaterial {e : HostEvent} {s t : State} (hs : s.cfg.ready = true)
    (h : hostEvent e s = .next t) (ht : t.cfg.ready = true) : SameKeyMaterial s t := by
  obtain rfl | ⟨cw, hc⟩ | ⟨a, x, _, rfl⟩ | ⟨x, rfl⟩ | rfl := hostEvent_cases h
  · exact absurd ht Bool.false_ne_true
  · exact runCommand_keeps_keyMaterial hs hc ht
  · exact ⟨rfl, rfl, rfl⟩
  · exact ⟨rfl, rfl, rfl⟩
  · exact ⟨rfl, rfl, rfl⟩

theorem step_keeps_keyMaterial {s t : State} (hs : s.cfg.ready = true) (h : step s = .next t)
    (ht : t.cfg.ready = true) : SameKeyMaterial s t := by
  cases hp : s.pending with
  | nil =>
    cases (step_of_idle hp).symm.trans h
    exact ⟨rfl, rfl, rfl⟩
  | cons e rest => exact hostEvent_keeps_keyMaterial (s := { s with pending := rest }) hs (step_of_pending hp ▸ h) ht

/-- Settles O36: the schedule follows, being a statement about `KEY` and `RK` only. -/
theorem keyMaterialIsFixedWithinAnInstance : Obligations.KeyMaterialIsFixedWithinAnInstance := by
  unfold Obligations.KeyMaterialIsFixedWithinAnInstance
  intro s t hs h ht
  obtain ⟨hkey, hrk, hcfg⟩ := step_keeps_keyMaterial hs h ht
  exact ⟨hkey, hrk, hcfg, by rw [hkey, hrk]; exact id⟩

/-! Draws (R24, R85). -/

/-- Settles O37: `draws` is in the frame of the two constructors only, and no raise draws; a constructor that completes
found the engine unconstructed and constructs it. -/
theorem onlyASuccessfulConstructionDraws : Obligations.OnlyASuccessfulConstructionDraws := by
  unfold Obligations.OnlyASuccessfulConstructionDraws
  intro i s t h hd
  obtain ⟨k, rfl⟩ | hp := isRaise_or_allPass h
  · exact absurd rfl hd
  have hf := frame_of_completes (completesWithinFrame_of_allPass hp) h
  cases i with
  | initr n ft mf =>
    obtain ⟨k, rfl⟩ | ⟨hr, -, m, -, rfl⟩ := execInitr_cases h
    · exact absurd rfl hd
    · exact ⟨.inl ⟨n, ft, mf, rfl⟩, hr, by simp, hf .err (by simp [writesOf])⟩
  | initk va ft mf =>
    obtain ⟨k, rfl⟩ | ⟨hr, -, m, -, rfl⟩ := execInitk_cases h
    · exact absurd rfl hd
    · exact ⟨.inr ⟨va, ft, mf, rfl⟩, hr, by simp, hf .err (by simp [writesOf])⟩
  | _ => exact absurd (hf .draws (by simp [writesOf])) hd

end Sys2Proof.Machine

/-! SUPPORT. Round function (43_round_function.md). The two raises of `RF` (R91); its result is `execRf_ok`, and the
bytes of the round function are those of `byteNat_roundF`. -/

namespace Sys2Proof.Machine

theorem execRf_length {vd va vb : VReg} {n : Nat} {s : State} (h : (readV s va).length ≠ (readV s vb).length) :
    exec (.rf vd va vb n) s = .next (raisedState .invalidArgument (.rf vd va vb n) s) := if_pos h

theorem execRf_empty {vd va vb : VReg} {n : Nat} {s : State} (h : (readV s va).length = (readV s vb).length)
    (h₀ : (readV s va).length = 0) :
    exec (.rf vd va vb n) s = .next (raisedState .invalidArgument (.rf vd va vb n) s) :=
  (if_neg (not_not_intro h)).trans (if_pos h₀)

/-- Settles O39: the two raises, else the bytes of `byteNat_roundF`, in which the rotated key is the first operand of
`ModCombine` and the unrotated half the second (R90). -/
theorem rfComputesTheRoundFunction : Obligations.RfComputesTheRoundFunction := by
  unfold Obligations.RfComputesTheRoundFunction
  refine fun vd va vb nbits s => ⟨execRf_length, execRf_empty, fun h h₀ => ⟨_, execRf_ok h h₀, ?_⟩⟩
  rw [readV_writeV_same]
  refine ⟨roundF_length _ _ _ h, fun j hj => ?_, sameBut_writeV s vd _⟩
  have hror : (ror (readV s vb) 11).length = (readV s va).length := by rw [ror_length, h]
  rw [byteNat_roundF h nbits hj, byteNat_modCombine hror nbits (hror ▸ hj)]

end Sys2Proof.Machine

/-! SUPPORT. The Feistel networks (44_feistel_network.md). Each round on a block written as its parts, the inverse laws
of rounds and networks (R103), those of a configured engine, then the three commands. -/

namespace Sys2Proof.Machine

/-! A block as its parts (R35). -/

theorem exists_halves {n : Nat} {x : Bytes} (h : x.length = 2 * n) :
    ∃ l r, l.length = n ∧ r.length = n ∧ x = l ++ r :=
  ⟨_, _, leftHalf_length n x h, rightHalf_length n x h, (halves_append n x h).symm⟩

theorem exists_quarters {n : Nat} {x : Bytes} (h : x.length = 4 * n) :
    ∃ a b c d, a.length = n ∧ b.length = n ∧ c.length = n ∧ d.length = n ∧ x = a ++ b ++ c ++ d :=
  have ⟨h₁, h₂, h₃, h₄⟩ := quarter_lengths n x h
  ⟨_, _, _, _, h₁, h₂, h₃, h₄, (quarters_append n x h).symm⟩

/-- A half or a quarter that the round function is XORed on, twice: the key step of every inverse law. -/
theorem xorB_roundF_cancel {h k y : Bytes} (hh : h.length = k.length) (hy : y.length = k.length) (nbits : Nat) :
    xorB (roundF h k nbits) (xorB (roundF h k nbits) y) = y :=
  xorB_cancel_left _ _ ((roundF_length h k nbits hh).trans (hh.trans hy.symm))

theorem xorB_roundF_length {h k y : Bytes} (hh : h.length = k.length) (hy : y.length = k.length) (nbits : Nat) :
    (xorB (roundF h k nbits) y).length = k.length := by
  have hf := roundF_length h k nbits hh
  rw [xorB_length _ _ (hf.trans (hh.trans hy.symm)), hf, hh]

/-! Classic (R95, R96). -/

section Classic

variable {l r k : Bytes} (hl : l.length = k.length) (hr : r.length = k.length) (nbits : Nat)
include hl hr

theorem classicRound_append_swapped :
    classicRound (l ++ r) k false nbits = xorB (roundF l k nbits) r ++ l := by
  obtain ⟨hleft, hright⟩ := halves_of_append k.length l r hl hr
  simp [classicRound, hleft, hright]

theorem classicRound_append_last :
    classicRound (l ++ r) k true nbits = l ++ xorB (roundF l k nbits) r := by
  obtain ⟨hleft, hright⟩ := halves_of_append k.length l r hl hr
  simp [classicRound, hleft, hright]

end Classic

theorem classicRound_last_involutive {x k : Bytes} (h : x.length = 2 * k.length) (nbits : Nat) :
    classicRound (classicRound x k true nbits) k true nbits = x := by
  obtain ⟨l, r, hl, hr, rfl⟩ := exists_halves h
  rw [classicRound_append_last hl hr, classicRound_append_last hl (xorB_roundF_length hl hr nbits),
    xorB_roundF_cancel hl hr]

/-- The two halves of a block, exchanged: what the last round leaves out (R95). -/
def swapHalves (n : Nat) (x : Bytes) : Bytes := rightHalf n x ++ leftHalf n x

theorem swapHalves_append {n : Nat} {l r : Bytes} (hl : l.length = n) (hr : r.length = n) :
    swapHalves n (l ++ r) = r ++ l := by
  obtain ⟨hleft, hright⟩ := halves_of_append n l r hl hr
  rw [swapHalves, hleft, hright]

theorem swapHalves_swapHalves {n : Nat} {x : Bytes} (h : x.length = 2 * n) :
    swapHalves n (swapHalves n x) = x := by
  obtain ⟨l, r, hl, hr, rfl⟩ := exists_halves h
  rw [swapHalves_append hl hr, swapHalves_append hr hl]

theorem swapHalves_length {n : Nat} {x : Bytes} (h : x.length = 2 * n) : (swapHalves n x).length = 2 * n := by
  rw [swapHalves, List.length_append, rightHalf_length n x h, leftHalf_length n x h, two_mul]

theorem classicRound_last_eq_swapHalves {x k : Bytes} (h : x.length = 2 * k.length) (nbits : Nat) :
    classicRound x k true nbits = swapHalves k.length (classicRound x k false nbits) := by
  obtain ⟨l, r, hl, hr, rfl⟩ := exists_halves h
  rw [classicRound_append_last hl hr, classicRound_append_swapped hl hr,
    swapHalves_append (xorB_roundF_length hl hr nbits) hl]

/-- With the halves exchanged in between, a round that swaps undoes itself but for one exchange. -/
theorem classicRound_swapHalves_classicRound {x k : Bytes} (h : x.length = 2 * k.length) (nbits : Nat) :
    classicRound (swapHalves k.length (classicRound x k false nbits)) k false nbits = swapHalves k.length x := by
  obtain ⟨l, r, hl, hr, rfl⟩ := exists_halves h
  have hf := xorB_roundF_length hl hr nbits
  rw [classicRound_append_swapped hl hr, swapHalves_append hf hl, classicRound_append_swapped hl hf,
    xorB_roundF_cancel hl hr, swapHalves_append hl hr]

/-- The rounds of `ClassicNet` with the swap kept in all of them (R96). -/
def classicRounds (x : Bytes) (keys : List Bytes) (nbits : Nat) : Bytes :=
  keys.foldl (fun y k => classicRound y k false nbits) x

@[simp] theorem classicRounds_nil (x : Bytes) (nbits : Nat) : classicRounds x [] nbits = x := rfl

@[simp] theorem classicRounds_cons (x k : Bytes) (ks : List Bytes) (nbits : Nat) :
    classicRounds x (k :: ks) nbits = classicRounds (classicRound x k false nbits) ks nbits := rfl

theorem classicRounds_concat (x k : Bytes) (ks : List Bytes) (nbits : Nat) :
    classicRounds x (ks ++ [k]) nbits = classicRound (classicRounds x ks nbits) k false nbits := by
  simp [classicRounds]

theorem classicRounds_length {n : Nat} {keys : List Bytes} (hk : ∀ k ∈ keys, k.length = n) {x : Bytes}
    (hx : x.length = 2 * n) (nbits : Nat) : (classicRounds x keys nbits).length = 2 * n := by
  induction keys generalizing x with
  | nil => exact hx
  | cons k ks ih =>
    obtain ⟨rfl, hks⟩ := List.forall_mem_cons.mp hk
    exact ih hks ((classicRound_length x k false nbits hx).trans hx)

/-- The network is the rounds that swap, with the last exchange taken back. -/
theorem classicNet_eq_swapHalves {n : Nat} {keys : List Bytes} (hne : keys ≠ []) (hk : ∀ k ∈ keys, k.length = n)
    {x : Bytes} (hx : x.length = 2 * n) (nbits : Nat) :
    classicNet x keys nbits = swapHalves n (classicRounds x keys nbits) := by
  induction keys generalizing x with
  | nil => exact absurd rfl hne
  | cons k ks ih =>
    obtain ⟨rfl, hks⟩ := List.forall_mem_cons.mp hk
    cases ks with
    | nil => exact classicRound_last_eq_swapHalves hx nbits
    | cons j js => exact ih (List.cons_ne_nil j js) hks ((classicRound_length x k false nbits hx).trans hx)

theorem classicRounds_reverse_swapHalves {n : Nat} {keys : List Bytes} (hk : ∀ k ∈ keys, k.length = n) {x : Bytes}
    (hx : x.length = 2 * n) (nbits : Nat) :
    classicRounds (swapHalves n (classicRounds x keys nbits)) keys.reverse nbits = swapHalves n x := by
  induction keys generalizing x with
  | nil => rfl
  | cons k ks ih =>
    obtain ⟨rfl, hks⟩ := List.forall_mem_cons.mp hk
    rw [List.reverse_cons, classicRounds_concat, classicRounds_cons,
      ih hks ((classicRound_length x k false nbits hx).trans hx), classicRound_swapHalves_classicRound hx]

theorem classicNet_reverse {n : Nat} {keys : List Bytes} (hk : ∀ k ∈ keys, k.length = n) {x : Bytes}
    (hx : x.length = 2 * n) (nbits : Nat) : classicNet (classicNet x keys nbits) keys.reverse nbits = x := by
  by_cases hne : keys = []
  · subst hne; rfl
  · have hy := swapHalves_length (classicRounds_length hk hx nbits)
    rw [classicNet_eq_swapHalves hne hk hx, classicNet_eq_swapHalves (mt List.reverse_eq_nil_iff.mp hne)
      (fun k hm => hk k (List.mem_reverse.mp hm)) hy, classicRounds_reverse_swapHalves hk hx, swapHalves_swapHalves hx]

/-! Variant1 (R98, R99). -/

section Variant1

variable {a b c d k : Bytes} (ha : a.length = k.length) (hb : b.length = k.length) (hc : c.length = k.length)
  (hd : d.length = k.length) (nbits : Nat)
include ha hb hc hd

theorem v1Round_append_encrypt :
    v1Round (a ++ b ++ c ++ d) k .encrypt nbits = xorB (roundF a k nbits) b ++ c ++ d ++ a := by
  obtain ⟨h₁, h₂, h₃, h₄⟩ := quarters_of_append k.length a b c d ha hb hc hd
  simp only [v1Round, h₁, h₂, h₃, h₄]

theorem v1Round_append_decrypt :
    v1Round (a ++ b ++ c ++ d) k .decrypt nbits = d ++ xorB (roundF d k nbits) a ++ b ++ c := by
  obtain ⟨h₁, h₂, h₃, h₄⟩ := quarters_of_append k.length a b c d ha hb hc hd
  simp only [v1Round, h₁, h₂, h₃, h₄]

end Variant1

theorem v1Round_decrypt_encrypt {x k : Bytes} (h : x.length = 4 * k.length) (nbits : Nat) :
    v1Round (v1Round x k .encrypt nbits) k .decrypt nbits = x := by
  obtain ⟨a, b, c, d, ha, hb, hc, hd, rfl⟩ := exists_quarters h
  rw [v1Round_append_encrypt ha hb hc hd, v1Round_append_decrypt (xorB_roundF_length ha hb nbits) hc hd ha,
    xorB_roundF_cancel ha hb]

theorem v1Round_encrypt_decrypt {x k : Bytes} (h : x.length = 4 * k.length) (nbits : Nat) :
    v1Round (v1Round x k .decrypt nbits) k .encrypt nbits = x := by
  obtain ⟨a, b, c, d, ha, hb, hc, hd, rfl⟩ := exists_quarters h
  rw [v1Round_append_decrypt ha hb hc hd, v1Round_append_encrypt hd (xorB_roundF_length hd ha nbits) hb hc,
    xorB_roundF_cancel hd ha]

theorem v1Net_concat (x k : Bytes) (ks : List Bytes) (cdir : CipherDir) (nbits : Nat) :
    v1Net x (ks ++ [k]) cdir nbits = v1Round (v1Net x ks cdir nbits) k cdir nbits := by
  induction ks generalizing x with
  | nil => rfl
  | cons j js ih => exact ih (v1Round x j cdir nbits)

theorem v1Net_decrypt_encrypt {n : Nat} {keys : List Bytes} (hk : ∀ k ∈ keys, k.length = n) {x : Bytes}
    (hx : x.length = 4 * n) (nbits : Nat) :
    v1Net (v1Net x keys .encrypt nbits) keys.reverse .decrypt nbits = x := by
  induction keys generalizing x with
  | nil => rfl
  | cons k ks ih =>
    obtain ⟨rfl, hks⟩ := List.forall_mem_cons.mp hk
    rw [List.reverse_cons, v1Net_concat, v1Net, ih hks ((v1Round_length x k .encrypt nbits hx).trans hx),
      v1Round_decrypt_encrypt hx]

/-- `[0, 0]` with key `[0]`: the first round gives `[FF, 0]` and the second `[FF, FF]` (R103). -/
theorem classicRound_swapped_not_involutive :
    classicRound (classicRound [0, 0] [0] false 16) [0] false 16 ≠ [0, 0] := by decide

/-- Settles O43: each law by its lemma. The Classic network is the rounds that all swap, with one exchange of the halves
at the end, and that exchange turns each round of the second network into the inverse of one of the first. -/
theorem networksInvert : Obligations.NetworksInvert := by
  unfold Obligations.NetworksInvert
  refine ⟨fun n nbits k keys hk hkeys => ⟨fun x hx => ?_, fun x hx => ?_⟩,
    [0, 0], [0], by decide, by decide, classicRound_swapped_not_involutive⟩
  · have h : x.length = 4 * k.length := hk ▸ hx
    exact ⟨v1Round_decrypt_encrypt h nbits, v1Round_encrypt_decrypt h nbits, v1Net_decrypt_encrypt hkeys hx nbits⟩
  · exact ⟨classicRound_last_involutive (hk ▸ hx) nbits, classicNet_reverse hkeys hx nbits⟩

/-! The network of a configured engine (R101, R102). -/

theorem KeysFit.length_of_mem {cfg : Cfg} {rk : Vector Bytes Config.nrounds} (hk : KeysFit cfg rk) {o : SchedOrd} :
    ∀ k ∈ scheduleOf rk o, k.length = cfg.klen.toNat := by
  intro k hm
  obtain ⟨i, rfl⟩ := mem_scheduleOf hm
  exact hk i

theorem scheduleOf_reverse (rk : Vector Bytes Config.nrounds) :
    scheduleOf rk .reverse = (scheduleOf rk .forward).reverse := rfl

theorem engineNet_decrypt_encrypt {cfg : Cfg} {rk : Vector Bytes Config.nrounds} {x : Bytes} (hk : KeysFit cfg rk)
    (hx : x.length = blockBytes cfg) :
    engineNet cfg rk (engineNet cfg rk x .forward .encrypt) .reverse .decrypt = x := by
  rw [engineNet, engineNet, scheduleOf_reverse]
  unfold blockBytes at hx
  cases hf : cfg.ftype with
  | classic => exact classicNet_reverse hk.length_of_mem (by simpa only [hf] using hx) _
  | variant1 => exact v1Net_decrypt_encrypt hk.length_of_mem (by simpa only [hf] using hx) _

theorem scheduleOf_eq_keys (s : State) (o : SchedOrd) :
    scheduleOf s.rk o = if o = .forward then forwardKeys s else reverseKeys s := by
  cases o <;> rfl

/-! The commands (R97, R100, R102): their raises, then the statements. -/

theorem execCrnd_invalid {vd va vb : VReg} {l : Bool} {s : State}
    (h : (readV s vb).length = 0 ∨ (readV s va).length ≠ 2 * (readV s vb).length) :
    exec (.crnd vd va vb l) s = .next (raisedState .invalidArgument (.crnd vd va vb l) s) := if_pos h

theorem execVrnd_invalid {vd va vb : VReg} {d : CipherDir} {s : State}
    (h : (readV s vb).length = 0 ∨ (readV s va).length ≠ 4 * (readV s vb).length) :
    exec (.vrnd vd va vb d) s = .next (raisedState .invalidArgument (.vrnd vd va vb d) s) := if_pos h

theorem execNet_badState {vd va : VReg} {d : CipherDir} {o : SchedOrd} {s : State} (hr : s.cfg.ready = false) :
    exec (.net vd va d o) s = .next (raisedState .badState (.net vd va d o) s) := if_neg (Bool.eq_false_iff.mp hr)

theorem execNet_length {vd va : VReg} {d : CipherDir} {o : SchedOrd} {s : State} (hr : s.cfg.ready = true)
    (hx : (readV s va).length ≠ blockBytes s.cfg) :
    exec (.net vd va d o) s = .next (raisedState .invalidArgument (.net vd va d o) s) :=
  (if_pos hr).trans (if_pos hx)

/-- Settles O40: the raise, else the round on the two halves the block is made of. -/
theorem crndIsOneClassicRound : Obligations.CrndIsOneClassicRound := by
  unfold Obligations.CrndIsOneClassicRound
  refine fun vd va vb last s => ⟨execCrnd_invalid, fun l r hk hl hr hx => ?_⟩
  have hlen : (readV s va).length = 2 * (readV s vb).length := by simp [hx, hl, hr, two_mul]
  refine ⟨_, execCrnd_ok hk hlen, ?_, ?_, sameBut_writeV s vd _⟩
  · rintro rfl
    rw [readV_writeV_same, ← classicRound_append_swapped hl hr, ← hx]
  · rintro rfl
    rw [readV_writeV_same, ← classicRound_append_last hl hr, ← hx]

/-- Settles O41: the raise, else the round of the direction on the four quarters the block is made of. -/
theorem vrndIsOneVariantRound : Obligations.VrndIsOneVariantRound := by
  unfold Obligations.VrndIsOneVariantRound
  refine fun vd va vb s => ⟨fun _ => execVrnd_invalid, fun q1 q2 q3 q4 hk h₁ h₂ h₃ h₄ hx => ?_⟩
  have hlen : (readV s va).length = 4 * (readV s vb).length := by
    simp only [hx, List.length_append, h₁, h₂, h₃, h₄]
    omega
  refine ⟨⟨_, execVrnd_ok hk hlen, ?_, sameBut_writeV s vd _⟩,
    ⟨_, execVrnd_ok hk hlen, ?_, sameBut_writeV s vd _⟩⟩
  · rw [readV_writeV_same, ← v1Round_append_encrypt h₁ h₂ h₃ h₄, ← hx]
  · rw [readV_writeV_same, ← v1Round_append_decrypt h₁ h₂ h₃ h₄, ← hx]

/-- Settles O42: the two raises, else the network over the four keys of the chosen order, each topology by its own
recursion over that list. -/
theorem netRunsFourRounds : Obligations.NetRunsFourRounds := by
  unfold Obligations.NetRunsFourRounds
  refine fun vd va d o s => ⟨execNet_badState, execNet_length, fun k0 k1 k2 k3 hr hx hkeys =>
    ⟨_, execNet_ok hr hx, fun hf => ?_, fun hf => ?_, sameBut_writeV s vd _⟩⟩
  all_goals
    rw [readV_writeV_same, engineNet, scheduleOf_eq_keys, ← hkeys, hf]
    rfl

/-- Settles O44: the first `NET` leaves the engine as it is and one block in `V[vd]`, and the second inverts it. -/
theorem netDecryptRestoresNetEncrypt : Obligations.NetDecryptRestoresNetEncrypt := by
  unfold Obligations.NetDecryptRestoresNetEncrypt
  intro vd va vw s hi hr hx
  have hk := hi.keysFit hr
  have hy := engineNet_length s.cfg s.rk (readV s va) .forward .encrypt hk hx
  refine ⟨_, _, execNet_ok hr hx, execNet_ok hr ((congrArg List.length (readV_writeV_same s vd _)).trans hy), ?_,
    sameBut_trans (sameBut_writeV_of s vd _ (.inl rfl)) (sameBut_writeV_of _ vw _ (.inr rfl))⟩
  rw [readV_writeV_same, readV_writeV_same]
  exact engineNet_decrypt_encrypt hk hx

end Sys2Proof.Machine

/-! SUPPORT. The mode wrapper, one block at a time (45_mode_wrapper.md). The block step of each mode and direction
(R112 to R114), and the commands that load an IV or step one block. -/

namespace Sys2Proof.Machine

/-! The block step, by mode and direction (R112, R113, R114). -/

section BlockStep

variable {cfg : Cfg} (rk : Vector Bytes Config.nrounds) (x iv : Bytes)

theorem blockStep_none (hm : cfg.mode = .none) (d : CipherDir) :
    blockStep cfg rk x d iv = (engineNet cfg rk x (schedOrder .none d) d, iv) := by
  simp only [blockStep, hm]

theorem blockStep_cbc_encrypt (hm : cfg.mode = .cbc) :
    blockStep cfg rk x .encrypt iv
      = (engineNet cfg rk (xorB x iv) .forward .encrypt, engineNet cfg rk (xorB x iv) .forward .encrypt) := by
  simp only [blockStep, hm, schedOrder]

theorem blockStep_cbc_decrypt (hm : cfg.mode = .cbc) :
    blockStep cfg rk x .decrypt iv = (xorB (engineNet cfg rk x .reverse .decrypt) iv, x) := by
  simp only [blockStep, hm, schedOrder]

theorem blockStep_cfb_encrypt (hm : cfg.mode = .cfb) :
    blockStep cfg rk x .encrypt iv
      = (xorB (engineNet cfg rk iv .forward .encrypt) x, xorB (engineNet cfg rk iv .forward .encrypt) x) := by
  simp only [blockStep, hm, schedOrder]

theorem blockStep_cfb_decrypt (hm : cfg.mode = .cfb) :
    blockStep cfg rk x .decrypt iv = (xorB (engineNet cfg rk iv .forward .encrypt) x, x) := by
  simp only [blockStep, hm, schedOrder]

end BlockStep

/-! `IVSET`, `IVGET`, `MSTART` (R119, R120, R121). -/

theorem execIvset_badState {va : VReg} {s : State} (h : s.cfg.ready = false ∨ s.cfg.mode = .none) :
    exec (.ivset va) s = .next (raisedState .badState (.ivset va) s) := by
  cases hr : s.cfg.ready with
  | false => exact if_neg (Bool.eq_false_iff.mp hr)
  | true => exact (if_pos hr).trans (if_pos (h.resolve_left (Bool.eq_false_iff.not_left.mpr hr)))

theorem execIvset_length {va : VReg} {s : State} (hr : s.cfg.ready = true) (hm : s.cfg.mode ≠ .none)
    (hx : (readV s va).length ≠ blockBytes s.cfg) :
    exec (.ivset va) s = .next (raisedState .invalidArgument (.ivset va) s) :=
  (if_pos hr).trans ((if_neg hm).trans (if_pos hx))

theorem execIvget_badState {vd : VReg} {sel : IvSel} {s : State} (hr : s.cfg.ready = false) :
    exec (.ivget vd sel) s = .next (raisedState .badState (.ivget vd sel) s) := if_neg (Bool.eq_false_iff.mp hr)

theorem execIvget_length {vd : VReg} {sel : IvSel} {s : State} (hr : s.cfg.ready = true)
    (hl : (ivOf s sel).length > Config.vmax) :
    exec (.ivget vd sel) s = .next (raisedState .invalidArgument (.ivget vd sel) s) :=
  (if_pos hr).trans (if_pos hl)

theorem execMstart_badState {s : State} (hr : s.cfg.ready = false) :
    exec .mstart s = .next (raisedState .badState .mstart s) := if_neg (Bool.eq_false_iff.mp hr)

theorem ivOf_eq_ite (s : State) (sel : IvSel) : ivOf s sel = if sel = .iv0 then s.iv0 else s.ivr := by
  cases sel <;> rfl

/-- Settles O45: the two raises, else the effect of `execIvset_ok`. -/
theorem ivsetInstallsAnIv : Obligations.IvsetInstallsAnIv := by
  unfold Obligations.IvsetInstallsAnIv
  exact fun va s => ⟨execIvset_badState, execIvset_length, fun hr hm hx =>
    ⟨_, execIvset_ok hr hm hx, rfl, rfl, sameBut_iv0_ivr s _ _⟩⟩

/-- Settles O46: the two raises, else the effect of `execIvget_ok`, on the register the select names. -/
theorem ivgetReadsAnIv : Obligations.IvgetReadsAnIv := by
  unfold Obligations.IvgetReadsAnIv
  rintro vd sel s iv hiv
  obtain rfl : iv = ivOf s sel := hiv.trans (ivOf_eq_ite s sel).symm
  exact ⟨execIvget_badState, execIvget_length, fun hr hl =>
    ⟨_, execIvget_ok hr hl, readV_writeV_same s vd _, sameBut_writeV s vd _⟩⟩

/-- Settles O47: the raise, else the effect of `execMstart_ok`. -/
theorem mstartReloadsTheRunningIv : Obligations.MstartReloadsTheRunningIv := by
  unfold Obligations.MstartReloadsTheRunningIv
  exact fun s => ⟨execMstart_badState, fun hr => ⟨_, execMstart_ok hr, rfl, sameBut_ivr s _⟩⟩

/-! `BLK` (R122). -/

section Blk

variable {vd va : VReg} {d : CipherDir} {s : State} {y iv : Bytes} (hr : s.cfg.ready = true)
  (hx : (readV s va).length = blockBytes s.cfg) (hiv : s.cfg.mode ≠ .none → s.ivr.length = blockBytes s.cfg)
  (h : blockStep s.cfg s.rk (readV s va) d s.ivr = (y, iv))
include hr hx hiv h

theorem execBlk_blockStep : exec (.blk vd va d) s = .next { writeV s vd y with ivr := iv } := by
  rw [execBlk_ok hr hx hiv, h]

/-- `BLK` writes the two values the block step gives, and nothing else. -/
theorem execBlk_effect :
    ∃ t, exec (.blk vd va d) s = .next t ∧ readV t vd = y ∧ t.ivr = iv
      ∧ sameBut (fun p => p = .v vd ∨ p = .ivr) s t :=
  ⟨_, execBlk_blockStep hr hx hiv h, readV_writeV_same s vd y, rfl, sameBut_trans
    (sameBut_writeV_of s vd y (.inl rfl)) (sameBut_mono (fun _ => .inr) (sameBut_ivr _ iv))⟩

end Blk

/-- A part that reads the same need not be named in a frame. -/
theorem sameBut_of_same {c d : Part → Prop} {s t : State} (h : sameBut d s t) (hd : ∀ p, d p → c p ∨ p.same s t) :
    sameBut c s t :=
  fun p hp => (Classical.em (d p)).elim (fun hdp => (hd p hdp).resolve_left hp) (h p)

/-- Settles O48: the step of mode None gives back the running IV, so `V[vd]` alone changes. -/
theorem blkInModeNone : Obligations.BlkInModeNone := by
  unfold Obligations.BlkInModeNone
  intro vd va d s hr hm hx
  obtain ⟨t, ht, hy, hiv, hf⟩ := execBlk_effect (vd := vd) hr hx (fun h => absurd hm h)
    (blockStep_none s.rk (readV s va) s.ivr hm d)
  refine ⟨t, ht, ?_, hiv, sameBut_of_same hf ?_⟩
  · rw [hy]
    cases d <;> rfl
  · rintro p (rfl | rfl)
    · exact .inl rfl
    · exact .inr hiv

/-- Settles O49: the step of CBC in each direction. -/
theorem blkInModeCbc : Obligations.BlkInModeCbc := by
  unfold Obligations.BlkInModeCbc
  intro vd va s hr hm hx hiv
  obtain ⟨t, ht, hy, hz, hf⟩ := execBlk_effect (vd := vd) hr hx (fun _ => hiv)
    (blockStep_cbc_encrypt s.rk (readV s va) s.ivr hm)
  exact ⟨⟨t, ht, hy, hz.trans hy.symm, hf⟩,
    execBlk_effect hr hx (fun _ => hiv) (blockStep_cbc_decrypt s.rk (readV s va) s.ivr hm)⟩

/-- Settles O50: the step of CFB in each direction; the block is the same, the next running IV is not. -/
theorem blkInModeCfb : Obligations.BlkInModeCfb := by
  unfold Obligations.BlkInModeCfb
  intro vd va d s hr hm hx hiv
  cases d with
  | encrypt =>
    obtain ⟨t, ht, hy, hz, hf⟩ := execBlk_effect (vd := vd) hr hx (fun _ => hiv)
      (blockStep_cfb_encrypt s.rk (readV s va) s.ivr hm)
    exact ⟨t, ht, hy, fun _ => hz.trans hy.symm, nofun, hf⟩
  | decrypt =>
    obtain ⟨t, ht, hy, hz, hf⟩ := execBlk_effect (vd := vd) hr hx (fun _ => hiv)
      (blockStep_cfb_decrypt s.rk (readV s va) s.ivr hm)
    exact ⟨t, ht, hy, nofun, fun _ => hz, hf⟩

end Sys2Proof.Machine

/-! SUPPORT. The mode wrapper, a whole message (45_mode_wrapper.md, R116 to R118, R123). A message by positions: block
`j` of the padded text, the running IV before it, the block it gives; then the state after `MSG` byte by byte. -/

namespace Sys2Proof.Machine

/-! The blocks of a padded text (R116, R118). -/

theorem padLen_eq_mul (n b : Nat) : padLen n b = (n + b - 1) / b * b := Nat.mul_comm _ _

theorem padText_of_dvd {t : Bytes} {b : Nat} (hb : 0 < b) (h : b ∣ t.length) : padText t b = t := by
  simp [padText, padLen_of_dvd _ b hb h, zeros]

/-- Byte `i` of block `j` lies in block `j`. -/
theorem block_index_div {b i : Nat} (hi : i < b) (j : Nat) : (j * b + i) / b = j := by
  rw [Nat.mul_comm, Nat.mul_add_div (by omega), Nat.div_eq_of_lt hi, Nat.add_zero]

/-- Byte `i` of block `j` lies before the end of `nb > j` blocks. -/
theorem block_index_lt {b i j nb : Nat} (hj : j < nb) (hi : i < b) : j * b + i < nb * b := by
  calc j * b + i < j * b + b := by omega
    _ = (j + 1) * b := by ring
    _ ≤ nb * b := Nat.mul_le_mul_right b hj

section Text

variable {cfg : Cfg} (t : Bytes) (hb : 0 < blockBytes cfg)
include hb

theorem messageBlocks_flatten : (messageBlocks cfg t).flatten = padText t (blockBytes cfg) := by
  refine blocksOf_flatten _ _ _ ?_
  rw [padText_length t _ hb, Nat.div_mul_cancel (padLen_spec _ _ hb).1]

theorem messageBlocks_block_length : ∀ x ∈ messageBlocks cfg t, x.length = blockBytes cfg := by
  refine blocksOf_block_length _ _ _ ?_
  rw [padText_length t _ hb]
  exact Nat.div_mul_le_self _ _

/-- A text made of whole blocks is cut into these blocks. -/
theorem messageBlocks_of_flatten {ys : List Bytes} (h : ∀ y ∈ ys, y.length = blockBytes cfg) :
    messageBlocks cfg ys.flatten = ys := by
  have hlen := flatten_length_of_blocks _ ys h
  have hdvd : blockBytes cfg ∣ ys.flatten.length := hlen ▸ Nat.dvd_mul_left _ _
  rw [messageBlocks, padText_of_dvd hb hdvd, padLen_of_dvd _ _ hb hdvd, hlen, Nat.mul_div_cancel _ hb,
    blocksOf_of_flatten _ ys h]

end Text

/-! A message by positions (R118). -/

/-- The padded text in `MEM`, cut into blocks (R116, R118). -/
def textBlocks (s : State) : List Bytes := messageBlocks s.cfg (memRead s 0 s.mlen.toNat)

/-- Block `j` of the padded text in `MEM` (R116, R118). -/
def textBlock (s : State) (j : Nat) : Bytes :=
  ((padText (memRead s 0 s.mlen.toNat) (blockBytes s.cfg)).drop (j * blockBytes s.cfg)).take (blockBytes s.cfg)

theorem textBlocks_getElem {s : State} {j : Nat} (hj : j < (textBlocks s).length) :
    (textBlocks s)[j] = textBlock s j := by
  refine Option.some.inj ((List.getElem?_eq_getElem hj).symm.trans ?_)
  rw [textBlocks, messageBlocks, blocksOf_length] at hj
  exact blocksOf_getElem? _ _ _ j hj

/-- The running IV before block `j`, from the construction IV (R118). -/
def ivAt (d : CipherDir) (s : State) : Nat → Bytes
  | 0 => s.iv0
  | j + 1 => (blockStep s.cfg s.rk (textBlock s j) d (ivAt d s j)).2

/-- Output block `j` (R118). -/
def outAt (d : CipherDir) (s : State) (j : Nat) : Bytes := (blockStep s.cfg s.rk (textBlock s j) d (ivAt d s j)).1

/-- What `MSG d` computes from the text in `MEM` (R118, R123). -/
def msgOf (d : CipherDir) (s : State) : Bytes × Nat × Bytes :=
  message s.cfg s.rk (memRead s 0 s.mlen.toNat) d s.iv0

theorem msgOf_out (d : CipherDir) (s : State) :
    (msgOf d s).1 = (chain s.cfg s.rk d (textBlocks s) s.iv0).1.flatten := rfl

theorem msgOf_iv (d : CipherDir) (s : State) : (msgOf d s).2.2 = (chain s.cfg s.rk d (textBlocks s) s.iv0).2 := rfl

/-- The state after `MSG d` with its checks passed (R123). -/
def afterMsg (d : CipherDir) (s : State) : State :=
  { memWrite s 0 (msgOf d s).1 with ivr := (msgOf d s).2.2, mlen := BitVec.ofNat 13 (msgOf d s).2.1 }

theorem afterMsg_ivr (d : CipherDir) (s : State) : (afterMsg d s).ivr = (msgOf d s).2.2 := rfl

theorem memByte_afterMsg (d : CipherDir) (s : State) (a : Nat) :
    memByte (afterMsg d s) a = memByte (memWrite s 0 (msgOf d s).1) a := rfl

/-- The checks of `MSG` pass on an engine of the invariant whose padded text is `nb` blocks (R116, R123). -/
structure MsgFits (s : State) (nb : Nat) : Prop where
  inv : Inv s
  ready : s.cfg.ready = true
  padded : padLen s.mlen.toNat (blockBytes s.cfg) = nb * blockBytes s.cfg
  fits : nb * blockBytes s.cfg ≤ Config.msize
  iv : 0 < nb → s.cfg.mode ≠ .none → s.iv0.length = blockBytes s.cfg

theorem msgFits_of_padLen {s : State} (hi : Inv s) (hr : s.cfg.ready = true)
    (hp : padLen s.mlen.toNat (blockBytes s.cfg) ≤ 4096)
    (hiv : s.cfg.mode ≠ .none → s.iv0.length = blockBytes s.cfg) :
    MsgFits s ((s.mlen.toNat + blockBytes s.cfg - 1) / blockBytes s.cfg) :=
  ⟨hi, hr, padLen_eq_mul _ _, (padLen_eq_mul _ _).symm.trans_le hp, fun _ => hiv⟩

namespace MsgFits

variable {s : State} {nb : Nat} (h : MsgFits s nb) (d : CipherDir)
include h

theorem pos : 0 < blockBytes s.cfg := (h.inv.blockBytes_bounds h.ready).1

theorem keys : KeysFit s.cfg s.rk := h.inv.keysFit h.ready

/-- The text ends in the last block, or is empty. -/
theorem mlen_bounds :
    s.mlen.toNat ≤ nb * blockBytes s.cfg ∧ nb * blockBytes s.cfg < s.mlen.toNat + blockBytes s.cfg :=
  h.padded ▸ (padLen_spec s.mlen.toNat (blockBytes s.cfg) h.pos).2

theorem iv_of_padLen (hp : padLen s.mlen.toNat (blockBytes s.cfg) > 0) :
    s.cfg.mode ≠ .none → s.iv0.length = blockBytes s.cfg :=
  h.iv (Nat.pos_of_mul_pos_right (h.padded ▸ hp))

theorem exec_msg : exec (.msg d) s = .next (afterMsg d s) :=
  execMsg_ok h.ready (h.padded.trans_le h.fits) h.iv_of_padLen

theorem inv_afterMsg : Inv (afterMsg d s) := execMsg_keeps_inv h.inv (h.exec_msg d)

/-- `MSG` writes the padded text's bytes, `IVR` and `MLEN` (R123). -/
theorem frame :
    sameBut (fun p => (∃ a, a < nb * blockBytes s.cfg ∧ p = .mem a) ∨ p = .ivr ∨ p = .mlen) s (afterMsg d s) := by
  obtain ⟨t, ht, hf⟩ := completes_msg (d := d) h.ready (h.padded.trans_le h.fits) h.iv_of_padLen
  obtain rfl : afterMsg d s = t := Host.Outcome.next.inj ((h.exec_msg d).symm.trans ht)
  exact h.padded ▸ hf

theorem memByte_out {a : Nat} (ha : nb * blockBytes s.cfg ≤ a) : memByte (afterMsg d s) a = memByte s a :=
  h.frame d (.mem a) (by simpa using ha)

/-! The blocks. -/

theorem textBlock_length {j : Nat} (hj : j < nb) : (textBlock s j).length = blockBytes s.cfg := by
  have hle : (j + 1) * blockBytes s.cfg ≤ nb * blockBytes s.cfg := Nat.mul_le_mul_right _ hj
  have hmul : (j + 1) * blockBytes s.cfg = j * blockBytes s.cfg + blockBytes s.cfg := by ring
  simp only [textBlock, List.length_take, List.length_drop, padText_length _ _ h.pos, memRead_length, h.padded]
  omega

/-- Byte `i` of block `j`: the byte in `MEM`, or the null of the padding (R116). -/
theorem textBlock_getElem? {j i : Nat} (hj : j < nb) (hi : i < blockBytes s.cfg) :
    (textBlock s j)[i]? = some (if j * blockBytes s.cfg + i < s.mlen.toNat
      then memByte s (j * blockBytes s.cfg + i) else 0) := by
  have hlt := block_index_lt hj hi
  rw [textBlock, List.getElem?_take_of_lt hi, List.getElem?_drop,
    padText_getElem? _ _ _ (by simpa [h.padded] using hlt)]
  simp

theorem textBlocks_length : (textBlocks s).length = nb := by
  rw [textBlocks, messageBlocks, blocksOf_length, memRead_length, h.padded, Nat.mul_div_cancel _ h.pos]

/-- The block loop on the text, by positions (R118). -/
theorem chain_positions :
    (∀ j, j < nb → (chain s.cfg s.rk d (textBlocks s) s.iv0).1[j]? = some (outAt d s j))
      ∧ (chain s.cfg s.rk d (textBlocks s) s.iv0).2 = ivAt d s nb := by
  obtain ⟨out, iv, h₀, hstep, hout, hlast⟩ := chain_spec s.cfg s.rk d (textBlocks s) s.iv0
  simp only [h.textBlocks_length, textBlocks_getElem] at hstep hout hlast
  have hiv : ∀ j, j ≤ nb → iv j = ivAt d s j := by
    intro j
    induction j with
    | zero => exact fun _ => h₀
    | succ j ih =>
      intro hj
      rw [ivAt, ← ih (by omega), ← hstep j (by omega)]
  refine ⟨fun j hj => ?_, hlast.trans (hiv nb le_rfl)⟩
  rw [hout j hj, outAt, ← hiv j hj.le, ← hstep j hj]

theorem ivr_afterMsg : (afterMsg d s).ivr = ivAt d s nb := by rw [afterMsg_ivr, msgOf_iv, (h.chain_positions d).2]

/-- The block loop gives `nb` blocks of the block size; `nb` is not 0, so the IV was tested (R118, R123). -/
theorem chain_lengths (hnb : 0 < nb) :
    (chain s.cfg s.rk d (textBlocks s) s.iv0).1.length = nb
      ∧ ∀ y ∈ (chain s.cfg s.rk d (textBlocks s) s.iv0).1, y.length = blockBytes s.cfg := by
  obtain ⟨hlen, hblock, -⟩ :=
    chain_length s.cfg s.rk d _ s.iv0 h.keys (messageBlocks_block_length _ h.pos) (h.iv hnb)
  exact ⟨hlen.trans h.textBlocks_length, hblock⟩

/-- The output of a message is as long as its padded text, also when that is empty and no IV is tested (R118). -/
theorem out_length : (msgOf d s).1.length = nb * blockBytes s.cfg := by
  rcases Nat.eq_zero_or_pos nb with rfl | hnb
  · have hle := message_length_le s.cfg s.rk (memRead s 0 s.mlen.toNat) d s.iv0
    rw [memRead_length, h.padded] at hle
    exact Nat.le_antisymm hle (by omega)
  · obtain ⟨hlen, hblock⟩ := h.chain_lengths d hnb
    rw [msgOf_out, flatten_length_of_blocks _ _ hblock, hlen]

/-- The output stands in `MEM` from address 0 on (R118). -/
theorem memRead_afterMsg : memRead (afterMsg d s) 0 (nb * blockBytes s.cfg) = (msgOf d s).1 := by
  rw [← h.out_length d, memRead_congr (memByte_afterMsg d s), memRead_memWrite_same]

/-- Each output block stands in place of its block of the text (R118). -/
theorem outAt_getElem? {j i : Nat} (hj : j < nb) (hi : i < blockBytes s.cfg) :
    (outAt d s j)[i]? = some (memByte (afterMsg d s) (j * blockBytes s.cfg + i)) := by
  obtain ⟨hlt, hout⟩ := List.getElem?_eq_some_iff.mp ((h.chain_positions d).1 j hj)
  rw [← hout, ← flatten_getElem? _ _ (h.chain_lengths d (by omega)).2 j i hlt hi, ← msgOf_out, ← h.memRead_afterMsg d,
    memRead_getElem?, if_pos (block_index_lt hj hi), Nat.zero_add]

theorem ivAt_length {j : Nat} (hj : j ≤ nb) (hnb : 0 < nb) (hm : s.cfg.mode ≠ .none) :
    (ivAt d s j).length = blockBytes s.cfg := by
  induction j with
  | zero => exact h.iv hnb hm
  | succ j ih =>
    have hlen := blockStep_length s.cfg s.rk (textBlock s j) d (ivAt d s j) h.keys (h.textBlock_length hj)
      fun _ => ih (by omega)
    exact hlen.2.trans (ih (by omega))

theorem outAt_length {j : Nat} (hj : j < nb) : (outAt d s j).length = blockBytes s.cfg :=
  (blockStep_length s.cfg s.rk (textBlock s j) d (ivAt d s j) h.keys (h.textBlock_length hj)
    (h.ivAt_length d hj.le (by omega))).1

/-! The reported length (R117, R118). -/

theorem mlen_afterMsg : (afterMsg d s).mlen.toNat = (msgOf d s).2.1 := by
  have hle := message_count_le s.cfg s.rk (memRead s 0 s.mlen.toNat) d s.iv0
  rw [memRead_length, h.padded] at hle
  exact Nat.mod_eq_of_lt ((hle.trans h.fits).trans_lt (by decide))

theorem mlen_encrypt : (afterMsg .encrypt s).mlen.toNat = nb * blockBytes s.cfg := by
  rw [h.mlen_afterMsg, ← h.padded, msgOf, message_length_encrypt, memRead_length]

theorem mlen_decrypt : (afterMsg .decrypt s).mlen.toNat = trimLen (msgOf .decrypt s).1 := h.mlen_afterMsg .decrypt

/-- Decrypting reports the length without trailing nulls. -/
theorem mlen_decrypt_spec : (afterMsg .decrypt s).mlen.toNat ≤ nb * blockBytes s.cfg
    ∧ (∀ a, (afterMsg .decrypt s).mlen.toNat ≤ a → a < nb * blockBytes s.cfg → memByte (afterMsg .decrypt s) a = 0)
    ∧ ((afterMsg .decrypt s).mlen.toNat ≠ 0
        → memByte (afterMsg .decrypt s) ((afterMsg .decrypt s).mlen.toNat - 1) ≠ 0) := by
  have hlen := h.out_length .decrypt
  have hle := trimLen_le (msgOf .decrypt s).1
  have hbyte : ∀ a, a < nb * blockBytes s.cfg →
      (msgOf .decrypt s).1[a]? = some (memByte (afterMsg .decrypt s) a) := by
    intro a ha
    rw [← h.memRead_afterMsg, memRead_getElem?, if_pos ha, Nat.zero_add]
  obtain ⟨hnull, hlast⟩ := trimLen_spec (msgOf .decrypt s).1
  rw [h.mlen_decrypt]
  refine ⟨hlen ▸ hle, fun a ha hap => ?_, fun hne => ?_⟩
  · exact Option.some.inj ((hbyte a hap).symm.trans (hnull a ha (hlen.symm ▸ hap)))
  · obtain ⟨b, hb, hbne⟩ := hlast.resolve_left hne
    rw [hbyte _ (by omega)] at hb
    exact Option.some.inj hb ▸ hbne

end MsgFits

/-! `MSG` (R123). -/

theorem execMsg_badState {d : CipherDir} {s : State} (hr : s.cfg.ready = false) :
    exec (.msg d) s = .next (raisedState .badState (.msg d) s) := if_neg (Bool.eq_false_iff.mp hr)

theorem execMsg_memRange {d : CipherDir} {s : State} (hr : s.cfg.ready = true)
    (hp : padLen s.mlen.toNat (blockBytes s.cfg) > Config.msize) :
    exec (.msg d) s = .next (raisedState .memRange (.msg d) s) := (if_pos hr).trans (if_pos hp)

theorem execMsg_iv {d : CipherDir} {s : State} (hr : s.cfg.ready = true)
    (hp : padLen s.mlen.toNat (blockBytes s.cfg) ≤ Config.msize) (h₀ : padLen s.mlen.toNat (blockBytes s.cfg) > 0)
    (hm : s.cfg.mode ≠ .none) (hiv : s.iv0.length ≠ blockBytes s.cfg) :
    exec (.msg d) s = .next (raisedState .invalidArgument (.msg d) s) :=
  (if_pos hr).trans ((if_neg (Nat.not_lt.mpr hp)).trans (if_pos ⟨h₀, hm, hiv⟩))

/-- Settles O51: the three raises, else the message by positions. -/
theorem msgProcessesTheWholeText : Obligations.MsgProcessesTheWholeText := by
  unfold Obligations.MsgProcessesTheWholeText
  refine ⟨fun d s => ⟨execMsg_badState, execMsg_memRange, execMsg_iv⟩, ?_⟩
  rintro d s nb hi hr rfl hmax hiv
  have h : MsgFits s _ := ⟨hi, hr, padLen_eq_mul _ _, hmax, hiv⟩
  refine ⟨afterMsg d s, textBlock s, outAt d s, ivAt d s, h.exec_msg d, fun _ => h.textBlock_length,
    fun _ _ => h.textBlock_getElem?, rfl, fun _ _ => rfl, fun _ _ => h.outAt_getElem? d, h.ivr_afterMsg d, ?_, ?_,
    h.frame d⟩
  · rintro rfl
    exact h.mlen_encrypt
  · rintro rfl
    exact h.mlen_decrypt_spec

end Sys2Proof.Machine

/-! SUPPORT. The mode wrapper, laws of messages (45_mode_wrapper.md, R124, R125, R127, R128). `MSG` against `BLK` on
each block; the round trip, first of one block step, then of the block loop, then of a message; and two decryptions
compared block by block. -/

namespace Sys2Proof.Machine

/-! `MSG` and `BLK` on each block (R124). -/

theorem runInstrs_cons {i : Instr} {is : List Instr} {s u : State} (h : exec i s = .next u) :
    runInstrs (i :: is) s = runInstrs is u := by
  rw [runInstrs, h]

theorem runInstrs_append {is js : List Instr} {s u : State} (h : runInstrs is s = .next u) :
    runInstrs (is ++ js) s = runInstrs js u := by
  induction is generalizing s with
  | nil =>
    cases h
    rfl
  | cons i is ih =>
    rw [runInstrs] at h
    split at h
    · rename_i w hw
      exact (runInstrs_cons hw).trans (ih h)
    · cases h
    · cases h

/-- The commands of `blkProgram` for block `j`: load, step, store (R124). -/
def blkBody (v : VReg) (b : Nat) (d : CipherDir) (j : Nat) : List Instr :=
  [.ldv v (j * b) b, .blk v v d, .stv v (j * b)]

/-- The state `w` in which the first `k` blocks of the text of `s` have been stepped and stored (R118, R124). -/
structure BlocksDone (d : CipherDir) (s : State) (k : Nat) (w : State) : Prop where
  cfg : w.cfg = s.cfg
  rk : w.rk = s.rk
  ivr : w.ivr = ivAt d s k
  mem : ∀ a, memByte w a = if a < k * blockBytes s.cfg then memByte (afterMsg d s) a else memByte s a

/-- The state after load and step of block `k` from the state `w`. -/
def afterStep (v : VReg) (d : CipherDir) (s : State) (k : Nat) (w : State) : State :=
  { writeV (writeV w v (textBlock s k)) v (outAt d s k) with ivr := ivAt d s (k + 1) }

/-- The state after load, step and store of block `k` from the state `w`. -/
def afterBody (v : VReg) (d : CipherDir) (s : State) (k : Nat) (w : State) : State :=
  memWrite (afterStep v d s k w) (k * blockBytes s.cfg) (outAt d s k)

theorem readV_afterStep (v : VReg) (d : CipherDir) (s : State) (k : Nat) (w : State) :
    readV (afterStep v d s k w) v = outAt d s k := readV_writeV_same _ v _

section Blocks

variable {d : CipherDir} {s w : State} {nb k : Nat} (h : MsgFits s nb) (hw : BlocksDone d s k w) (hk : k < nb)
  (htext : s.mlen.toNat = nb * blockBytes s.cfg)
include h hw hk htext

/-- The next block of the text still stands in `MEM` as it was. -/
theorem memRead_of_blocksDone : memRead w (k * blockBytes s.cfg) (blockBytes s.cfg) = textBlock s k := by
  refine List.ext_getElem? fun i => ?_
  rw [memRead_getElem?]
  split
  · rename_i hi
    rw [h.textBlock_getElem? hk hi, if_pos (htext ▸ block_index_lt hk hi), hw.mem, if_neg (by omega)]
  · rename_i hi
    rw [List.getElem?_eq_none (by rw [h.textBlock_length hk]; omega)]

theorem runInstrs_blkBody (v : VReg) :
    runInstrs (blkBody v (blockBytes s.cfg) d k) w = .next (afterBody v d s k w) := by
  have hend : (k + 1) * blockBytes s.cfg ≤ Config.msize := (Nat.mul_le_mul_right _ hk).trans h.fits
  have hfit : k * blockBytes s.cfg + blockBytes s.cfg ≤ Config.msize := Nat.succ_mul k _ ▸ hend
  have hload : exec (.ldv v (k * blockBytes s.cfg) (blockBytes s.cfg)) w = .next (writeV w v (textBlock s k)) := by
    rw [execLdv_ok hfit, memRead_of_blocksDone h hw hk htext]
  have hblock : blockStep w.cfg w.rk (readV (writeV w v (textBlock s k)) v) d w.ivr
      = (outAt d s k, ivAt d s (k + 1)) := by
    rw [readV_writeV_same, hw.cfg, hw.rk, hw.ivr]
    rfl
  have hstep : exec (.blk v v d) (writeV w v (textBlock s k)) = .next (afterStep v d s k w) := by
    refine execBlk_blockStep ?_ ?_ ?_ hblock
    all_goals simp only [writeV_cfg, writeV_ivr, readV_writeV_same, hw.cfg, hw.ivr]
    · exact h.ready
    · exact h.textBlock_length hk
    · exact h.ivAt_length d hk.le (by omega)
  have hstore : exec (.stv v (k * blockBytes s.cfg)) (afterStep v d s k w) = .next (afterBody v d s k w) := by
    rw [execStv_ok (by rwa [readV_afterStep, h.outAt_length d hk]), readV_afterStep, afterBody]
  rw [blkBody, runInstrs_cons hload, runInstrs_cons hstep, runInstrs_cons hstore, runInstrs]

omit htext in
/-- Block `k` is done, and no byte outside it has changed. -/
theorem blocksDone_afterBody (v : VReg) : BlocksDone d s (k + 1) (afterBody v d s k w) where
  cfg := hw.cfg
  rk := hw.rk
  ivr := rfl
  mem a := by
    have hmul : (k + 1) * blockBytes s.cfg = k * blockBytes s.cfg + blockBytes s.cfg := Nat.succ_mul k _
    have hlen := h.outAt_length d hk
    by_cases ha : k * blockBytes s.cfg ≤ a ∧ a < k * blockBytes s.cfg + blockBytes s.cfg
    · obtain ⟨i, rfl⟩ := Nat.exists_eq_add_of_le ha.1
      have hi : i < blockBytes s.cfg := by omega
      rw [if_pos (by omega), afterBody, memByte_memWrite_in _ _ _ _ (hlen.symm ▸ hi)]
      exact Option.some.inj ((List.getElem?_eq_getElem _).symm.trans (h.outAt_getElem? d hk hi))
    · have hout : memByte (afterBody v d s k w) a = memByte w a := memByte_memWrite_out _ _ _ a (hlen.symm ▸ ha)
      rw [hout, hw.mem]
      exact if_congr (by omega) rfl rfl

end Blocks

/-- Load, step and store of the first `k` blocks, one after another. -/
theorem runInstrs_blkBodies {d : CipherDir} {s w : State} {nb : Nat} (h : MsgFits s nb) (hw : BlocksDone d s 0 w)
    (htext : s.mlen.toNat = nb * blockBytes s.cfg) (v : VReg) {k : Nat} (hk : k ≤ nb) :
    ∃ u, runInstrs ((List.range k).flatMap (blkBody v (blockBytes s.cfg) d)) w = .next u ∧ BlocksDone d s k u := by
  induction k with
  | zero => exact ⟨w, rfl, hw⟩
  | succ k ih =>
    obtain ⟨u, hu, hdone⟩ := ih (by omega)
    refine ⟨afterBody v d s k u, ?_, blocksDone_afterBody h hdone hk v⟩
    rw [List.range_succ, List.flatMap_append, runInstrs_append hu, List.flatMap_singleton,
      runInstrs_blkBody h hdone hk htext]

/-- Settles O52: `MSTART` leaves no block done, and `BLK` on all blocks leaves all done; past them neither writes. -/
theorem msgAgreesWithBlkByBlk : Obligations.MsgAgreesWithBlkByBlk := by
  unfold Obligations.MsgAgreesWithBlkByBlk
  intro v d s nb hi hr htext hiv
  have hpad := padLen_of_dvd s.mlen.toNat _ (hi.blockBytes_bounds hr).1 (htext ▸ Nat.dvd_mul_left _ _)
  have h : MsgFits s nb := ⟨hi, hr, hpad.trans htext, htext ▸ hi.messageLength, hiv⟩
  have hstart : BlocksDone d s 0 { s with ivr := s.iv0 } := ⟨rfl, rfl, rfl, fun a => by simp; rfl⟩
  obtain ⟨u, hu, hdone⟩ := runInstrs_blkBodies h hstart htext v le_rfl
  refine ⟨afterMsg d s, u, h.exec_msg d, (runInstrs_cons (execMstart_ok hr)).trans hu, fun a => ?_,
    hdone.ivr.trans (h.ivr_afterMsg d).symm⟩
  rw [hdone.mem]
  split
  · rfl
  · exact (h.memByte_out d (by omega)).symm

/-! Round trip (R125). -/

/-- Decrypting the output of a block step restores the block, and both steps go on with the same running IV. -/
theorem blockStep_decrypt_encrypt {cfg : Cfg} {rk : Vector Bytes Config.nrounds} {x iv : Bytes} (hk : KeysFit cfg rk)
    (hx : x.length = blockBytes cfg) (hiv : cfg.mode ≠ .none → iv.length = blockBytes cfg) :
    blockStep cfg rk (blockStep cfg rk x .encrypt iv).1 .decrypt iv = (x, (blockStep cfg rk x .encrypt iv).2) := by
  cases hm : cfg.mode with
  | none => simp only [blockStep_none _ _ _ hm, schedOrder, engineNet_decrypt_encrypt hk hx]
  | cbc =>
    have hxiv : x.length = iv.length := hx.trans (hiv (by simp [hm])).symm
    have hlen := (xorB_length x iv hxiv).trans hx
    simp only [blockStep_cbc_encrypt _ _ _ hm, blockStep_cbc_decrypt _ _ _ hm, engineNet_decrypt_encrypt hk hlen,
      xorB_cancel_right x iv hxiv]
  | cfb =>
    have hnet := engineNet_length cfg rk iv .forward .encrypt hk (hiv (by simp [hm]))
    simp only [blockStep_cfb_encrypt _ _ _ hm, blockStep_cfb_decrypt _ _ _ hm,
      xorB_cancel_left _ x (hnet.trans hx.symm)]

theorem chain_decrypt_encrypt {cfg : Cfg} {rk : Vector Bytes Config.nrounds} {xs : List Bytes} {iv : Bytes}
    (hk : KeysFit cfg rk) (hx : ∀ x ∈ xs, x.length = blockBytes cfg)
    (hiv : cfg.mode ≠ .none → iv.length = blockBytes cfg) :
    chain cfg rk .decrypt (chain cfg rk .encrypt xs iv).1 iv = (xs, (chain cfg rk .encrypt xs iv).2) := by
  induction xs generalizing iv with
  | nil => rfl
  | cons x xs ih =>
    obtain ⟨hx₀, hxs⟩ := List.forall_mem_cons.mp hx
    have hnext := (blockStep_length cfg rk x .encrypt iv hk hx₀ hiv).2
    simp only [chain, blockStep_decrypt_encrypt hk hx₀ hiv, ih hxs fun hm => hnext.trans (hiv hm)]

/-- The text and its padding come back (R125). -/
theorem message_decrypt_encrypt {cfg : Cfg} {rk : Vector Bytes Config.nrounds} {t iv : Bytes} (hk : KeysFit cfg rk)
    (hb : 0 < blockBytes cfg) (hiv : cfg.mode ≠ .none → iv.length = blockBytes cfg) :
    (message cfg rk (message cfg rk t .encrypt iv).1 .decrypt iv).1 = padText t (blockBytes cfg) := by
  have hblocks := messageBlocks_block_length t hb
  rw [message_out, message_out, messageBlocks_of_flatten hb (chain_length cfg rk .encrypt _ iv hk hblocks hiv).2.1,
    chain_decrypt_encrypt hk hblocks hiv, messageBlocks_flatten t hb]

/-- Trailing nulls do not count (R117). -/
theorem trimLen_append_zeros (t : Bytes) (k : Nat) : trimLen (t ++ zeros k) = trimLen t := by
  induction k with
  | zero => simp [zeros]
  | succ k ih => rw [← ih]; simp [trimLen, zeros, List.replicate_succ]

/-- A text loses nothing to the trimming exactly when it is empty or its last byte is not null (R117, R125). -/
theorem trimLen_eq_length_iff (t : Bytes) : trimLen t = t.length ↔ t.length = 0 ∨ t[t.length - 1]? ≠ some 0 := by
  obtain ⟨hnull, hlast⟩ := trimLen_spec t
  constructor
  · intro h
    rw [h] at hlast
    refine hlast.imp_right fun ⟨b, hb, hne⟩ h₀ => hne ?_
    exact Option.some.inj (hb.symm.trans h₀)
  · intro h
    have hle := trimLen_le t
    by_contra hne
    exact h.elim (fun h₀ => by omega) fun h₀ => h₀ (hnull _ (by omega) (by omega))

/-- The round keys are a function of the key (R28 (b), R80). -/
theorem Inv.rk_eq {s s' : State} (hi : Inv s) (hi' : Inv s') (hr : s.cfg.ready = true) (hc : s'.cfg = s.cfg)
    (hk : s'.key = s.key) : s'.rk = s.rk := by
  refine Vector.ext fun i hlt => ?_
  rw [hi.schedule hr ⟨i, hlt⟩, hi'.schedule (hc ▸ hr) ⟨i, hlt⟩, hk]

/-- An engine that decrypts what `s` encrypted: the same configuration, key and IV, and the ciphertext in `MEM`. -/
structure HoldsCiphertext (s : State) (p : Nat) (t' : State) : Prop where
  inv : Inv t'
  cfg : t'.cfg = s.cfg
  key : t'.key = s.key
  iv0 : t'.iv0 = s.iv0
  mlen : t'.mlen = (afterMsg .encrypt s).mlen
  mem : ∀ a, a < p → memByte t' a = memByte (afterMsg .encrypt s) a

section RoundTrip

variable {s t' : State} {nb : Nat} (h : MsgFits s nb) (hiv : s.cfg.mode ≠ .none → s.iv0.length = blockBytes s.cfg)
  (ht : HoldsCiphertext s (nb * blockBytes s.cfg) t')
include h ht

theorem HoldsCiphertext.mlen_toNat : t'.mlen.toNat = nb * blockBytes s.cfg := by rw [ht.mlen, h.mlen_encrypt]

/-- The ciphertext is whole blocks, so `MSG D` takes as many (R116). -/
theorem HoldsCiphertext.msgFits : MsgFits t' nb where
  inv := ht.inv
  ready := ht.cfg ▸ h.ready
  padded := by rw [ht.mlen_toNat h, ht.cfg, padLen_of_dvd _ _ h.pos (Nat.dvd_mul_left _ _)]
  fits := ht.cfg ▸ h.fits
  iv := by rw [ht.cfg, ht.iv0]; exact h.iv

include hiv in
theorem HoldsCiphertext.out :
    (msgOf .decrypt t').1 = padText (memRead s 0 s.mlen.toNat) (blockBytes s.cfg) := by
  have hcipher : memRead t' 0 t'.mlen.toNat = (msgOf .encrypt s).1 := by
    rw [← h.memRead_afterMsg, ht.mlen_toNat h]
    exact List.map_congr_left fun a ha => ht.mem _ (by simpa using ha)
  rw [msgOf, hcipher, ht.cfg, ht.iv0, h.inv.rk_eq ht.inv h.ready ht.cfg ht.key]
  exact message_decrypt_encrypt h.keys h.pos hiv

include hiv in
theorem HoldsCiphertext.memByte_decrypt {a : Nat} (ha : a < nb * blockBytes s.cfg) :
    memByte (afterMsg .decrypt t') a = if a < s.mlen.toNat then memByte s a else 0 := by
  have hread := (ht.msgFits h).memRead_afterMsg .decrypt
  rw [ht.out h hiv, ht.cfg] at hread
  have hbyte := congrArg (·[a]?) hread
  simp only [memRead_getElem?, if_pos ha, Nat.zero_add] at hbyte
  rw [padText_getElem? _ _ _ (by simpa [h.padded] using ha)] at hbyte
  simpa using hbyte

include hiv in
theorem HoldsCiphertext.mlen_decrypt :
    (afterMsg .decrypt t').mlen.toNat
      = trimLen (memRead s 0 s.mlen.toNat ++ zeros (padLen s.mlen.toNat (blockBytes s.cfg) - s.mlen.toNat)) := by
  rw [(ht.msgFits h).mlen_decrypt, ht.out h hiv, padText, memRead_length]

end RoundTrip

theorem MsgFits.holdsCiphertext {s : State} {nb : Nat} (h : MsgFits s nb) :
    HoldsCiphertext s (nb * blockBytes s.cfg) (afterMsg .encrypt s) :=
  ⟨h.inv_afterMsg .encrypt, rfl, rfl, rfl, rfl, fun _ _ => rfl⟩

/-- Settles O53: the engine that encrypted holds the ciphertext as any other may, and decrypting it gives back the
padded text, whose trimmed length is that of the text. -/
theorem messageRoundTrip : Obligations.MessageRoundTrip := by
  unfold Obligations.MessageRoundTrip
  rintro s n p hi hr hiv rfl rfl hmax
  have h := msgFits_of_padLen hi hr hmax hiv
  refine ⟨_, h.exec_msg .encrypt, fun t' ht' => ?_⟩
  rw [h.padded] at ht' ⊢
  have ht : HoldsCiphertext s _ t' := ht'.elim (fun e => e ▸ h.holdsCiphertext)
    fun ⟨hinv, hc, hk, hv, hm, hmem⟩ => ⟨hinv, hc, hk, hv, hm, hmem⟩
  have hfits := ht.msgFits h
  have hle := h.mlen_bounds.1
  have hlen := ht.mlen_decrypt h hiv
  refine ⟨_, hfits.exec_msg .decrypt, fun a ha => ?_, fun a ha hap => ?_, fun a ha => ?_, h.padded ▸ hlen, ?_⟩
  · rw [ht.memByte_decrypt h hiv (by omega), if_pos ha]
  · rw [ht.memByte_decrypt h hiv hap, if_neg (by omega)]
  · exact hfits.memByte_out .decrypt (ht.cfg.symm ▸ ha)
  · have hiff := trimLen_eq_length_iff (memRead s 0 s.mlen.toNat)
    rw [memRead_length, memRead_getElem?] at hiff
    rw [hlen, trimLen_append_zeros, hiff]
    by_cases h₀ : s.mlen.toNat = 0
    · simp [h₀]
    · simp [h₀, Nat.pos_of_ne_zero h₀]

end Sys2Proof.Machine

/-! SUPPORT. The mode wrapper, two decryptions side by side (45_mode_wrapper.md, R127, R128): which output blocks agree,
from which blocks of the texts and which running IVs agree. -/

namespace Sys2Proof.Machine

/-! Each network is one to one (R103). -/

theorem v1Net_encrypt_decrypt {n : Nat} {keys : List Bytes} (hk : ∀ k ∈ keys, k.length = n) {x : Bytes}
    (hx : x.length = 4 * n) (nbits : Nat) :
    v1Net (v1Net x keys .decrypt nbits) keys.reverse .encrypt nbits = x := by
  induction keys generalizing x with
  | nil => rfl
  | cons k ks ih =>
    obtain ⟨rfl, hks⟩ := List.forall_mem_cons.mp hk
    rw [List.reverse_cons, v1Net_concat, v1Net, ih hks ((v1Round_length x k .decrypt nbits hx).trans hx),
      v1Round_encrypt_decrypt hx]

section Injective

variable {cfg : Cfg} {rk : Vector Bytes Config.nrounds} (hk : KeysFit cfg rk) {x y : Bytes}
  (hx : x.length = blockBytes cfg) (hy : y.length = blockBytes cfg)
include hk hx

theorem engineNet_encrypt_decrypt :
    engineNet cfg rk (engineNet cfg rk x .reverse .decrypt) .forward .encrypt = x := by
  have hback : scheduleOf rk .forward = (scheduleOf rk .reverse).reverse := rfl
  rw [engineNet, engineNet, hback]
  unfold blockBytes at hx
  cases hf : cfg.ftype with
  | classic => exact classicNet_reverse hk.length_of_mem (by simpa only [hf] using hx) _
  | variant1 => exact v1Net_encrypt_decrypt hk.length_of_mem (by simpa only [hf] using hx) _

include hy

theorem engineNet_decrypt_injective
    (h : engineNet cfg rk x .reverse .decrypt = engineNet cfg rk y .reverse .decrypt) : x = y := by
  rw [← engineNet_encrypt_decrypt hk hx, h, engineNet_encrypt_decrypt hk hy]

theorem engineNet_encrypt_injective
    (h : engineNet cfg rk x .forward .encrypt = engineNet cfg rk y .forward .encrypt) : x = y := by
  rw [← engineNet_decrypt_encrypt hk hx, h, engineNet_decrypt_encrypt hk hy]

end Injective

theorem xorB_right_injective {a b c : Bytes} (hb : a.length = b.length) (hc : a.length = c.length)
    (h : xorB a b = xorB a c) : b = c := by
  rw [← xorB_cancel_left a b hb, h, xorB_cancel_left a c hc]

theorem xorB_left_injective {a b c : Bytes} (ha : a.length = c.length) (hb : b.length = c.length)
    (h : xorB a c = xorB b c) : a = b := by
  rw [← xorB_cancel_right a c ha, h, xorB_cancel_right b c hb]

/-! Decryption by positions: the running IV is the ciphertext block before (R113, R114). -/

theorem ivAt_decrypt_succ {s : State} (hm : s.cfg.mode ≠ .none) (j : Nat) :
    ivAt .decrypt s (j + 1) = textBlock s j := by
  rw [ivAt]
  cases hc : s.cfg.mode with
  | none => exact absurd hc hm
  | cbc => rw [blockStep_cbc_decrypt _ _ _ hc]
  | cfb => rw [blockStep_cfb_decrypt _ _ _ hc]

theorem outAt_cbc_decrypt {s : State} (hm : s.cfg.mode = .cbc) (j : Nat) :
    outAt .decrypt s j = xorB (engineNet s.cfg s.rk (textBlock s j) .reverse .decrypt) (ivAt .decrypt s j) := by
  rw [outAt, blockStep_cbc_decrypt _ _ _ hm]

theorem outAt_cfb_decrypt {s : State} (hm : s.cfg.mode = .cfb) (j : Nat) :
    outAt .decrypt s j = xorB (engineNet s.cfg s.rk (ivAt .decrypt s j) .forward .encrypt) (textBlock s j) := by
  rw [outAt, blockStep_cfb_decrypt _ _ _ hm]

/-- Byte `i` of an output block of CBC decryption after the first (R113). -/
theorem MsgFits.memByte_cbc_decrypt_succ {s : State} {nb j i : Nat} (h : MsgFits s nb) (hm : s.cfg.mode = .cbc)
    (hj : j + 1 < nb) (hi : i < blockBytes s.cfg) {x : Byte}
    (hx : (engineNet s.cfg s.rk (textBlock s (j + 1)) .reverse .decrypt)[i]? = some x) :
    memByte (afterMsg .decrypt s) ((j + 1) * blockBytes s.cfg + i) = x ^^^ memByte s (j * blockBytes s.cfg + i) := by
  have hinside : j * blockBytes s.cfg + i < s.mlen.toNat := by
    have hle : (j + 2) * blockBytes s.cfg ≤ nb * blockBytes s.cfg := Nat.mul_le_mul_right _ hj
    have hmul : (j + 2) * blockBytes s.cfg = j * blockBytes s.cfg + 2 * blockBytes s.cfg := by ring
    have hend := h.mlen_bounds.2
    omega
  have hout := h.outAt_getElem? .decrypt hj hi
  rw [outAt_cbc_decrypt hm, ivAt_decrypt_succ (by simp [hm]), xorB, List.getElem?_zipWith, hx,
    h.textBlock_getElem? (by omega) hi, if_pos hinside] at hout
  exact (Option.some.inj hout).symm

/-! Two engines with the same configuration, round keys and length of the text. -/

/-- What two engines share that decrypt texts of one length with one key. -/
structure SameSetup (s s' : State) : Prop where
  cfg : s'.cfg = s.cfg
  rk : s'.rk = s.rk
  mlen : s'.mlen = s.mlen

section TwoRuns

variable {s s' : State} {nb j : Nat} (h : MsgFits s nb) (h' : MsgFits s' nb) (hs : SameSetup s s') (hj : j < nb)
include h h' hs hj

/-- The blocks are the same exactly if their bytes are. -/
theorem textBlock_eq_iff :
    textBlock s' j = textBlock s j
      ↔ ∀ a, a < s.mlen.toNat → a / blockBytes s.cfg = j → memByte s' a = memByte s a := by
  have hbyte : ∀ i, i < blockBytes s.cfg → (textBlock s' j)[i]? = some (if j * blockBytes s.cfg + i < s.mlen.toNat
      then memByte s' (j * blockBytes s.cfg + i) else 0) :=
    fun i hi => hs.mlen ▸ hs.cfg ▸ h'.textBlock_getElem? hj (hs.cfg.symm ▸ hi)
  constructor
  · rintro heq a ha rfl
    have hi := Nat.mod_lt a h.pos
    have hsome := (hbyte _ hi).symm.trans (heq ▸ h.textBlock_getElem? hj hi)
    rw [Nat.div_add_mod', if_pos ha, if_pos ha] at hsome
    exact Option.some.inj hsome
  · intro hmem
    refine List.ext_getElem? fun i => ?_
    by_cases hi : i < blockBytes s.cfg
    · rw [hbyte i hi, h.textBlock_getElem? hj hi]
      split
      · rw [hmem _ ‹_› (block_index_div hi j)]
      · rfl
    · rw [List.getElem?_eq_none (by rw [h'.textBlock_length hj, hs.cfg]; omega),
        List.getElem?_eq_none (by rw [h.textBlock_length hj]; omega)]

/-- The output blocks are the same exactly if the bytes they leave are. -/
theorem outAt_eq_iff (d : CipherDir) :
    outAt d s' j = outAt d s j
      ↔ ∀ a, a / blockBytes s.cfg = j → memByte (afterMsg d s') a = memByte (afterMsg d s) a := by
  have hbyte : ∀ i, i < blockBytes s.cfg →
      (outAt d s' j)[i]? = some (memByte (afterMsg d s') (j * blockBytes s.cfg + i)) :=
    fun i hi => hs.cfg ▸ h'.outAt_getElem? d hj (hs.cfg.symm ▸ hi)
  constructor
  · rintro heq a rfl
    have hi := Nat.mod_lt a h.pos
    have hsome := (hbyte _ hi).symm.trans (heq ▸ h.outAt_getElem? d hj hi)
    rw [Nat.div_add_mod'] at hsome
    exact Option.some.inj hsome
  · intro hmem
    refine List.ext_getElem? fun i => ?_
    by_cases hi : i < blockBytes s.cfg
    · rw [hbyte i hi, h.outAt_getElem? d hj hi, hmem _ (block_index_div hi j)]
    · rw [List.getElem?_eq_none (by rw [h'.outAt_length d hj, hs.cfg]; omega),
        List.getElem?_eq_none (by rw [h.outAt_length d hj]; omega)]

omit h h' hj in
theorem outAt_congr {d : CipherDir} (hx : textBlock s' j = textBlock s j) (hiv : ivAt d s' j = ivAt d s j) :
    outAt d s' j = outAt d s j := by
  rw [outAt, outAt, hs.cfg, hs.rk, hx, hiv]

omit h h' hj in
/-- The running IV of a decryption is the same if the block before is, or before the first block the construction IV. -/
theorem ivAt_decrypt_congr (hm : s.cfg.mode ≠ .none) (h₀ : j = 0 → s'.iv0 = s.iv0)
    (hx : ∀ i, j = i + 1 → textBlock s' i = textBlock s i) : ivAt .decrypt s' j = ivAt .decrypt s j := by
  cases j with
  | zero => exact h₀ rfl
  | succ i => rw [ivAt_decrypt_succ hm, ivAt_decrypt_succ (hs.cfg.symm ▸ hm), hx i rfl]

/-- In CBC with the same running IV, output blocks are the same only if the ciphertext blocks are (R127). -/
theorem textBlock_eq_of_outAt_cbc (hm : s.cfg.mode = .cbc) (hiv : ivAt .decrypt s' j = ivAt .decrypt s j)
    (hout : outAt .decrypt s' j = outAt .decrypt s j) : textBlock s' j = textBlock s j := by
  have hx := h.textBlock_length hj
  have hx' : (textBlock s' j).length = blockBytes s.cfg := (h'.textBlock_length hj).trans (by rw [hs.cfg])
  have hivl := h.ivAt_length .decrypt hj.le (by omega) (by simp [hm])
  have hnet := engineNet_length s.cfg s.rk _ .reverse .decrypt h.keys hx
  have hnet' := engineNet_length s.cfg s.rk _ .reverse .decrypt h.keys hx'
  rw [outAt_cbc_decrypt hm, outAt_cbc_decrypt (hs.cfg.symm ▸ hm), hs.cfg, hs.rk, hiv] at hout
  exact engineNet_decrypt_injective h.keys hx' hx
    (xorB_left_injective (hnet'.trans hivl.symm) (hnet.trans hivl.symm) hout)

/-- With the same ciphertext block, output blocks are the same only if the running IVs are (R128). -/
theorem ivAt_eq_of_outAt (hm : s.cfg.mode ≠ .none) (hx : textBlock s' j = textBlock s j)
    (hout : outAt .decrypt s' j = outAt .decrypt s j) : ivAt .decrypt s' j = ivAt .decrypt s j := by
  have hxl := h.textBlock_length hj
  have hivl := h.ivAt_length .decrypt hj.le (by omega) hm
  have hivl' : (ivAt .decrypt s' j).length = blockBytes s.cfg :=
    (h'.ivAt_length .decrypt hj.le (by omega) (hs.cfg.symm ▸ hm)).trans (by rw [hs.cfg])
  cases hc : s.cfg.mode with
  | none => exact absurd hc hm
  | cbc =>
    have hnet := engineNet_length s.cfg s.rk _ .reverse .decrypt h.keys hxl
    rw [outAt_cbc_decrypt hc, outAt_cbc_decrypt (hs.cfg.symm ▸ hc), hs.cfg, hs.rk, hx] at hout
    exact xorB_right_injective (hnet.trans hivl'.symm) (hnet.trans hivl.symm) hout
  | cfb =>
    have hnet := engineNet_length s.cfg s.rk _ .forward .encrypt h.keys hivl
    have hnet' := engineNet_length s.cfg s.rk _ .forward .encrypt h.keys hivl'
    rw [outAt_cfb_decrypt hc, outAt_cfb_decrypt (hs.cfg.symm ▸ hc), hs.cfg, hs.rk, hx] at hout
    exact engineNet_encrypt_injective h.keys hivl' hivl
      (xorB_left_injective (hnet'.trans hxl.symm) (hnet.trans hxl.symm) hout)

end TwoRuns

/-- In CBC with the same ciphertext block `j + 1`, the bits in which its outputs differ are those in which the
ciphertext blocks `j` differ (R127). -/
theorem memByte_xor_of_cbc_decrypt {s s' : State} {nb j i : Nat} (h : MsgFits s nb) (h' : MsgFits s' nb)
    (hs : SameSetup s s') (hm : s.cfg.mode = .cbc) (hj : j + 1 < nb) (hi : i < blockBytes s.cfg)
    (hx : textBlock s' (j + 1) = textBlock s (j + 1)) :
    memByte (afterMsg .decrypt s') ((j + 1) * blockBytes s.cfg + i)
        ^^^ memByte (afterMsg .decrypt s) ((j + 1) * blockBytes s.cfg + i)
      = memByte s' (j * blockBytes s.cfg + i) ^^^ memByte s (j * blockBytes s.cfg + i) := by
  have hnet := engineNet_length s.cfg s.rk _ .reverse .decrypt h.keys (h.textBlock_length hj)
  have hbyte := List.getElem?_eq_getElem (hnet.symm ▸ hi)
  have hout := h.memByte_cbc_decrypt_succ hm hj hi hbyte
  have hout' := h'.memByte_cbc_decrypt_succ (hs.cfg.symm ▸ hm) hj (hs.cfg.symm ▸ hi)
    (by rw [hs.cfg, hs.rk, hx]; exact hbyte)
  rw [hs.cfg] at hout'
  rw [hout, hout', BitVec.xor_comm _ (memByte s' _), BitVec.xor_assoc, ← BitVec.xor_assoc _ _ (memByte s _),
    BitVec.xor_self, BitVec.zero_xor]

/-- The checks pass on the second engine too. -/
theorem MsgFits.of_sameSetup {s s' : State} {nb : Nat} (h : MsgFits s nb) (hs : SameSetup s s') (hi' : Inv s')
    (hiv : s'.iv0.length = s.iv0.length) : MsgFits s' nb where
  inv := hi'
  ready := hs.cfg ▸ h.ready
  padded := by rw [hs.cfg, hs.mlen, h.padded]
  fits := hs.cfg ▸ h.fits
  iv := by rw [hs.cfg, hiv]; exact h.iv

theorem Inv.iv0_length_cbc {s : State} (hi : Inv s) (hm : s.cfg.mode = .cbc) : s.iv0.length = blockBytes s.cfg := by
  simpa only [hm] using hi.ivLength

/-- Settles O54: every block other than `j` has the same ciphertext, so the running IVs agree but for the one before
block `j + 1`, which is ciphertext block `j`; in block `j` itself the network is one to one. -/
theorem cbcErrorPropagation : Obligations.CbcErrorPropagation := by
  unfold Obligations.CbcErrorPropagation
  rintro s s' j p hi hi' hr hm hc hrk hiv hml rfl hmax hmem
  have hs : SameSetup s s' := ⟨hc, hrk, hml⟩
  have h := msgFits_of_padLen hi hr hmax fun _ => hi.iv0_length_cbc hm
  have h' := h.of_sameSetup hs hi' (congrArg List.length hiv)
  have hmode : s.cfg.mode ≠ .none := by simp [hm]
  rw [h.padded]
  generalize (s.mlen.toNat + blockBytes s.cfg - 1) / blockBytes s.cfg = nb at h h'
  have hx : ∀ k, k < nb → k ≠ j → textBlock s' k = textBlock s k := fun k hk hkj =>
    (textBlock_eq_iff h h' hs hk).mpr fun a ha hak => hmem a ha (hak ▸ hkj)
  have hivk : ∀ k, k < nb → k ≠ j + 1 → ivAt .decrypt s' k = ivAt .decrypt s k := fun k hk hkj =>
    ivAt_decrypt_congr hs hmode (fun _ => hiv) fun i hki => hx i (by omega) (by omega)
  refine ⟨_, _, h.exec_msg .decrypt, h'.exec_msg .decrypt, fun a ha haj haj' => ?_, fun i hi hip => ?_, ?_⟩
  · have hk := (Nat.div_lt_iff_lt_mul h.pos).mpr ha
    exact (outAt_eq_iff h h' hs hk .decrypt).mp (outAt_congr hs (hx _ hk haj) (hivk _ hk haj')) a rfl
  · have hk : j + 1 < nb := Nat.lt_of_mul_lt_mul_right ((Nat.le_add_right _ i).trans_lt hip)
    exact memByte_xor_of_cbc_decrypt h h' hs hm hk hi (hx _ hk (by omega))
  · rintro ⟨a, ha, rfl, hne⟩
    have hap := ha.trans_le h.mlen_bounds.1
    have hk := (Nat.div_lt_iff_lt_mul h.pos).mpr hap
    by_contra hall
    push Not at hall
    have hout : outAt .decrypt s' _ = outAt .decrypt s _ := (outAt_eq_iff h h' hs hk .decrypt).mpr fun b hb =>
      hall b ((Nat.div_lt_iff_lt_mul h.pos).mp (hb.trans_lt hk)) hb
    have hblock := textBlock_eq_of_outAt_cbc h h' hs hk hm (hivk _ hk (by omega)) hout
    exact hne ((textBlock_eq_iff h h' hs hk).mp hblock a ha rfl)

/-- Settles O55: all blocks of the ciphertext agree, and so do the running IVs after the first block; in the first,
equal outputs would mean equal construction IVs. -/
theorem onlyTheFirstBlockDependsOnTheIv : Obligations.OnlyTheFirstBlockDependsOnTheIv := by
  unfold Obligations.OnlyTheFirstBlockDependsOnTheIv
  rintro s s' p hi hi' hr hmode hc hrk hml hmem hivl hivl' hne hpos rfl hmax
  have hs : SameSetup s s' := ⟨hc, hrk, hml⟩
  have h := msgFits_of_padLen hi hr hmax fun _ => hivl
  have h' := h.of_sameSetup hs hi' (hivl'.trans hivl.symm)
  rw [h.padded]
  generalize (s.mlen.toNat + blockBytes s.cfg - 1) / blockBytes s.cfg = nb at h h'
  have hnb : 0 < nb := Nat.pos_of_mul_pos_right (hpos.trans_le h.mlen_bounds.1)
  have hx : ∀ k, k < nb → textBlock s' k = textBlock s k := fun k hk =>
    (textBlock_eq_iff h h' hs hk).mpr fun a ha _ => hmem a ha
  refine ⟨_, _, h.exec_msg .decrypt, h'.exec_msg .decrypt, fun a hba ha => ?_, ?_⟩
  · have hk := (Nat.div_lt_iff_lt_mul h.pos).mpr ha
    have hk₀ : a / blockBytes s.cfg ≠ 0 := (Nat.div_pos hba h.pos).ne'
    have hiv := ivAt_decrypt_congr hs hmode (fun h₀ => absurd h₀ hk₀) fun i hki => hx i (by omega)
    exact (outAt_eq_iff h h' hs hk .decrypt).mp (outAt_congr hs (hx _ hk) hiv) a rfl
  · by_contra hall
    push Not at hall
    have hout : outAt .decrypt s' 0 = outAt .decrypt s 0 := (outAt_eq_iff h h' hs hnb .decrypt).mpr fun b hb =>
      hall b ((Nat.div_eq_zero_iff_lt h.pos).mp hb)
    exact hne (ivAt_eq_of_outAt h h' hs hnb hmode (hx 0 hnb) hout)

end Sys2Proof.Machine

/-! SUPPORT. Data movement and system commands (46_data_and_system.md). The raises of `LDV`, `STV` and `SETMLEN`; the
words with the opcode of `CLRERR`, and `CLRERR` after a raise; then the statements. -/

namespace Sys2Proof.Machine

/-! `MOV`, `LDV`, `STV`, `SETMLEN` (R130, R131, R132, R134). The results are `execLdv_ok`, `execStv_ok` and
`execSetmlen_ok`. -/

theorem execLdv_memRange {vr : VReg} {addr len : Nat} {s : State} (h : addr + len > Config.msize) :
    exec (.ldv vr addr len) s = .next (raisedState .memRange (.ldv vr addr len) s) := if_pos h

theorem execStv_memRange {vr : VReg} {addr : Nat} {s : State} (h : addr + (readV s vr).length > Config.msize) :
    exec (.stv vr addr) s = .next (raisedState .memRange (.stv vr addr) s) := if_pos h

theorem execSetmlen_memRange {n : Nat} {s : State} (h : n > Config.msize) :
    exec (.setmlen n) s = .next (raisedState .memRange (.setmlen n) s) := if_pos h

/-- Settles O19: the effect is one write of `V[vd]`. -/
theorem movCopiesARegister : Obligations.MovCopiesARegister := by
  unfold Obligations.MovCopiesARegister
  exact fun vd va s => ⟨_, rfl, readV_writeV_same s vd _, sameBut_writeV s vd _⟩

/-- Settles O20: the raise, else `V[vr]` holds what `memRead` reads. -/
theorem ldvLoadsARunOfBytes : Obligations.LdvLoadsARunOfBytes := by
  unfold Obligations.LdvLoadsARunOfBytes
  refine fun vr addr len s => ⟨execLdv_memRange, fun h => ⟨_, execLdv_ok h, ?_⟩⟩
  rw [readV_writeV_same]
  exact ⟨memRead_length s addr len, fun j hj => (memRead_getElem? s addr len j).trans (if_pos hj),
    sameBut_writeV s vr _⟩

/-- Settles O21: the raise, else a read after `memWrite`, inside the stored run and outside it. -/
theorem stvStoresARunOfBytes : Obligations.StvStoresARunOfBytes := by
  unfold Obligations.StvStoresARunOfBytes
  refine fun vr addr s => ⟨execStv_memRange, fun h =>
    ⟨_, execStv_ok h, fun j hj => ?_, sameBut_memWrite s addr (readV s vr)⟩⟩
  rw [memByte_memWrite_in s addr (readV s vr) j hj, List.getElem?_eq_getElem hj]

/-- Settles O22: the raise, else a length that fits the 13 bits of `MLEN`. -/
theorem setmlenSetsTheLength : Obligations.SetmlenSetsTheLength := by
  unfold Obligations.SetmlenSetsTheLength
  refine fun n s => ⟨execSetmlen_memRange, fun h => ⟨_, execSetmlen_ok h, ?_, sameBut_mlen s _⟩⟩
  exact (BitVec.toNat_ofNat n 13).trans (Nat.mod_eq_of_lt (by omega))

/-! `NOP`, `CLRERR`, `SRST` (R133, R135, R136). -/

theorem runCommand_nopWord (s : State) : runCommand 0x00000000 s = .next s := by
  by_cases hs : s.err = none
  · exact runCommand_of_decode hs (i := .nop) (decodeInvertsEncode .nop rfl)
  · exact runCommand_ignored hs (by decide) (by decide)

/-- No other command has the opcode of `CLRERR` (R52). -/
theorem eq_clrerr_of_opcode {i : Instr} (h : field (tableRow i).fixed 31 24 = 0x01) : i = .clrerr := by
  cases i with
  | clrerr => rfl
  | _ => exact absurd h (by simp only [tableRow]; decide)

/-- A word with the opcode of `CLRERR` is the word of `CLRERR` or decodes to nothing (R54). -/
theorem decode_malformedClrerr {cw : Word} (hop : field cw 31 24 = 0x01) (hc : cw ≠ 0x01000000) :
    decode cw = none := by
  refine Option.eq_none_iff_forall_ne_some.mpr fun i hd => hc ?_
  have hf := hasFields_of_decode hd
  obtain rfl := eq_clrerr_of_opcode ((hf _ (opcode_mem_wordFields i)).symm.trans hop)
  exact (hasFields_iff.mp hf).2.symm

theorem runCommand_malformedClrerr {cw : Word} (hop : field cw 31 24 = 0x01) (hc : cw ≠ 0x01000000) (s : State) :
    (s.err ≠ none → runCommand cw s = .next s)
      ∧ (s.err = none → runCommand cw s = .next { s with err := some .illegalCommand, ecw := cw }) := by
  have hr : cw ≠ 0x02000000 := by
    rintro rfl
    exact absurd hop (by decide)
  exact ⟨fun hs => runCommand_ignored hs hc hr,
    fun hs => runCommand_of_decode_none hs (decode_malformedClrerr hop hc)⟩

theorem clearError_of_no_error {s : State} (he : s.err = none) (hw : s.ecw = 0) : clearError s = s := by
  rw [clearError, ← he, ← hw]

/-- A raise writes the two registers that `CLRERR` clears, and nothing else (R135, R141). -/
theorem clearError_raisedState (k : ErrKind) (i : Instr) (s : State) : clearError (raisedState k i s) = clearError s :=
  rfl

theorem resetRegisters_rk_getElem (s : State) (i : Fin Config.nrounds) : (resetRegisters s).rk[i.val] = [] := by
  simp [State.reset]

/-- Settles O18: the three words, the malformed word, then the effects of `CLRERR`, also after a raise, and `SRST`. -/
theorem systemCommands : Obligations.SystemCommands := by
  unfold Obligations.SystemCommands
  refine fun s => ⟨rfl, runCommand_nopWord s, runCommand_clrerrWord s, runCommand_srstWord s,
    fun cw hop hc => runCommand_malformedClrerr hop hc s, ⟨_, rfl, rfl, rfl, sameBut_clearError s⟩, fun he hw => ?_,
    _, rfl, readV_resetRegisters s, rfl, rfl, rfl, rfl, rfl, rfl, resetRegisters_rk_getElem s, rfl, rfl, rfl, rfl, rfl,
    sameBut_resetRegisters s⟩
  have hclear : exec .clrerr s = .next s := congrArg Host.Outcome.next (clearError_of_no_error he hw)
  exact ⟨hclear, fun k i => (congrArg Host.Outcome.next (clearError_raisedState k i s)).trans hclear⟩

end Sys2Proof.Machine

/-! SUPPORT. Exceptions, runs, and the IV after construction (60_exceptions.md, 70_reset_and_hazards.md). The raises of
`RKEY` and `BLK`, which have no lemma yet; then, once for all commands, that the first failing check is the one raised
(R146): first the lifecycle, then the command's own checks. -/

namespace Sys2Proof.Machine

/-! The raises of `RKEY` and `BLK` (R88, R122). -/

theorem execRkey_badState {vd : VReg} {o : SchedOrd} {j : Fin Config.nrounds} {s : State} (hr : s.cfg.ready = false) :
    exec (.rkey vd o j) s = .next (raisedState .badState (.rkey vd o j) s) := if_neg (Bool.eq_false_iff.mp hr)

theorem execBlk_badState {vd va : VReg} {d : CipherDir} {s : State} (hr : s.cfg.ready = false) :
    exec (.blk vd va d) s = .next (raisedState .badState (.blk vd va d) s) := if_neg (Bool.eq_false_iff.mp hr)

theorem execBlk_length {vd va : VReg} {d : CipherDir} {s : State} (hr : s.cfg.ready = true)
    (hx : (readV s va).length ≠ blockBytes s.cfg) :
    exec (.blk vd va d) s = .next (raisedState .invalidArgument (.blk vd va d) s) := (if_pos hr).trans (if_pos hx)

theorem execBlk_iv {vd va : VReg} {d : CipherDir} {s : State} (hr : s.cfg.ready = true)
    (hx : (readV s va).length = blockBytes s.cfg) (hm : s.cfg.mode ≠ .none) (hiv : s.ivr.length ≠ blockBytes s.cfg) :
    exec (.blk vd va d) s = .next (raisedState .invalidArgument (.blk vd va d) s) :=
  (if_pos hr).trans ((if_neg (not_not_intro hx)).trans (if_pos ⟨hm, hiv⟩))

/-! The first failing check of a list (R146). -/

theorem firstFails_cons {c : Prop} {j k : ErrKind} {l : List (Prop × ErrKind)} :
    FirstFails ((c, j) :: l) k ↔ (c ∧ j = k) ∨ (¬ c ∧ FirstFails l k) := Iff.rfl

theorem firstFails_singleton {c : Prop} {j k : ErrKind} : FirstFails [(c, j)] k ↔ c ∧ j = k := by
  simp [FirstFails]

theorem firstFails_pair {c₁ c₂ : Prop} {j₁ j₂ k : ErrKind} :
    FirstFails [(c₁, j₁), (c₂, j₂)] k ↔ (c₁ ∧ j₁ = k) ∨ (¬ c₁ ∧ c₂ ∧ j₂ = k) := by
  rw [firstFails_cons, firstFails_singleton]

/-! The first failing check of each command is the one raised. -/

theorem exec_of_notReady {i : Instr} {s : State} (hn : needsReady i = true) (hr : s.cfg.ready = false) :
    exec i s = .next (raisedState .badState i s) := by
  cases i with
  | rkey => exact execRkey_badState hr
  | net => exact execNet_badState hr
  | ivset => exact execIvset_badState (.inl hr)
  | ivget => exact execIvget_badState hr
  | mstart => exact execMstart_badState hr
  | blk => exact execBlk_badState hr
  | msg => exact execMsg_badState hr
  | _ => exact absurd hn Bool.false_ne_true

theorem exec_of_ready {i : Instr} {s : State} (hn : needsUnready i = true) (hr : s.cfg.ready = true) :
    exec i s = .next (raisedState .badState i s) := by
  cases i with
  | initr => exact execInitr_badState hr
  | initk => exact execInitk_badState hr
  | _ => exact absurd hn Bool.false_ne_true

/-- With step 3 of R55 passed, the first failing check among the command's own decides. -/
theorem exec_of_ownCheck {i : Instr} {s : State} {k : ErrKind} (hr : needsReady i = true → s.cfg.ready = true)
    (hu : needsUnready i = true → s.cfg.ready = false) (h : FirstFails (ownChecks s i) k) :
    exec i s = .next (raisedState k i s) := by
  cases i with
  | nop | clrerr | srst | mov | lsh | inv | rkey | mstart => exact h.elim
  | ldv =>
    obtain ⟨hl, rfl⟩ := firstFails_singleton.mp h
    exact execLdv_memRange hl
  | stv =>
    obtain ⟨hl, rfl⟩ := firstFails_singleton.mp h
    exact execStv_memRange hl
  | setmlen =>
    obtain ⟨hn, rfl⟩ := firstFails_singleton.mp h
    exact execSetmlen_memRange hn
  | getbit =>
    obtain ⟨hi, rfl⟩ | ⟨hi, hp, rfl⟩ := firstFails_pair.mp h
    · exact execGetbit_idx hi
    · exact execGetbit_pos (Nat.not_le.mp hi) hp
  | setbit =>
    obtain ⟨hi, rfl⟩ | ⟨hi, hp, rfl⟩ := firstFails_pair.mp h
    · exact execSetbit_idx hi
    · exact execSetbit_pos (Nat.not_le.mp hi) hp
  | rot =>
    obtain ⟨hl, rfl⟩ := firstFails_singleton.mp h
    exact execRot_empty hl
  | xor =>
    obtain ⟨hl, rfl⟩ := firstFails_singleton.mp h
    exact execXor_length hl
  | madd =>
    obtain ⟨hl, rfl⟩ := firstFails_singleton.mp h
    exact execMadd_length hl
  | initr =>
    obtain ⟨rfl, rfl⟩ | ⟨hm, hk, rfl⟩ := firstFails_pair.mp h
    · exact execInitr_mode (hu rfl)
    · exact execInitr_key (hu rfl) hm hk
  | initk =>
    obtain ⟨rfl, rfl⟩ | ⟨hm, hk, rfl⟩ := firstFails_pair.mp h
    · exact execInitk_mode (hu rfl)
    · exact execInitk_key (hu rfl) hm hk
  | rf =>
    obtain ⟨hl, rfl⟩ | ⟨hl, h₀, rfl⟩ := firstFails_pair.mp h
    · exact execRf_length hl
    · exact execRf_empty (not_not.mp hl) h₀
  | crnd =>
    obtain ⟨hx, rfl⟩ := firstFails_singleton.mp h
    exact execCrnd_invalid hx
  | vrnd =>
    obtain ⟨hx, rfl⟩ := firstFails_singleton.mp h
    exact execVrnd_invalid hx
  | net =>
    obtain ⟨hx, rfl⟩ := firstFails_singleton.mp h
    exact execNet_length (hr rfl) hx
  | ivset =>
    obtain ⟨hm, rfl⟩ | ⟨hm, hx, rfl⟩ := firstFails_pair.mp h
    · exact execIvset_badState (.inr hm)
    · exact execIvset_length (hr rfl) hm hx
  | ivget vd sel =>
    cases sel with
    | iv0 | ivr =>
      obtain ⟨hl, rfl⟩ := firstFails_singleton.mp h
      exact execIvget_length (hr rfl) hl
  | blk =>
    obtain ⟨hx, rfl⟩ | ⟨hx, ⟨hm, hiv⟩, rfl⟩ := firstFails_pair.mp h
    · exact execBlk_length (hr rfl) hx
    · exact execBlk_iv (hr rfl) (not_not.mp hx) hm hiv
  | msg =>
    obtain ⟨hp, rfl⟩ | ⟨hp, ⟨h₀, hm, hiv⟩, rfl⟩ := firstFails_pair.mp h
    · exact execMsg_memRange (hr rfl) hp
    · exact execMsg_iv (hr rfl) (Nat.not_lt.mp hp) h₀ hm hiv

/-- The lifecycle comes first, then the command's own checks (R55, R146). -/
theorem exec_of_firstFails {i : Instr} {s : State} {k : ErrKind} (h : FirstFails (checksOf i s) k) :
    exec i s = .next (raisedState k i s) := by
  obtain ⟨⟨hn, hr⟩, rfl⟩ | ⟨hready, ⟨⟨hn, hr⟩, rfl⟩ | ⟨hunready, ho⟩⟩ := h
  · exact exec_of_notReady hn hr
  · exact exec_of_ready hn hr
  · exact exec_of_ownCheck (fun hn => by simpa [hn] using hready) (fun hn => by simpa [hn] using hunready) ho

/-- Settles O11: the ignored word, the word that does not decode, and `exec_of_firstFails`; the encoding of a
well-formed command decodes to it. -/
theorem firstFailingCheckIsRaised : Obligations.FirstFailingCheckIsRaised := by
  unfold Obligations.FirstFailingCheckIsRaised
  refine ⟨fun cw s k hs hc hr => runCommand_ignored (by simp [hs]) hc hr,
    fun cw s hs hd => runCommand_of_decode_none hs hd, fun i s k h => ⟨exec_of_firstFails h, fun hs hw => ?_⟩⟩
  exact (runCommand_of_decode hs (decodeInvertsEncode i hw)).trans (exec_of_firstFails h)

/-- Settles O10: of the three outcomes of a word (`everyWordHasOneOutcome`), only the raise starts without an error and
ends with one. -/
theorem raisedErrorChangesOnlyErrAndEcw : Obligations.RaisedErrorChangesOnlyErrAndEcw := by
  unfold Obligations.RaisedErrorChangesOnlyErrAndEcw
  intro cw s t k hs h hk
  obtain ⟨u, hu, hcases⟩ := everyWordHasOneOutcome cw s
  cases hu.symm.trans h
  obtain ⟨hne, -⟩ | ⟨-, j, rfl⟩ | ⟨hn, -⟩ := hcases
  · exact absurd hs hne
  · cases hk
    rfl
  · cases hn.symm.trans hk

/-! Steps and runs (R145, R174). -/

/-- A write to `CMD` as the next event. -/
theorem step_of_write_cmd {s : State} {cw : Word} {rest : List HostEvent} (h : s.pending = .write32 0 cw :: rest) :
    step s = runCommand cw { s with pending := rest } := step_of_pending h

/-- Settles O7: the step takes the write off the list, and the word does what it does to a faulted engine. -/
theorem faultedEngineIgnoresWords : Obligations.FaultedEngineIgnoresWords := by
  unfold Obligations.FaultedEngineIgnoresWords
  intro s k cw rest hs hp
  rw [step_of_write_cmd hp]
  have hfault : ({ s with pending := rest } : State).err ≠ none := by simp [hs]
  refine ⟨runCommand_ignored hfault, ?_, ?_⟩
  · rintro rfl
    exact runCommand_clrerrWord _
  · rintro rfl
    exact runCommand_srstWord _

/-- A run goes on from the state its first step answers. -/
theorem run_succ_of_step {n : Nat} {s t : State} (h : step s = .next t) :
    Host.Core.run Sys2Proof.core (n + 1) s = Host.Core.run Sys2Proof.core n t := by
  simp only [Host.Core.run, Sys2Proof.core, h]

/-- A step takes the first pending event, of a listed width, off the list and leaves the others. -/
theorem step_takes_event {s : State} {e : HostEvent} {rest : List HostEvent} (hp : s.pending = e :: rest)
    (he : listedAccess e = true) : ∃ t, step s = .next t ∧ t.pending = rest := by
  rw [step_of_pending hp]
  exact hostEvent_listed_keepsPending he { s with pending := rest }

theorem run_performs_pending (events : List HostEvent) (s : State) (hp : s.pending = events)
    (hl : ∀ e ∈ events, listedAccess e = true) :
    ∃ t, Host.Core.run Sys2Proof.core events.length s = .next t ∧ t.pending = [] := by
  induction events generalizing s with
  | nil => exact ⟨s, rfl, hp⟩
  | cons e rest ih =>
    obtain ⟨he, hrest⟩ := List.forall_mem_cons.mp hl
    obtain ⟨u, hu, hpu⟩ := step_takes_event hp he
    rw [List.length_cons, run_succ_of_step hu]
    exact ih u hpu hrest

/-- Settles O17: by induction on the events, each step taking one off the list. -/
theorem everyFiniteRunEnds : Obligations.EveryFiniteRunEnds := by
  unfold Obligations.EveryFiniteRunEnds
  intro events s hp hl
  obtain ⟨t, ht, hpt⟩ := run_performs_pending events s hp hl
  exact ⟨t, ht, hpt, step_of_idle hpt⟩

/-! CFB after construction (R168). -/

/-- A construction in CFB leaves an IV of the length it is given in both IV registers (R82). -/
theorem construct_cfb (k : Bytes) (ft : FType) (n : Nat) (s : State) :
    (construct k ft .cfb n s).cfg.mode = .cfb ∧ (construct k ft .cfb n s).iv0.length = n
      ∧ (construct k ft .cfb n s).ivr.length = n := by
  simp [constructIv]

/-- With a running IV that is no block, `BLK` raises the one kind on every operand (R122). -/
theorem execBlk_of_wrong_iv {s : State} (hr : s.cfg.ready = true) (hm : s.cfg.mode ≠ .none)
    (hiv : s.ivr.length ≠ blockBytes s.cfg) (vd va : VReg) (d : CipherDir) :
    exec (.blk vd va d) s = .next (raisedState .invalidArgument (.blk vd va d) s) := by
  by_cases hx : (readV s va).length = blockBytes s.cfg
  · exact execBlk_iv hr hx hm hiv
  · exact execBlk_length hr hx

/-- Settles O56: the IV lengths by `construct_cfb`; an IV of `4*B` bytes is no block, as `B` is at least 1 (R28 (b)),
and `IVSET` installs one. -/
theorem directKeyCfbNeedsAnIvset : Obligations.DirectKeyCfbNeedsAnIvset := by
  unfold Obligations.DirectKeyCfbNeedsAnIvset
  refine ⟨fun va ft s t hr hk h => ?_, fun klen ft s t hr hk h => ?_, fun s hi hr hm hiv => ?_⟩
  · cases (execInitk_ok hr rfl (badKeyLen_of_not_rejected hk)).symm.trans h
    rw [construct_cfg]
    exact construct_cfb _ _ _ _
  · cases (execInitr_ok hr rfl (badKeyLen_of_not_rejected hk)).symm.trans h
    rw [construct_cfg]
    exact construct_cfb _ _ _ _
  · have hb : 0 < blockBytes s.cfg := (hi.blockBytes_bounds hr).1
    have hmode : s.cfg.mode ≠ .none := by simp [hm]
    have hiv0 : s.iv0.length ≠ blockBytes s.cfg := by omega
    have hivr : s.ivr.length ≠ blockBytes s.cfg := hi.runningIv ▸ hiv0
    refine ⟨execBlk_of_wrong_iv hr hmode hivr, fun d hn hp => ?_, fun va hx => ?_⟩
    · have hpad : s.mlen.toNat ≤ padLen s.mlen.toNat (blockBytes s.cfg) := (padLen_spec _ _ hb).2.1
      exact execMsg_iv hr hp (hn.trans_le hpad) hmode hiv0
    · exact ⟨_, execIvset_ok hr hmode hx, hx, hx, fun vd d => ⟨_, execBlk_ok hr hx (fun _ => hx), rfl⟩⟩

end Sys2Proof.Machine
